-- ==== Sys2Proof/Word.lean ====
section
/-! DEFINITION. The words of the block: bytes, transceiver addresses and the multi-byte unsigned types of
00_scope.md R7. -/

namespace Sys2Proof

/-- A `u8` (R7): one byte of a buffer, of a register or of a frame. -/
abbrev Byte := BitVec 8

/-- The address of a transceiver register: 7 bits (20_memory.md R61). -/
abbrev Addr := BitVec 7

/-- A `u16` or `i16` pattern (R7). -/
abbrev U16 := BitVec 16

/-- A `u32` or `i32` pattern (R7). -/
abbrev U32 := BitVec 32

end Sys2Proof
end

