-- ==== Sys2Proof/Config.lean ====
section
/-! DEFINITION. What an implementation fixes (00_scope.md R5): the constants of tables P1 and P2, the OPEN
parameters of table P3 as one record with its constraints, and the free values of the environment as opaque
constants without a body (notes/assumptions/2.md, 3.md). -/

namespace Sys2Proof

/-- The answer of one bus read (R9): a byte, or a bus error. Outside the three poll loops a bus error stops the
run (R10, 93_implementation_defined.md U12). -/
inductive BusAnswer
  | byte (v : Byte)
  | error
  deriving DecidableEq, Repr, Inhabited

/-- One turn of a poll loop (42_radio_init_config.md R186, R197): what the read answers and what `Now()` returns
after it. -/
structure PollRead where
  answer : BusAnswer
  tick : U32
  deriving DecidableEq, Repr, Inhabited

/-- A whole poll as the environment draws it: the tick at its start and a non-empty sequence of turns
(92_eei_decisions.md D30). -/
structure PollDraw where
  t0 : U32
  first : PollRead
  rest : List PollRead
  deriving DecidableEq, Repr, Inhabited

/-- The transceiver register map, by name (20_memory.md R62). -/
structure XrMap where
  fifo : Addr
  opmode : Addr
  bitrateMsb : Addr
  bitrateLsb : Addr
  fdevMsb : Addr
  fdevLsb : Addr
  frfMsb : Addr
  frfMid : Addr
  frfLsb : Addr
  lna : Addr
  rxconfig : Addr
  rssithresh : Addr
  rssivalue : Addr
  rxbw : Addr
  afcbw : Addr
  afcMsb : Addr
  afcLsb : Addr
  preambleMsb : Addr
  preambleLsb : Addr
  syncconfig : Addr
  syncvalue : Addr
  imagecal : Addr
  irqflags1 : Addr
  version : Addr
  deriving DecidableEq, Repr, Inhabited

/-- The addresses the names of R62 denote (SCRATCH_ADDR apart: it may be another register's address). -/
def XrMap.all (x : XrMap) : List Addr :=
  [x.fifo, x.opmode, x.bitrateMsb, x.bitrateLsb, x.fdevMsb, x.fdevLsb, x.frfMsb, x.frfMid, x.frfLsb, x.lna,
   x.rxconfig, x.rssithresh, x.rssivalue, x.rxbw, x.afcbw, x.afcMsb, x.afcLsb, x.preambleMsb, x.preambleLsb,
   x.syncconfig, x.syncvalue, x.imagecal, x.irqflags1, x.version]

/-- One row of BW_TABLE (10_state.md R44): bandwidth in Hz, mantissa code, exponent code. -/
structure BwRow where
  hz : Nat
  mant : BitVec 2
  exp : BitVec 3
  deriving DecidableEq, Repr, Inhabited

/-- The OPEN parameters (R5, table P3). -/
structure Params where
  xr : XrMap
  opmodeBase : Byte
  versionA : Byte
  versionB : Byte
  scratchAddr : Addr
  scratchPatA : Byte
  scratchPatB : Byte
  /-- R46: the ordered (address, value) pairs INIT writes. -/
  initTable : List (Addr × Byte)
  /-- R44. -/
  bwTable : List BwRow
  /-- R45: indexed by the 3-bit gain field. -/
  lnaDb : Vector Byte 8
  restartValue : Byte
  imageCal : Bool
  imagecalStart : Byte
  imagecalRunningMask : Byte
  calTimeoutMs : Nat
  modereadyMask : Byte
  lnaGainShift : Nat
  tSafetyMs : Nat
  bgRssiInit : Byte
  demodSnr : Nat
  maxPayload : Nat
  deriving DecidableEq, Repr, Inhabited

/-- Two neighbouring rows of a table are the source's pair: 83 300 Hz, then (100 000, 1, 2) (R44). -/
def hasSourceRows : List BwRow → Bool
  | a :: b :: rest => (a.hz == 83300 && b == ⟨100000, 1, 2⟩) || hasSourceRows (b :: rest)
  | _ => false

/-- `hz` strictly ascending (R44). -/
def ascendingHz : List BwRow → Bool
  | a :: b :: rest => decide (a.hz < b.hz) && ascendingHz (b :: rest)
  | _ => true

/-- BW_TABLE as R5 and R44 constrain it. -/
def bwTableOk (t : List BwRow) : Bool :=
  t.length == 21 && ascendingHz t && hasSourceRows t

/-- INIT_TABLE commands no mode other than STANDBY (code 1) in XR_OPMODE (R46, D20). Which condition drives which
line is the chip's and cannot be read off the pairs. -/
def initTableOk (p : Params) : Bool :=
  p.initTable.all fun w => w.1 != p.xr.opmode || w.2 &&& 7 == 1

/-- The constraints of table P3 that R5 writes down (notes/assumptions/21.md). -/
def Params.wf (p : Params) : Bool :=
  decide p.xr.all.Nodup && decide (p.xr.syncvalue.toNat + 2 < 128) &&
  p.opmodeBase &&& 7 == 0 && p.scratchPatA != p.scratchPatB && initTableOk p && bwTableOk p.bwTable &&
  (List.range 8).any (fun k => p.modereadyMask == BitVec.twoPow 8 k) &&
  decide (p.lnaGainShift ≤ 5) && decide (0 < p.tSafetyMs) &&
  decide (140 ≤ p.bgRssiInit.toNat) && decide (p.bgRssiInit.toNat ≤ 200) &&
  decide (1 ≤ p.maxPayload) && decide (p.maxPayload ≤ 255)

namespace Config

/-! Table P1, fixed by the source, and table P2, decided by the spec. -/

def fxosc : Nat := 32000000
def v1Magic : Byte := 61
def syncA : Byte := 0xAA
def syncB : Byte := 0x2D
def resetLowMs : Nat := 10
def resetWaitMs : Nat := 10
def versionTries : Nat := 10
def versionBackoffMs : Nat := 2
def cmdTimeoutMs : Nat := 100
def bgLo : Nat := 140
def bgHi : Nat := 200
def threshMargin : Nat := 4
def threshAdj : Nat := 4
def marginMax : Nat := 20
def tBgMs : Nat := 11000

/-! Free values: no body, so nothing about them can be proved. The argument is the draw counter of State. -/

/-- The OPEN parameters when no values were supplied (R5: the model takes them as arguments). -/
opaque params : Params

/-- A byte a bus read outside a poll returns when nothing scripted remains (20_memory.md R60, U1). -/
opaque freeByte : Nat → Byte

/-- A read of the version poll, which may be a bus error (42_radio_init_config.md R183, U13). -/
opaque freeAnswer : Nat → BusAnswer

/-- A tick `Now()` returns (60_exceptions.md R299, U10). -/
opaque freeTick : Nat → U32

/-- A whole poll (42_radio_init_config.md R186, R197, U29). -/
opaque freePoll : Nat → PollDraw

end Config

end Sys2Proof
end

