-- ==== Sys2Proof/Syntax.lean ====
section
/-! DEFINITION. The operations of the block as data: one constructor of `Instr` per row of spec/opcode_table.json, the
configuration body of 30_encoding.md R105, and the formats the rows belong to. -/

namespace Sys2Proof

/-- Exception codes (60_exceptions.md R280). -/
inductive Exc
  | chipNotFound
  | busDead
  | timeout
  | txBusy
  | readOversize
  | badArg
  | notReady
  deriving DecidableEq, Repr

/-- What the block answers to a command (30_encoding.md R103, R294): status OK and the result bytes, status NONE and
what follows it (`[consumed = 0]` for VDEC1, nothing otherwise), or an exception with its info value. -/
inductive Response
  | ok (result : List Byte)
  | noResult (tail : List Byte)
  | exc (code : Exc) (info : U16)
  deriving DecidableEq, Repr

/-- Messages from the block to the host (30_encoding.md R107). -/
inductive Notification
  | readable (len : Byte) (ts : U32)
  | writable
  | diag (code : Byte) (value : U16)
  deriving DecidableEq, Repr

/-- A configuration body (30_encoding.md R105): each option is absent or carries its field. -/
structure CfgBody where
  freq : Option U32 := none
  bitrate : Option U32 := none
  fdev : Option U32 := none
  rxbw : Option U32 := none
  afcbw : Option U32 := none
  preamble : Option U16 := none
  sync : Option (List Byte) := none
  pktlen : Option (Bool × Byte) := none
  rxcont : Option Bool := none
  deriving DecidableEq, Repr

/-- The formats of the opcode table's rows: they tell apart rows that share a code. -/
inductive Format
  | hostCommand
  | cfgOption
  | event
  | notification
  | response
  | varintByte
  | packetHeader
  | packetTrailer
  | syncWord
  | byte0
  | fifoFrame
  deriving DecidableEq, Repr

/-- One constructor per row of spec/opcode_table.json. -/
inductive Instr
  /- host commands (R104) -/
  | init (cfg : CfgBody)
  | configure (cfg : CfgBody)
  | write (hasSize : Bool) (size : Byte) (buf : List Byte)
  | read (hasDst : Bool) (cap : Byte)
  | close
  | recv (hasDst : Bool) (cap : Byte) (chk : Bool) (group : Byte)
  | rxrssi
  | rxlna
  | rxafc
  | rxmargin
  | status
  | vdec1 (buf : List Byte)
  | vdecall (buf : List Byte)
  | venc (value : U32)
  | pdec (chk : Bool) (group : Byte) (buf : List Byte)
  | gensync (group : Byte)
  | parchk (group : Byte) (byte0 : Byte)
  /- options of a configuration body (R105) -/
  | cfgFreq (f : U32)
  | cfgBitrate (br : U32)
  | cfgFdev (fd : U32)
  | cfgRxbw (hz : U32)
  | cfgAfcbw (hz : U32)
  | cfgPreamble (p : U16)
  | cfgSync (bytes : List Byte)
  | cfgPktlen (fixed : Bool) (len : Byte)
  | cfgRxcont (flag : Bool)
  | cfgReserved (mask : U16) (fields : List Byte)
  /- events (R106) -/
  | evPreamble
  | evDio0
  | evSafety (h : U16)
  | evBg
  /- notifications (R107) -/
  | nReadable (len : Byte) (ts : U32)
  | nWritable
  | nDiag (code : Byte) (value : U16)
  /- responses (R103) -/
  | rspOk (result : List Byte)
  | rspNone (tail : List Byte)
  | rspExc (code : Exc) (info : U16)
  /- wire formats (R90 to R100) -/
  | varintGroup (g : BitVec 7)
  | varintLast (g : BitVec 7)
  | pktV1Node (parity : BitVec 2) (wantAck unread trailer : Bool) (type : BitVec 7) (rest : List Byte)
  | pktV1Gw (parity : BitVec 2) (wantAck unread trailer : Bool) (type : BitVec 7) (rest : List Byte)
  | pktV2 (parity : BitVec 2) (a1 fromGw a0 : Bool) (unread : BitVec 3) (node : U32) (trailer : Bool)
      (type : BitVec 7) (rest : List Byte)
  | pktTrailer (unread : BitVec 2) (margin : BitVec 6) (fei : Byte)
  | syncword (group : BitVec 6)
  | parity (p q : Bool) (unread : BitVec 6)
  | fifoframe (payload : List Byte)
  deriving DecidableEq, Repr

/-- The format of an instruction's row (the table's "format"). -/
def Instr.format : Instr → Format
  | .init _ | .configure _ | .write _ _ _ | .read _ _ | .close | .recv _ _ _ _ => .hostCommand
  | .rxrssi | .rxlna | .rxafc | .rxmargin | .status => .hostCommand
  | .vdec1 _ | .vdecall _ | .venc _ | .pdec _ _ _ | .gensync _ | .parchk _ _ => .hostCommand
  | .cfgFreq _ | .cfgBitrate _ | .cfgFdev _ | .cfgRxbw _ | .cfgAfcbw _ | .cfgPreamble _ => .cfgOption
  | .cfgSync _ | .cfgPktlen _ _ | .cfgRxcont _ | .cfgReserved _ _ => .cfgOption
  | .evPreamble | .evDio0 | .evSafety _ | .evBg => .event
  | .nReadable _ _ | .nWritable | .nDiag _ _ => .notification
  | .rspOk _ | .rspNone _ | .rspExc _ _ => .response
  | .varintGroup _ | .varintLast _ => .varintByte
  | .pktV1Node _ _ _ _ _ _ | .pktV1Gw _ _ _ _ _ _ | .pktV2 _ _ _ _ _ _ _ _ _ => .packetHeader
  | .pktTrailer _ _ _ => .packetTrailer
  | .syncword _ => .syncWord
  | .parity _ _ _ => .byte0
  | .fifoframe _ => .fifoFrame

end Sys2Proof
end

