-- ==== Sys2Proof/WellFormed.lean ====
section
/-! DEFINITION. Which instruction terms an encoding can carry: buffer lengths that fit their length byte
(10_state.md R34, BUF_MAX = 255), reserved mask bits that are set where the row says so, and packets that are what
their header says. Operand values the block refuses when it runs the operation (a group above 63, a sync count of 4)
are well formed: they have an encoding. -/

namespace Sys2Proof

/-- The largest codec buffer (00_scope.md table P2, BUF_MAX). -/
def bufMax : Nat := 255

/-- A buffer operand fits its length byte (R103). -/
def bufOk (b : List Byte) : Bool := decide (b.length ≤ bufMax)

/-- The only variable field of a configuration body is the sync byte list, whose count is one byte (R105). -/
def CfgBody.wf (c : CfgBody) : Bool :=
  match c.sync with
  | some s => bufOk s
  | none => true

/-- A mask with one of its reserved bits 15:9 set (R105, R109). -/
def reservedMask (m : U16) : Bool := m &&& 0xFE00 != 0

/-- A V2 header whose low six bits and whose node's top byte show the V1 pattern (R93, R110): no decoder reads such a
buffer as V2. -/
def looksLikeV1 (a1 fromGw a0 : Bool) (unread : BitVec 3) (node : U32) : Bool :=
  let low : BitVec 6 := BitVec.ofBool a1 ++ BitVec.ofBool fromGw ++ BitVec.ofBool a0 ++ unread
  let top : BitVec 6 := node.extractLsb' 24 6
  (low == 0 && top == 61) || (low == 61 && top == 0)

/-- Which terms have an encoding, constructor by constructor. -/
def Instr.wf : Instr → Bool
  | .init c | .configure c => c.wf
  | .write _ _ b | .vdec1 b | .vdecall b | .pdec _ _ b => bufOk b
  | .read _ _ | .close | .recv _ _ _ _ => true
  | .rxrssi | .rxlna | .rxafc | .rxmargin | .status => true
  | .venc _ | .gensync _ | .parchk _ _ => true
  | .cfgFreq _ | .cfgBitrate _ | .cfgFdev _ | .cfgRxbw _ | .cfgAfcbw _ | .cfgPreamble _ => true
  | .cfgSync b => bufOk b
  | .cfgPktlen _ _ | .cfgRxcont _ => true
  | .cfgReserved m _ => reservedMask m
  | .evPreamble | .evDio0 | .evSafety _ | .evBg => true
  | .nReadable _ _ | .nWritable | .nDiag _ _ => true
  | .rspOk _ | .rspExc _ _ => true
  | .rspNone t => t == [] || t == [0]
  | .varintGroup _ | .varintLast _ => true
  | .pktV1Node _ _ _ _ _ rest | .pktV1Gw _ _ _ _ _ rest => decide (rest.length + 3 ≤ bufMax)
  | .pktV2 _ a1 g a0 u node _ _ rest => decide (rest.length + 6 ≤ bufMax) && !looksLikeV1 a1 g a0 u node
  | .pktTrailer _ _ _ | .syncword _ | .parity _ _ _ => true
  | .fifoframe b => bufOk b

end Sys2Proof
end

