-- ==== Sys2Proof/Decode.lean ====
section
/-! DEFINITION. Byte order, the decoder and the encoder (30_encoding.md). A frame comes with its format (the port it
arrives on); `decode` is total and rejects by name; `encode` writes the bytes of a well-formed instruction from the same
tables. `decodeTableWord` reads a bare word of spec/opcode_table.json. -/

namespace Sys2Proof

/-! ### Byte order: most significant byte first (20_memory.md R66) -/

def u16 (hi lo : Byte) : U16 := hi ++ lo
def u32 (a b c d : Byte) : U32 := a ++ b ++ c ++ d

/-- Bits 8k+7 down to 8k of a value. -/
def byteOf {w : Nat} (v : BitVec w) (k : Nat) : Byte := v.extractLsb' (8 * k) 8

def bytes16 (v : U16) : List Byte := [byteOf v 1, byteOf v 0]
def bytes32 (v : U32) : List Byte := [byteOf v 3, byteOf v 2, byteOf v 1, byteOf v 0]

/-- A flag byte on a frame (R109: 0 or 1 only). -/
def flagByte (b : Bool) : Byte := if b then 1 else 0

/-- A buffer operand (R103): its length, then its bytes. -/
def bufferBytes (b : List Byte) : List Byte := BitVec.ofNat 8 b.length :: b

/-! ### Refusing a frame by name -/

/-- Why a frame does not decode (R109 and, for wire formats, R93 to R100). -/
inductive DecodeError
  /-- The frame holds no byte. -/
  | emptyFrame
  /-- The first byte is no code of the format. -/
  | unknownCode
  /-- The frame is shorter or longer than its format, or a buffer's count differs from the bytes supplied. -/
  | wrongLength
  /-- A flag byte is neither 0 nor 1. -/
  | badFlag
  /-- A configuration mask has one of bits 15:9 set. -/
  | reservedMaskBit
  /-- A lone option frame names no option or several. -/
  | notOneOption
  /-- A response carries no code of R280. -/
  | unknownException
  /-- The bytes are no sync word (R99). -/
  | notASyncWord
  deriving DecidableEq, Repr

abbrev Dec (α : Type) := Except DecodeError α

/-- R109: a flag byte is 0 or 1. -/
def flagOf (b : Byte) : Dec Bool :=
  if b = 0 then .ok false else if b = 1 then .ok true else .error .badFlag

/-- R103, R109: `[n] ++ bytes` with `n` the number of bytes supplied. -/
def bufferOf : List Byte → Dec (List Byte)
  | [] => .error .wrongLength
  | n :: bs => if n.toNat = bs.length then .ok bs else .error .wrongLength

/-- Nothing may follow (R109). -/
def noMore {α : Type} (a : α) : List Byte → Dec α
  | [] => .ok a
  | _ :: _ => .error .wrongLength

/-! ### Configuration bodies (R105) -/

def takeU32 : List Byte → Dec (U32 × List Byte)
  | a :: b :: c :: d :: r => .ok (u32 a b c d, r)
  | _ => .error .wrongLength

def takeU16 : List Byte → Dec (U16 × List Byte)
  | a :: b :: r => .ok (u16 a b, r)
  | _ => .error .wrongLength

/-- `[count]` then `count` bytes. -/
def takeCounted : List Byte → Dec (List Byte × List Byte)
  | [] => .error .wrongLength
  | n :: r => if n.toNat ≤ r.length then .ok (r.take n.toNat, r.drop n.toNat) else .error .wrongLength

/-- `[fixed][len]`. -/
def takePktlen : List Byte → Dec ((Bool × Byte) × List Byte)
  | f :: l :: r => (flagOf f).map fun f => ((f, l), r)
  | _ => .error .wrongLength

def takeFlag : List Byte → Dec (Bool × List Byte)
  | f :: r => (flagOf f).map fun f => (f, r)
  | [] => .error .wrongLength

/-- The field of an option whose mask bit is set; nothing where it is clear. -/
def optField {α : Type} (present : Bool) (take : List Byte → Dec (α × List Byte)) (bs : List Byte) :
    Dec (Option α × List Byte) :=
  if present then (take bs).map fun x => (some x.1, x.2) else .ok (none, bs)

/-- The fields of the set mask bits, in ascending bit order, and nothing after them (R105). -/
def cfgFieldsOf (mask : U16) (bs : List Byte) : Dec CfgBody := do
  let (freq, bs) ← optField (mask.getLsbD 0) takeU32 bs
  let (bitrate, bs) ← optField (mask.getLsbD 1) takeU32 bs
  let (fdev, bs) ← optField (mask.getLsbD 2) takeU32 bs
  let (rxbw, bs) ← optField (mask.getLsbD 3) takeU32 bs
  let (afcbw, bs) ← optField (mask.getLsbD 4) takeU32 bs
  let (preamble, bs) ← optField (mask.getLsbD 5) takeU16 bs
  let (sync, bs) ← optField (mask.getLsbD 6) takeCounted bs
  let (pktlen, bs) ← optField (mask.getLsbD 7) takePktlen bs
  let (rxcont, bs) ← optField (mask.getLsbD 8) takeFlag bs
  noMore { freq, bitrate, fdev, rxbw, afcbw, preamble, sync, pktlen, rxcont } bs

/-- `[mask_hi][mask_lo]` with bits 15:9 clear, then the fields (R105, R109). -/
def cfgBodyOf : List Byte → Dec CfgBody
  | hi :: lo :: bs =>
    if u16 hi lo &&& 0xFE00 = 0 then cfgFieldsOf (u16 hi lo) bs else .error .reservedMaskBit
  | _ => .error .wrongLength

/-- The mask of a body: bit k is set when option k is present. -/
def cfgMask (c : CfgBody) : U16 :=
  BitVec.ofBool c.rxcont.isSome ++ BitVec.ofBool c.pktlen.isSome ++ BitVec.ofBool c.sync.isSome ++
  BitVec.ofBool c.preamble.isSome ++ BitVec.ofBool c.afcbw.isSome ++ BitVec.ofBool c.rxbw.isSome ++
  BitVec.ofBool c.fdev.isSome ++ BitVec.ofBool c.bitrate.isSome ++ BitVec.ofBool c.freq.isSome |>.zeroExtend 16

/-- The bytes of one option's field, none where it is absent. -/
def fieldBytes {α : Type} (f : α → List Byte) : Option α → List Byte
  | some a => f a
  | none => []

/-- A configuration body as bytes (R105). -/
def cfgBytes (c : CfgBody) : List Byte :=
  bytes16 (cfgMask c) ++ fieldBytes bytes32 c.freq ++ fieldBytes bytes32 c.bitrate ++ fieldBytes bytes32 c.fdev ++
  fieldBytes bytes32 c.rxbw ++ fieldBytes bytes32 c.afcbw ++ fieldBytes bytes16 c.preamble ++
  fieldBytes bufferBytes c.sync ++ fieldBytes (fun x => [flagByte x.1, x.2]) c.pktlen ++
  fieldBytes (fun x => [flagByte x]) c.rxcont

/-! ### Host commands (R103, R104) -/

/-- The operands after a host opcode. -/
def hostOf (op : Byte) (bs : List Byte) : Dec Instr :=
  match op.toNat with
  | 0x01 => (cfgBodyOf bs).map .init
  | 0x02 => (cfgBodyOf bs).map .configure
  | 0x03 =>
    match bs with
    | h :: size :: b => do
      let h ← flagOf h
      let b ← bufferOf b
      .ok (.write h size b)
    | _ => .error .wrongLength
  | 0x04 =>
    match bs with
    | [h, cap] => do
      let h ← flagOf h
      .ok (.read h cap)
    | _ => .error .wrongLength
  | 0x05 => noMore .close bs
  | 0x06 =>
    match bs with
    | [h, cap, c, group] => do
      let h ← flagOf h
      let c ← flagOf c
      .ok (.recv h cap c group)
    | _ => .error .wrongLength
  | 0x10 => noMore .rxrssi bs
  | 0x11 => noMore .rxlna bs
  | 0x12 => noMore .rxafc bs
  | 0x13 => noMore .rxmargin bs
  | 0x14 => noMore .status bs
  | 0x20 => (bufferOf bs).map .vdec1
  | 0x21 => (bufferOf bs).map .vdecall
  | 0x22 =>
    match bs with
    | [a, b, c, d] => .ok (.venc (u32 a b c d))
    | _ => .error .wrongLength
  | 0x28 =>
    match bs with
    | c :: group :: b => do
      let c ← flagOf c
      let b ← bufferOf b
      .ok (.pdec c group b)
    | _ => .error .wrongLength
  | 0x29 =>
    match bs with
    | [group] => .ok (.gensync group)
    | _ => .error .wrongLength
  | 0x2A =>
    match bs with
    | [group, byte0] => .ok (.parchk group byte0)
    | _ => .error .wrongLength
  | _ => .error .unknownCode

/-! ### Options given alone (log 13) -/

/-- The row of a body that holds exactly one option. -/
def onlyOption : CfgBody → Dec Instr
  | ⟨some f, none, none, none, none, none, none, none, none⟩ => .ok (.cfgFreq f)
  | ⟨none, some b, none, none, none, none, none, none, none⟩ => .ok (.cfgBitrate b)
  | ⟨none, none, some f, none, none, none, none, none, none⟩ => .ok (.cfgFdev f)
  | ⟨none, none, none, some h, none, none, none, none, none⟩ => .ok (.cfgRxbw h)
  | ⟨none, none, none, none, some h, none, none, none, none⟩ => .ok (.cfgAfcbw h)
  | ⟨none, none, none, none, none, some p, none, none, none⟩ => .ok (.cfgPreamble p)
  | ⟨none, none, none, none, none, none, some s, none, none⟩ => .ok (.cfgSync s)
  | ⟨none, none, none, none, none, none, none, some x, none⟩ => .ok (.cfgPktlen x.1 x.2)
  | ⟨none, none, none, none, none, none, none, none, some f⟩ => .ok (.cfgRxcont f)
  | _ => .error .notOneOption

/-- A body given as an option row: reserved bits make it the reserved row (R109). -/
def optionOf : List Byte → Dec Instr
  | hi :: lo :: bs =>
    if u16 hi lo &&& 0xFE00 = 0 then do
      let c ← cfgFieldsOf (u16 hi lo) bs
      onlyOption c
    else .ok (.cfgReserved (u16 hi lo) bs)
  | _ => .error .wrongLength

/-! ### Events, notifications and responses (R103, R106, R107) -/

def eventOf (code : Byte) (bs : List Byte) : Dec Instr :=
  match code.toNat with
  | 0x80 => noMore .evPreamble bs
  | 0x81 => noMore .evDio0 bs
  | 0x82 =>
    match bs with
    | [a, b] => .ok (.evSafety (u16 a b))
    | _ => .error .wrongLength
  | 0x83 => noMore .evBg bs
  | _ => .error .unknownCode

def notificationOf (code : Byte) (bs : List Byte) : Dec Instr :=
  match code.toNat with
  | 0xC0 =>
    match bs with
    | [len, a, b, c, d] => .ok (.nReadable len (u32 a b c d))
    | _ => .error .wrongLength
  | 0xC1 => noMore .nWritable bs
  | 0xC2 =>
    match bs with
    | [k, a, b] => .ok (.nDiag k (u16 a b))
    | _ => .error .wrongLength
  | _ => .error .unknownCode

/-- The number of an exception (60_exceptions.md R280). -/
def excCode : Exc → Byte
  | .chipNotFound => 1
  | .busDead => 2
  | .timeout => 3
  | .txBusy => 4
  | .readOversize => 5
  | .badArg => 6
  | .notReady => 7

def excOf (c : Byte) : Dec Exc :=
  match c.toNat with
  | 1 => .ok .chipNotFound
  | 2 => .ok .busDead
  | 3 => .ok .timeout
  | 4 => .ok .txBusy
  | 5 => .ok .readOversize
  | 6 => .ok .badArg
  | 7 => .ok .notReady
  | _ => .error .unknownException

def responseOf (status : Byte) (bs : List Byte) : Dec Instr :=
  if status = 0 then .ok (.rspOk bs)
  else if status = 1 then
    if bs = [] ∨ bs = [0] then .ok (.rspNone bs) else .error .wrongLength
  else if status.getLsbD 7 then
    match bs with
    | [a, b] => do
      let e ← excOf (status &&& 0x7F)
      .ok (.rspExc e (u16 a b))
    | _ => .error .wrongLength
  else .error .unknownCode

/-! ### Wire formats (R90 to R100) -/

/-- The V1 pattern on the first two bytes of a packet (R93, R151). -/
def isV1 (b0 b1 : Byte) : Bool :=
  let a := b0 &&& 0x3F
  let b := b1 &&& 0x3F
  (a == 0 && b == Config.v1Magic) || (a == Config.v1Magic && b == 0)

/-- A packet by its header (R93, R94, R95). A V2 header needs 6 bytes, any packet at most 255. -/
def packetOf (bs : List Byte) : Dec Instr :=
  if 255 < bs.length then .error .wrongLength
  else
    match bs with
    | b0 :: b1 :: b2 :: rest =>
      if isV1 b0 b1 then
        let p := b0.extractLsb' 6 2
        let w := b1.getLsbD 7
        let u := b1.getLsbD 6
        let i := b2.getLsbD 7
        let t := b2.extractLsb' 0 7
        if b0 &&& 0x3F = 0 then .ok (.pktV1Node p w u i t rest) else .ok (.pktV1Gw p w u i t rest)
      else
        match rest with
        | b3 :: b4 :: b5 :: rest =>
          .ok (.pktV2 (b0.extractLsb' 6 2) (b0.getLsbD 5) (b0.getLsbD 4) (b0.getLsbD 3) (b0.extractLsb' 0 3)
            (u32 b1 b2 b3 b4) (b5.getLsbD 7) (b5.extractLsb' 0 7) rest)
        | _ => .error .wrongLength
    | _ => .error .wrongLength

/-- Three bytes `[0xAA, 0x2D, group]` with group at most 63 (R99). -/
def syncWordOf (a b g : Byte) : Dec Instr :=
  if a = Config.syncA ∧ b = Config.syncB ∧ g &&& 0xC0 = 0 then .ok (.syncword (g.extractLsb' 0 6))
  else .error .notASyncWord

/-- The instruction a frame of a format stands for. -/
def decode (f : Format) (frame : List Byte) : Dec Instr :=
  match f, frame with
  | .packetHeader, bs => packetOf bs
  | .fifoFrame, bs => (bufferOf bs).map .fifoframe
  | .cfgOption, bs => optionOf bs
  | _, [] => .error .emptyFrame
  | .hostCommand, op :: bs => hostOf op bs
  | .event, code :: bs => eventOf code bs
  | .notification, code :: bs => notificationOf code bs
  | .response, st :: bs => responseOf st bs
  | .varintByte, [b] => .ok (if b.getLsbD 7 then .varintLast (b.extractLsb' 0 7) else .varintGroup (b.extractLsb' 0 7))
  | .packetTrailer, [a, b] => .ok (.pktTrailer (a.extractLsb' 6 2) (a.extractLsb' 0 6) b)
  | .syncWord, [a, b, g] => syncWordOf a b g
  | .byte0, [b] => .ok (.parity (b.getLsbD 7) (b.getLsbD 6) (b.extractLsb' 0 6))
  | _, _ => .error .wrongLength

/-! ### The encoder -/

/-- The opcode of each host command (R104). -/
def opInit : Byte := 0x01
def opConfigure : Byte := 0x02
def opWrite : Byte := 0x03
def opRead : Byte := 0x04
def opClose : Byte := 0x05
def opRecv : Byte := 0x06
def opRxrssi : Byte := 0x10
def opRxlna : Byte := 0x11
def opRxafc : Byte := 0x12
def opRxmargin : Byte := 0x13
def opStatus : Byte := 0x14
def opVdec1 : Byte := 0x20
def opVdecall : Byte := 0x21
def opVenc : Byte := 0x22
def opPdec : Byte := 0x28
def opGensync : Byte := 0x29
def opParchk : Byte := 0x2A

/-- A notification on the wire to the host (R107). -/
def notificationBytes : Notification → List Byte
  | .readable len ts => 0xC0 :: len :: bytes32 ts
  | .writable => [0xC1]
  | .diag code value => 0xC2 :: code :: bytes16 value

/-- A response on the wire to the host (R103, R284). -/
def responseBytes : Response → List Byte
  | .ok result => 0x00 :: result
  | .noResult tail => 0x01 :: tail
  | .exc e info => (0x80 ||| excCode e) :: bytes16 info

/-- The first three bytes of a V1 packet (R94); `h0` and `h1` are 0 and 61 or 61 and 0. -/
def v1Header (h0 h1 : BitVec 6) (p : BitVec 2) (w u i : Bool) (t : BitVec 7) : List Byte :=
  [p ++ h0, BitVec.ofBool w ++ BitVec.ofBool u ++ h1, BitVec.ofBool i ++ t]

/-- The bytes of an instruction, from the tables of R90 to R107. -/
def encode : Instr → List Byte
  | .init c => opInit :: cfgBytes c
  | .configure c => opConfigure :: cfgBytes c
  | .write h size b => opWrite :: flagByte h :: size :: bufferBytes b
  | .read h cap => [opRead, flagByte h, cap]
  | .close => [opClose]
  | .recv h cap c group => [opRecv, flagByte h, cap, flagByte c, group]
  | .rxrssi => [opRxrssi]
  | .rxlna => [opRxlna]
  | .rxafc => [opRxafc]
  | .rxmargin => [opRxmargin]
  | .status => [opStatus]
  | .vdec1 b => opVdec1 :: bufferBytes b
  | .vdecall b => opVdecall :: bufferBytes b
  | .venc v => opVenc :: bytes32 v
  | .pdec c group b => opPdec :: flagByte c :: group :: bufferBytes b
  | .gensync group => [opGensync, group]
  | .parchk group byte0 => [opParchk, group, byte0]
  | .cfgFreq f => cfgBytes { freq := some f }
  | .cfgBitrate b => cfgBytes { bitrate := some b }
  | .cfgFdev f => cfgBytes { fdev := some f }
  | .cfgRxbw h => cfgBytes { rxbw := some h }
  | .cfgAfcbw h => cfgBytes { afcbw := some h }
  | .cfgPreamble p => cfgBytes { preamble := some p }
  | .cfgSync s => cfgBytes { sync := some s }
  | .cfgPktlen f l => cfgBytes { pktlen := some (f, l) }
  | .cfgRxcont f => cfgBytes { rxcont := some f }
  | .cfgReserved mask fields => bytes16 mask ++ fields
  | .evPreamble => [0x80]
  | .evDio0 => [0x81]
  | .evSafety h => 0x82 :: bytes16 h
  | .evBg => [0x83]
  | .nReadable len ts => notificationBytes (.readable len ts)
  | .nWritable => notificationBytes .writable
  | .nDiag code value => notificationBytes (.diag code value)
  | .rspOk result => responseBytes (.ok result)
  | .rspNone tail => responseBytes (.noResult tail)
  | .rspExc e info => responseBytes (.exc e info)
  | .varintGroup g => [BitVec.ofBool false ++ g]
  | .varintLast g => [BitVec.ofBool true ++ g]
  | .pktV1Node p w u i t rest => v1Header 0 61 p w u i t ++ rest
  | .pktV1Gw p w u i t rest => v1Header 61 0 p w u i t ++ rest
  | .pktV2 p a1 g a0 u node i t rest =>
    (p ++ BitVec.ofBool a1 ++ BitVec.ofBool g ++ BitVec.ofBool a0 ++ u : BitVec (2 + 1 + 1 + 1 + 3)) ::
      bytes32 node ++ (BitVec.ofBool i ++ t : BitVec (1 + 7)) :: rest
  | .pktTrailer u m f => [u ++ m, f]
  | .syncword g => [Config.syncA, Config.syncB, (0 : BitVec 2) ++ g]
  | .parity p q u => [BitVec.ofBool p ++ BitVec.ofBool q ++ u]
  | .fifoframe b => bufferBytes b

/-! ### Bare words of the opcode table (log 12) -/

/-- How many zero operand bytes complete a host command (R104). -/
def hostZeros (op : Byte) : Nat :=
  match op.toNat with
  | 0x01 | 0x02 | 0x04 | 0x2A => 2
  | 0x03 | 0x28 => 3
  | 0x06 | 0x22 => 4
  | 0x20 | 0x21 | 0x29 => 1
  | _ => 0

/-- How many zero bytes complete an event, a notification or a response. -/
def otherZeros (b : Byte) : Nat :=
  match b.toNat with
  | 0x82 => 2
  | 0xC0 => 5
  | 0xC2 => 3
  | 0x81 | 0x83 | 0x84 | 0x85 | 0x86 | 0x87 => 2
  | _ => 0

/-- How many zero bytes complete a lone option (R105). -/
def optionZeros (mask : Nat) : Nat :=
  match mask with
  | 0x01 | 0x02 | 0x04 | 0x08 | 0x10 => 4
  | 0x20 | 0x80 => 2
  | 0x40 | 0x100 => 1
  | _ => 0

/-- The first candidate frame that its format decodes. -/
def firstDecoding : List (Format × List Byte) → Option (Format × List Byte)
  | [] => none
  | x :: xs =>
    match decode x.1 x.2 with
    | .ok _ => some x
    | .error _ => firstDecoding xs

/-- The frames a table word of `nbits` bits can be, every operand byte above it zero, in the order they are tried: one
byte: host command, event, notification, response, varint byte; two: a lone option's mask, a packet trailer; three: a
sync word (one 24-bit number), a packet header (the 16-bit number buf[0] << 8 | buf[1], then buf[2]); six: a packet
header (three 16-bit numbers). -/
def tableFrames (nbits w : Nat) : List (Format × List Byte) :=
  let b : Nat → Byte := fun k => BitVec.ofNat 8 (w / 2 ^ (8 * k))
  match nbits with
  | 8 =>
    [(.hostCommand, b 0 :: List.replicate (hostZeros (b 0)) 0),
     (.event, b 0 :: List.replicate (if b 0 = 0x82 then 2 else 0) 0),
     (.notification, b 0 :: List.replicate (otherZeros (b 0)) 0),
     (.response, b 0 :: List.replicate (otherZeros (b 0)) 0),
     (.varintByte, [b 0])]
  | 16 =>
    [(.cfgOption, b 1 :: b 0 :: List.replicate (optionZeros (w % 65536)) 0),
     (.packetTrailer, [b 1, b 0])]
  | 24 =>
    [(.syncWord, [b 2, b 1, b 0]),
     (.packetHeader, [b 1, b 0, b 2]),
     (.packetHeader, [b 1, b 0, b 2, 0, 0, 0])]
  | 48 => [(.packetHeader, [b 1, b 0, b 3, b 2, b 5, b 4])]
  | _ => []

/-- The frame of a table word, where one of its formats decodes it. -/
def tableFrame (nbits w : Nat) : Option (Format × List Byte) := firstDecoding (tableFrames nbits w)

/-- The instruction the decoder reads from a table word. -/
def decodeTableWord (nbits w : Nat) : Option Instr :=
  match tableFrame nbits w with
  | some x =>
    match decode x.1 x.2 with
    | .ok i => some i
    | .error _ => none
  | none => none

end Sys2Proof
end

