-- ==== Sys2Proof/Machine/State.lean ====
section
/-! DEFINITION. The state of the block, group by group as 10_state.md R20 names them, with the outputs and the environment's
pending inputs beside them; the reasons a step can stop; the state right after reset (10_state.md R48). -/

namespace Sys2Proof.Machine

/-- LIFE (10_state.md R22). -/
inductive Life
  | uninit
  | ready
  | failed
  | closed
  deriving DecidableEq, Repr

/-- MODE (10_state.md R23): the six operating modes; codes 6 and 7 are never written. -/
inductive Mode
  | sleep
  | standby
  | fstx
  | transmit
  | fsrx
  | receive
  deriving DecidableEq, Repr

/-- Control state (R22 to R25). -/
structure Ctl where
  life : Life
  mode : Mode
  txbusy : Bool
  rxPend : Bool
  rxLen : Byte
  rxTs : U32
  deriving DecidableEq, Repr

/-- Receive metadata (R26): RX_META_V, RX_RSSI, RX_THRESH, RX_LNA, RX_AFC. -/
structure RxMeta where
  valid : Bool
  rssi : Byte
  thresh : Byte
  lna : Byte
  afc : U16
  deriving DecidableEq, Repr

/-- Tracker state (R27, R28). -/
structure Tracker where
  bgRssi : BitVec 12
  lastAfc : U16
  lastAfcV : Bool
  deriving DecidableEq, Repr

/-- Safety timer, background timer and interrupt enables (R29, R30). -/
structure Timers where
  safetyArmed : Bool
  safetyHandle : U16
  safetySeq : U16
  bgArmed : Bool
  dioEn : Bool
  deriving DecidableEq, Repr

/-- Configuration registers and their valid bits (R31, R32). -/
structure CfgRegs where
  freqV : Bool
  freq : U32
  frf : BitVec 24
  bitrateV : Bool
  bitrate : U32
  brreg : U16
  fdevV : Bool
  fdev : U32
  fdevreg : BitVec 14
  rxbwV : Bool
  rxbw : BitVec 5
  afcbwV : Bool
  afcbw : BitVec 5
  preambleV : Bool
  preamble : U16
  syncV : Bool
  synclen : BitVec 2
  sync : Vector Byte 3
  pktlenV : Bool
  fixed : Bool
  fixlen : Byte
  rxcontV : Bool
  rxcont : Bool
  deriving DecidableEq, Repr

/-- PK, the decoded packet record (R35). PK_NDATA is the length of `data`. -/
structure Packet where
  ver : Bool
  isAck : Bool
  fromGw : Bool
  wantAck : Bool
  type : BitVec 7
  nodeV : Bool
  node : U32
  payOff : Byte
  payLen : Byte
  dataOff : Byte
  data : List U32
  trlV : Bool
  rmargin : BitVec 6
  rfei : U32
  lqV : Bool
  rssi : U16
  margin : Byte
  fei : U32
  deriving DecidableEq, Repr

/-- A packet record with every field 0 (41_packet_codec.md R150). -/
def Packet.zero : Packet :=
  { ver := false, isAck := false, fromGw := false, wantAck := false, type := 0, nodeV := false, node := 0, payOff := 0,
    payLen := 0, dataOff := 0, data := [], trlV := false, rmargin := 0, rfei := 0, lqV := false, rssi := 0, margin := 0,
    fei := 0 }

/-- SY, the sync result (R36). -/
structure SyncRes where
  s0 : Byte
  s1 : Byte
  s2 : Byte
  parity : Byte
  deriving DecidableEq, Repr

/-- Codec datapath (R33 to R36). `vdone` and `vval` are the model's own (log 16): whether the next varint byte
starts a value, and the last value delivered. -/
structure Codec where
  vacc : U32
  vcnt : BitVec 9
  vdone : Bool
  vval : U32
  buf : List Byte
  pk : Packet
  sy : SyncRes
  deriving DecidableEq, Repr

/-- What the block does to the outside, in order (20_memory.md R71): bus transactions with the answers they got, pin
writes, waits, timer requests, notifications, and the responses to commands. -/
inductive Action
  | xread (a : Addr) (r : BusAnswer)
  | xwrite (a : Addr) (v : Byte)
  | burstRead (a : Addr) (bytes : List Byte)
  | burstWrite (a : Addr) (bytes : List Byte)
  | pinReset (level : Bool)
  | wait (ms : Nat)
  | armOneShot (ms : Nat) (h : U16)
  | armPeriodic (ms : Nat)
  | cancelSafety (h : U16)
  | cancelBackground
  | notify (n : Notification)
  | respond (r : Response)
  deriving DecidableEq, Repr

/-- Outputs: the level of the RESET line (70_reset_and_hazards.md R310), XBUF (10_state.md R37, log 15) and the event
history (log 17), oldest first. -/
structure Io where
  resetLine : Bool
  xbufAddr : Addr
  xbufData : Byte
  trace : List Action
  deriving DecidableEq, Repr

/-- The registers of a transceiver: (address, byte) pairs, addresses strictly rising, none equal to what an unlisted
address reads as (0). -/
abbrev Memory := List Host.Cell

/-- The reference transceiver RefX (20_memory.md R76): a test harness, not part of the block. -/
structure RefX where
  regs : Memory
  fifo : List Byte
  script : List (Addr × Byte)
  deriving DecidableEq, Repr

/-- What the environment will answer (log 2): scripted bus answers, ticks and polls, first one next; the counter of the
free values used once a script has run out; and RefX when it is attached. -/
structure Env where
  answers : List BusAnswer
  ticks : List U32
  polls : List PollDraw
  draws : Nat
  refx : Option RefX
  deriving DecidableEq, Repr

/-- What the outside hands the block between two operations: a frame on the port of its format, or an assertion of the
block reset input (70_reset_and_hazards.md R310). -/
inductive Item
  | frame (f : Format) (bytes : List Byte)
  | blockReset
  deriving DecidableEq, Repr

/-- The state: the block's registers, its outputs, and the environment's inputs that are still to come. -/
structure State where
  ctl : Ctl
  rx : RxMeta
  trk : Tracker
  tmr : Timers
  cfg : CfgRegs
  codec : Codec
  io : Io
  env : Env
  inbox : List Item
  /-- The OPEN parameters when they are supplied (00_scope.md R5); `none`: the free ones of Config (log 3). -/
  params : Option Params
  deriving DecidableEq, Repr

/-- Why a run is outside the spec. -/
inductive Fault
  /-- A bus transaction failed outside the three poll loops. Raised by `xread` and `xburstRead` when the environment's
  script says so (00_scope.md R10, 93_implementation_defined.md U12: treatment `fault`). Safe: the spec gives such a run no
  meaning. -/
  | busFailure
  /-- INIT reached an INIT_TABLE that commands a mode other than STANDBY (10_state.md R46, 93_implementation_defined.md U24:
  treatment `fault`). Raised by INIT. Safe: the parameter is outside the spec. -/
  | initTableOutsideSpec
  deriving DecidableEq, Repr

/-- Why an item has no meaning. -/
inductive Refusal
  /-- An instruction whose arm has no meaning yet. Raised by `exec` only. Safe: nothing is claimed of it. -/
  | notModelled (mnemonic : String)
  /-- A frame that is no host command does not decode (log 19). Raised by `step`. Safe: no port of the spec delivers
  such a frame. -/
  | undecodable (f : Format) (e : DecodeError)
  deriving DecidableEq, Repr

/-- The parameters in force. -/
def State.p (s : State) : Params := s.params.getD Config.params

/-! ### Named updates -/

/-- Append to the event history. -/
def State.emit (s : State) (a : Action) : State := { s with io := { s.io with trace := s.io.trace ++ [a] } }

/-- Replace what the environment has still to answer. -/
def State.withEnv (s : State) (e : Env) : State := { s with env := e }

/-- XBUF after a single-register transaction (10_state.md R37). -/
def State.setXbuf (s : State) (a : Addr) (v : Byte) : State :=
  { s with io := { s.io with xbufAddr := a, xbufData := v } }

/-- MODE <- m, the shadow only. -/
def State.setMode (s : State) (m : Mode) : State := { s with ctl := { s.ctl with mode := m } }

/-! ### Reset (10_state.md R48, 70_reset_and_hazards.md R310). Where R48 says "unspecified": 0 (log 4). -/

def Ctl.reset : Ctl :=
  { life := .uninit, mode := .sleep, txbusy := false, rxPend := false, rxLen := 0, rxTs := 0 }

def RxMeta.reset : RxMeta := { valid := false, rssi := 0, thresh := 0, lna := 0, afc := 0 }

def Tracker.reset : Tracker := { bgRssi := 0, lastAfc := 0, lastAfcV := false }

def Timers.reset : Timers :=
  { safetyArmed := false, safetyHandle := 0, safetySeq := 0, bgArmed := false, dioEn := false }

def CfgRegs.reset : CfgRegs :=
  { freqV := false, freq := 0, frf := 0, bitrateV := false, bitrate := 0, brreg := 0, fdevV := false, fdev := 0,
    fdevreg := 0, rxbwV := false, rxbw := 0, afcbwV := false, afcbw := 0, preambleV := false, preamble := 0,
    syncV := false, synclen := 0, sync := #v[0, 0, 0], pktlenV := false, fixed := false, fixlen := 0, rxcontV := false,
    rxcont := false }

def Codec.reset : Codec :=
  { vacc := 0, vcnt := 0, vdone := true, vval := 0, buf := [], pk := Packet.zero,
    sy := { s0 := 0, s1 := 0, s2 := 0, parity := 0 } }

def Io.reset : Io := { resetLine := true, xbufAddr := 0, xbufData := 0, trace := [] }

/-- Nothing scripted, no reference transceiver: every answer is a free value. -/
def Env.reset : Env := { answers := [], ticks := [], polls := [], draws := 0, refx := none }

def State.reset : State :=
  { ctl := .reset, rx := .reset, trk := .reset, tmr := .reset, cfg := .reset, codec := .reset, io := .reset,
    env := .reset, inbox := [], params := none }

end Sys2Proof.Machine
end

