-- ==== Sys2Proof/Machine/Memory.lean ====
section
/-! DEFINITION. The register memory of the reference transceiver (20_memory.md R76) in its canonical form: every address of
the 7-bit space reads, an unlisted one as 0 (log 22). -/

namespace Sys2Proof.Machine

/-- What an unlisted register reads as. -/
def memDefault : Byte := 0

/-- The byte at an address. -/
def memRead : Memory → Nat → Byte
  | [], _ => memDefault
  | (b, w) :: m, a => if b = a then w else memRead m a

/-- Write one byte, keeping the canonical form: writing what an unlisted register reads as removes the entry. -/
def memWrite : Memory → Nat → Byte → Memory
  | [], a, v => if v = memDefault then [] else [(a, v)]
  | (b, w) :: m, a, v =>
    if a < b then (if v = memDefault then (b, w) :: m else (a, v) :: (b, w) :: m)
    else if a = b then (if v = memDefault then m else (a, v) :: m)
    else (b, w) :: memWrite m a v

/-- Every address of a memory is above a bound. -/
def memAbove (k : Nat) (m : Memory) : Bool := m.all fun c => decide (k < c.1)

/-- The canonical form: addresses strictly rising, inside the 7-bit space, no entry equal to the default. -/
def Memory.wf : Memory → Bool
  | [] => true
  | (b, w) :: m => decide (b < 128) && w != memDefault && memAbove b m && Memory.wf m

end Sys2Proof.Machine
end

