-- ==== Sys2Proof/Machine/Ops.lean ====
section
/-! DEFINITION. The primitives of 00_scope.md R9 and the internal primitives of 42_radio_init_config.md over the state: bus
accesses, pins, ticks, timers, notifications; raising an exception; running a command or a handler.

`M` is an operation that cannot raise (every event handler is one: 43_radio_rx_tx.md R220); `R` is one that can. Either
may meet a fault of the run. -/

namespace Sys2Proof.Machine

abbrev M (α : Type) := StateT State (Except Fault) α

/-- An exception in flight: its code and its info value (60_exceptions.md R284). -/
structure Raised where
  code : Exc
  info : U16
  deriving DecidableEq, Repr

abbrev R (α : Type) := ExceptT Raised (StateT State (Except Fault)) α

/-- The state as it is now. -/
def current : M State := fun s => .ok (s, s)

/-- Change the state. -/
def update (f : State → State) : M Unit := fun s => .ok ((), f s)

/-- Append to the event history. -/
def emit (a : Action) : M Unit := update fun s => s.emit a

/-! ### Exceptions (60_exceptions.md R294) -/

/-- `raise E(info)`: the operation ends at this point and keeps the state written so far. No state is saved, no handler is
entered, no mode or mask changes; the response is delivered by `command`. -/
def raise {α : Type} (e : Exc) (info : U16) : R α := ExceptT.mk fun s => .ok (.error ⟨e, info⟩, s)

/-- A check: `raise E(info)` unless it holds. -/
def require (ok : Bool) (e : Exc) (info : U16) : R Unit := if ok then pure () else raise e info

/-- A host command: run it, answer with exactly one response (30_encoding.md R103), that of the exception if it raised one
(R294). There is nothing to return from: no trap-return operation exists. -/
def command (m : R Response) (s : State) : Host.Outcome State Fault Refusal :=
  match m.run s with
  | .ok (.ok r, t) => .next (t.emit (.respond r))
  | .ok (.error e, t) => .next (t.emit (.respond (.exc e.code e.info)))
  | .error f => .fault f

/-- An event handler or an item that is answered by nothing (60_exceptions.md R295). -/
def handler (m : M Unit) (s : State) : Host.Outcome State Fault Refusal :=
  match m s with
  | .ok (_, t) => .next t
  | .error f => .fault f

/-! ### What the environment answers (20_memory.md R60, log 2) -/

/-- The next scripted value of RefX for an address, and the script without it (R76). -/
def takeScript (a : Addr) : List (Addr × Byte) → Option (Byte × List (Addr × Byte))
  | [] => none
  | (b, v) :: rest =>
    if b = a then some (v, rest) else (takeScript a rest).map fun x => (x.1, (b, v) :: x.2)

/-- A read answered by RefX (R76): the FIFO gives its head (a free value where it is empty, U3), another register its next
scripted value or else what it holds. -/
def refxRead (p : Params) (a : Addr) (x : RefX) (e : Env) : BusAnswer × Env :=
  if a = p.xr.fifo then
    match x.fifo with
    | v :: rest => (.byte v, { e with refx := some { x with fifo := rest } })
    | [] => (.byte (Config.freeByte e.draws), { e with draws := e.draws + 1 })
  else
    match takeScript a x.script with
    | some (v, rest) => (.byte v, { e with refx := some { x with script := rest } })
    | none => (.byte (memRead x.regs a.toNat), e)

/-- The answer to one bus read and what the environment has left: RefX if attached, else the script, else a free value
(inside the version poll possibly a bus error, U13; elsewhere a byte, R10). -/
def readAnswer (inPoll : Bool) (p : Params) (a : Addr) (e : Env) : BusAnswer × Env :=
  match e.refx with
  | some x => refxRead p a x e
  | none =>
    match e.answers with
    | r :: rest => (r, { e with answers := rest })
    | [] =>
      (if inPoll then Config.freeAnswer e.draws else .byte (Config.freeByte e.draws), { e with draws := e.draws + 1 })

/-- The effect of a register write on the environment: RefX stores it (R76); otherwise nothing is known of it (R60). -/
def writeEffect (p : Params) (a : Addr) (v : Byte) (e : Env) : Env :=
  match e.refx with
  | none => e
  | some x =>
    if a = p.xr.fifo then { e with refx := some { x with fifo := x.fifo ++ [v] } }
    else { e with refx := some { x with regs := memWrite x.regs a.toNat v } }

/-- `n` reads of one address, in order. -/
def readMany (p : Params) (a : Addr) : Nat → Env → List BusAnswer × Env
  | 0, e => ([], e)
  | n + 1, e =>
    let r := readAnswer false p a e
    let rs := readMany p a n r.2
    (r.1 :: rs.1, rs.2)

/-- The bytes of answers that hold no bus error. -/
def allBytes : List BusAnswer → Option (List Byte)
  | [] => some []
  | .byte v :: rs => (allBytes rs).map (v :: ·)
  | .error :: _ => none

/-- Bytes written one after another to one address. -/
def writeMany (p : Params) (a : Addr) : List Byte → Env → Env
  | [], e => e
  | v :: vs, e => writeMany p a vs (writeEffect p a v e)

/-! ### Bus transactions (00_scope.md R9, 20_memory.md R63) -/

/-- `XRead(a)` outside a poll. -/
def xread (a : Addr) : M Byte := fun s =>
  match readAnswer false s.p a s.env with
  | (.byte v, e) => .ok (v, ((s.withEnv e).setXbuf a v).emit (.xread a (.byte v)))
  | (.error, _) => .error .busFailure

/-- The state after a poll read answered `r`. -/
def afterPollRead (s : State) (a : Addr) (r : BusAnswer) (e : Env) : State :=
  match r with
  | .byte v => ((s.withEnv e).setXbuf a v).emit (.xread a r)
  | .error => (s.withEnv e).emit (.xread a r)

/-- `XRead(a)` in the version poll: a bus error is an answer like another (42_radio_init_config.md R183). -/
def xreadVersion (a : Addr) : M BusAnswer := fun s =>
  let x := readAnswer true s.p a s.env
  .ok (x.1, afterPollRead s a x.1 x.2)

/-- The answer to a read in a timed poll whose draw holds `drawn`; RefX answers instead when it is attached (R76). -/
def turnAnswer (p : Params) (a : Addr) (drawn : BusAnswer) (e : Env) : BusAnswer × Env :=
  match e.refx with
  | none => (drawn, e)
  | some x => refxRead p a x e

/-- `XRead(a)` in a timed poll. -/
def xreadPoll (a : Addr) (drawn : BusAnswer) : M BusAnswer := fun s =>
  let x := turnAnswer s.p a drawn s.env
  .ok (x.1, afterPollRead s a x.1 x.2)

/-- `XWrite(a, v)`. -/
def xwrite (a : Addr) (v : Byte) : M Unit :=
  update fun s => ((s.withEnv (writeEffect s.p a v s.env)).setXbuf a v).emit (.xwrite a v)

/-- `XBurstRead(a, n)`: one bulk transfer of `n` bytes. -/
def xburstRead (a : Addr) (n : Nat) : M (List Byte) := fun s =>
  let x := readMany s.p a n s.env
  match allBytes x.1 with
  | some bs => .ok (bs, (s.withEnv x.2).emit (.burstRead a bs))
  | none => .error .busFailure

/-- `XBurstWrite(a, bytes)`: one bulk transfer. -/
def xburstWrite (a : Addr) (bs : List Byte) : M Unit :=
  update fun s => (s.withEnv (writeMany s.p a bs s.env)).emit (.burstWrite a bs)

/-- Writes in order, one transaction each. -/
def xwriteAll : List (Addr × Byte) → M Unit
  | [] => pure ()
  | (a, v) :: rest => do
    xwrite a v
    xwriteAll rest

/-! ### Pins, ticks, timers, notifications (00_scope.md R9) -/

/-- `PinWrite(RESET, level)`. -/
def pinReset (level : Bool) : M Unit := do
  update fun s => { s with io := { s.io with resetLine := level } }
  emit (.pinReset level)

/-- `Wait(ms)`: its length is the environment's, at least `ms` (U11, log 27). -/
def wait (ms : Nat) : M Unit := emit (.wait ms)

/-- The tick the environment gives next: scripted, else a free value (60_exceptions.md R299). -/
def nextTick (e : Env) : U32 × Env :=
  match e.ticks with
  | t :: rest => (t, { e with ticks := rest })
  | [] => (Config.freeTick e.draws, { e with draws := e.draws + 1 })

/-- `Now()`. -/
def now : M U32 := fun s => .ok ((nextTick s.env).1, s.withEnv (nextTick s.env).2)

/-- `ArmOneShot(ms) -> h` with the handle of 10_state.md R29. -/
def armOneShot (ms : Nat) : M U16 := do
  let s ← current
  let h := s.tmr.safetySeq
  update fun s => { s with tmr := { s.tmr with safetySeq := s.tmr.safetySeq + 1 } }
  emit (.armOneShot ms h)
  pure h

/-- `if SAFETY_ARMED = 1: Cancel(safety timer SAFETY_HANDLE)`; SAFETY_ARMED <- 0. SAFETY_HANDLE keeps its value: DESIGN CHOICE
(log 28). -/
def cancelSafety : M Unit := do
  let s ← current
  if s.tmr.safetyArmed then
    emit (.cancelSafety s.tmr.safetyHandle)
    update fun s => { s with tmr := { s.tmr with safetyArmed := false } }

/-- `Diag(code, value)` (30_encoding.md R107). -/
def diag (code : Byte) (value : U16) : M Unit := emit (.notify (.diag code value))

/-- Diagnostic codes (60_exceptions.md R283). -/
def wRxStuck : Byte := 1
def wAfcStuck : Byte := 2
def wModeDrift : Byte := 3

/-! ### Internal primitives (42_radio_init_config.md R182, R186, R187) -/

/-- Mode codes (10_state.md R23). -/
def modeCode : Mode → Byte
  | .sleep => 0
  | .standby => 1
  | .fstx => 2
  | .transmit => 3
  | .fsrx => 4
  | .receive => 5

/-- SetMode(m) (R182): one whole-byte write, no wait, never skipped. -/
def setMode (m : Mode) : M Unit := do
  let s ← current
  xwrite s.p.xr.opmode (s.p.opmodeBase ||| modeCode m)
  update fun s => s.setMode m

/-- RestartRx (R187). -/
def restartRx : M Unit := do
  let s ← current
  xwrite s.p.xr.rxconfig s.p.restartValue

/-- The poll the environment draws next: scripted, else a free one (D30). -/
def nextPoll (e : Env) : PollDraw × Env :=
  match e.polls with
  | d :: rest => (d, { e with polls := rest })
  | [] => (Config.freePoll e.draws, { e with draws := e.draws + 1 })

/-- Take that poll. -/
def takePoll : M PollDraw := fun s => .ok ((nextPoll s.env).1, s.withEnv (nextPoll s.env).2)

/-- The turns of a timed poll (R186, R197): true when a read is seen done, false when the budget has passed. A bus error
is ignored; a draw that ends with neither stands for a last tick past the budget (log 7). -/
def pollTurns (a : Addr) (done : Byte → Bool) (t0 : U32) (budget : Nat) : List PollRead → M Bool
  | [] => pure false
  | d :: ds => do
    let r ← xreadPoll a d.answer
    match r with
    | .byte v =>
      if done v then pure true
      else if budget ≤ (d.tick - t0).toNat then pure false
      else pollTurns a done t0 budget ds
    | .error => if budget ≤ (d.tick - t0).toNat then pure false else pollTurns a done t0 budget ds

/-- A timed poll of one register. -/
def timedPoll (a : Addr) (done : Byte → Bool) (budget : Nat) : M Bool := do
  let d ← takePoll
  pollTurns a done d.t0 budget (d.first :: d.rest)

/-- WaitModeReady (R186); info 0 (60_exceptions.md R284). -/
def waitModeReady : R Unit := do
  let s ← current
  let ok ← timedPoll s.p.xr.irqflags1 (fun v => v &&& s.p.modereadyMask != 0) Config.cmdTimeoutMs
  require ok .timeout 0

/-! ### Block reset (70_reset_and_hazards.md R310) -/

/-- Every state element of the block takes its reset value; the RESET line is driven 1; what is outside the block (the
environment, the items still to come, the parameters) and the history stay. Timers are not cancelled. -/
def blockReset (s : State) : State :=
  { s with
    ctl := .reset, rx := .reset, trk := .reset, tmr := .reset, cfg := .reset, codec := .reset,
    io := { Io.reset with trace := s.io.trace } }

end Sys2Proof.Machine
end

