-- ==== Sys2Proof/Machine/Operands.lean ====
section
/-! DEFINITION. Operand forms: sizes and capacities of WRITE and READ (43_radio_rx_tx.md R232, R235), groups, and the
conversions of the configuration options (42_radio_init_config.md R190 to R198, R201). Arithmetic is on natural numbers
and narrowed where the rule writes a register. -/

namespace Sys2Proof.Machine

/-- The info value of E_BAD_ARG for a malformed command or a non-option operand (60_exceptions.md R284). -/
def badArgInfo : U16 := 0xFF

/-- A group operand is 0 to 63 (41_packet_codec.md R160, D18). -/
def groupOk (g : Byte) : Bool := decide (g.toNat ≤ 63)

/-- A group that is used only when `chk` is set (R150, R165). -/
def chkGroupOk (chk : Bool) (g : Byte) : Bool := !chk || groupOk g

/-- The size WRITE sends (R235): `size` if given, else the buffer's length. -/
def writeSize (hasSize : Bool) (size : Byte) (buf : List Byte) : Nat := if hasSize then size.toNat else buf.length

/-- The sizes WRITE accepts (R235). -/
def writeSizeOk (maxPayload sz n : Nat) : Bool := decide (0 < sz) && decide (sz ≤ maxPayload) && decide (sz ≤ n)

/-- The pending packet does not fit the destination (R232). -/
def oversize (hasDst : Bool) (cap len : Byte) : Bool := hasDst && decide (cap.toNat < len.toNat)

/-! ### Frequency (R190, R191) -/

/-- Multiply by 10 until at least 100 000 000; at most 8 turns are ever needed (R190). -/
def scaleByTens : Nat → Nat → Nat
  | 0, f => f
  | k + 1, f => if f < 100000000 then scaleByTens k (f * 10) else f

/-- FreqNormalise (R190): none for 0. -/
def freqNormalise (f : Nat) : Option Nat := if f = 0 then none else some (scaleByTens 8 f)

/-- `v / FSTEP` rounded half up, FSTEP = 15625/256 Hz (R191, R193). -/
def hzToSteps (v : Nat) : Nat := (v * 512 + 15625) / 31250

/-- The normalised frequency and its register value, where the value fits 24 bits (R191). -/
def freqRegs (f : Nat) : Option (Nat × Nat) :=
  match freqNormalise f with
  | none => none
  | some f => if hzToSteps f < 2 ^ 24 then some (f, hzToSteps f) else none

/-! ### Bit rate and deviation (R192, R193) -/

/-- FXOSC / br rounded half up, where 0 < br ≤ FXOSC and the result fits 16 bits (R192). -/
def bitrateReg (br : Nat) : Option Nat :=
  if br = 0 ∨ Config.fxosc < br then none
  else
    let reg := (2 * Config.fxosc + br) / (2 * br)
    if reg ≤ 65535 then some reg else none

/-- The deviation register, where it fits 14 bits (R193). -/
def fdevReg (fd : Nat) : Option Nat := if hzToSteps fd ≤ 16383 then some (hzToSteps fd) else none

/-! ### Bandwidth (R194, R195, R201) -/

/-- BwLookup (R201): the first row at or above the request, with its index, counting from `i`. -/
def bwLookupFrom (hz : Nat) : Nat → List BwRow → Option (Nat × BwRow)
  | _, [] => none
  | i, r :: rest => if hz ≤ r.hz then some (i, r) else bwLookupFrom hz (i + 1) rest

def bwLookup (table : List BwRow) (hz : Nat) : Option (Nat × BwRow) := bwLookupFrom hz 0 table

/-- The bandwidth byte: mantissa code in bits 4:3, exponent in bits 2:0 (R194). -/
def bwByte (r : BwRow) : Byte := (r.mant ++ r.exp : BitVec (2 + 3)).zeroExtend 8

/-! ### Sync (R198) -/

/-- A sync count is 1 to 3. -/
def syncCountOk (n : Nat) : Bool := decide (1 ≤ n) && decide (n ≤ 3)

/-- CFG_SYNC[0..n) <- s; entries at or above n keep what they held. -/
def storeSync (old : Vector Byte 3) (s : List Byte) : Vector Byte 3 :=
  #v[s.getD 0 old[0], s.getD 1 old[1], s.getD 2 old[2]]

/-- The writes of sync byte i to XR_SYNCVALUE + i. -/
def syncWrites (base : Addr) : List Byte → List (Addr × Byte)
  | [] => []
  | v :: vs => (base, v) :: syncWrites (base + 1) vs

/-! ### Options of a configuration body, in ascending mask-bit order (30_encoding.md R105, R189) -/

/-- One option with its field. -/
inductive CfgOption
  | freq (f : U32)
  | bitrate (br : U32)
  | fdev (fd : U32)
  | rxbw (hz : U32)
  | afcbw (hz : U32)
  | preamble (p : U16)
  | sync (bytes : List Byte)
  | pktlen (fixed : Bool) (len : Byte)
  | rxcont (flag : Bool)
  deriving DecidableEq, Repr

/-- An optional field as the option it is, or nothing. -/
def optionList {α : Type} (f : α → CfgOption) : Option α → List CfgOption
  | some a => [f a]
  | none => []

/-- The options present, ascending. -/
def cfgOptions (c : CfgBody) : List CfgOption :=
  optionList .freq c.freq ++ optionList .bitrate c.bitrate ++ optionList .fdev c.fdev ++ optionList .rxbw c.rxbw ++
  optionList .afcbw c.afcbw ++ optionList .preamble c.preamble ++ optionList .sync c.sync ++
  optionList (fun x => .pktlen x.1 x.2) c.pktlen ++ optionList .rxcont c.rxcont

end Sys2Proof.Machine
end

