-- ==== Sys2Proof/Machine/Flags.lean ====
section
/-! DEFINITION. Flags and admission: the two flags that read as 0 when never configured (10_state.md R32), the status bytes
(R38), "continuous-RX is expected" (44_rssi_tracker.md R261), admission by lifecycle (60_exceptions.md R287) and what a
malformed command is answered (R285). -/

namespace Sys2Proof.Machine

/-- CFG_RXCONT as operations read it (R32): 0 while its valid bit is 0. -/
def rxContinuous (s : State) : Bool := s.cfg.rxcontV && s.cfg.rxcont

/-- CFG_FIXED as operations read it (R32). -/
def fixedLength (s : State) : Bool := s.cfg.pktlenV && s.cfg.fixed

/-- R261. -/
def continuousExpected (s : State) : Bool := rxContinuous s && !s.ctl.txbusy

/-- LIFE codes (10_state.md R22). -/
def lifeCode : Life → Byte
  | .uninit => 0
  | .ready => 1
  | .failed => 2
  | .closed => 3

/-- A flag at a bit position of a status byte. -/
def flagBit (b : Bool) (k : Nat) : Byte := flagByte b <<< k

/-- Status byte 0 (R38). -/
def status0 (s : State) : Byte :=
  lifeCode s.ctl.life ||| (modeCode s.ctl.mode <<< 2) ||| flagBit s.ctl.txbusy 5 ||| flagBit s.ctl.rxPend 6 |||
    flagBit s.tmr.safetyArmed 7

/-- Status byte 1 (R38). -/
def status1 (s : State) : Byte :=
  flagBit s.tmr.bgArmed 0 ||| flagBit s.tmr.dioEn 1 ||| flagBit s.rx.valid 2 ||| flagBit s.trk.lastAfcV 3 |||
    flagBit (rxContinuous s) 4 ||| flagBit (fixedLength s) 5

/-- How the lifecycle admits a command (R287): INIT, the other radio commands, and those always admitted. -/
inductive CmdClass
  | construct
  | radio
  | always
  deriving DecidableEq, Repr

/-- R287. -/
def admits : CmdClass → Life → Bool
  | .construct, l => l != .ready
  | .radio, l => l == .ready
  | .always, _ => true

/-- The class of a host opcode, none for an unknown one (30_encoding.md R104). -/
def cmdClass (op : Byte) : Option CmdClass :=
  match op.toNat with
  | 0x01 => some .construct
  | 0x02 | 0x03 | 0x04 | 0x05 | 0x06 | 0x10 | 0x11 | 0x12 | 0x13 => some .radio
  | 0x14 | 0x20 | 0x21 | 0x22 | 0x28 | 0x29 | 0x2A => some .always
  | _ => none

/-- The info value of E_NOT_READY: the LIFE code (60_exceptions.md R284). -/
def lifeInfo (l : Life) : U16 := (lifeCode l).zeroExtend 16

/-- The admission check of a command (R287). -/
def checkAdmission (c : CmdClass) : R Unit := do
  let s ← current
  require (admits c s.ctl.life) .notReady (lifeInfo s.ctl.life)

/-- What a host frame that does not decode is answered (30_encoding.md R109, 60_exceptions.md R285): the opcode is looked
at first, then admission, then the format. No state changes. -/
def malformed (frame : List Byte) : R Response :=
  match frame with
  | [] => raise .badArg badArgInfo
  | op :: _ =>
    match cmdClass op with
    | none => raise .badArg badArgInfo
    | some c => do
      checkAdmission c
      raise .badArg badArgInfo

end Sys2Proof.Machine
end

