-- ==== Sys2Proof/Machine/Varint.lean ====
section
/-! DEFINITION. The varint codec (40_varint.md): VDEC1, VDECALL, VENC, and the two byte rows VARINT.GROUP and VARINT.LAST as
single steps of the decoder's datapath (log 16). -/

namespace Sys2Proof.Machine

/-- One byte into the accumulator: `shl_32(VACC, 7) | G` (30_encoding.md R91, 40_varint.md R131). -/
def vaccStep (acc : U32) (b : Byte) : U32 := (acc <<< 7) ||| (b &&& 0x7F).zeroExtend 32

/-- The signed value of a code: sign in bit 0 (R131). -/
def vvalue (u : U32) : U32 := if u.getLsbD 0 then (u >>> 1) ^^^ 0xFFFFFFFF else u >>> 1

/-- The decoder's registers after a run, and the value if a terminator was found. -/
structure VDec where
  acc : U32
  cnt : Nat
  value : Option U32
  deriving DecidableEq, Repr

/-- The loop of VDEC1 (R131) from an accumulator and a count. -/
def vdec1From (acc : U32) (cnt : Nat) : List Byte → VDec
  | [] => ⟨acc, cnt, none⟩
  | b :: bs =>
    let acc' := vaccStep acc b
    if b.getLsbD 7 then ⟨acc', cnt + 1, some (vvalue acc')⟩ else vdec1From acc' (cnt + 1) bs

/-- VDEC1 (R131): VACC and VCNT start at 0. -/
def vdec1 (buf : List Byte) : VDec := vdec1From 0 0 buf

/-- Bytes consumed: the count, or 0 where no value was found (R131). -/
def VDec.consumed (d : VDec) : Nat := if d.value.isSome then d.cnt else 0

/-- The decoder's registers VACC, VCNT with the values delivered so far. -/
structure VAll where
  acc : U32
  cnt : Nat
  values : List U32
  deriving DecidableEq, Repr

/-- The loop of VDECALL (R133); the first argument bounds the turns, each consumes a byte at least. -/
def vdecAllFrom : Nat → (acc : U32) → (cnt : Nat) → List Byte → VAll
  | 0, acc, cnt, _ => ⟨acc, cnt, []⟩
  | _ + 1, acc, cnt, [] => ⟨acc, cnt, []⟩
  | k + 1, _, _, b :: bs =>
    let d := vdec1 (b :: bs)
    match d.value with
    | none => ⟨d.acc, d.cnt, []⟩
    | some v =>
      let r := vdecAllFrom k d.acc d.cnt ((b :: bs).drop d.consumed)
      ⟨r.acc, r.cnt, v :: r.values⟩

/-- VDECALL (R133). -/
def vdecAll (buf : List Byte) : VAll := vdecAllFrom buf.length 0 0 buf

/-- The unsigned code of a value (R135). -/
def vcode (v : U32) : U32 := (v <<< 1) ^^^ v.sshiftRight 31

/-- The number of bytes of a code (R135). -/
def vlen (u : U32) : Nat :=
  if u.toNat < 2 ^ 7 then 1
  else if u.toNat < 2 ^ 14 then 2
  else if u.toNat < 2 ^ 21 then 3
  else if u.toNat < 2 ^ 28 then 4
  else 5

/-- The 7-bit group `j` of a code, 0 the least significant. -/
def vgroup (u : U32) (j : Nat) : Byte := (u >>> (7 * j)).truncate 8 &&& 0x7F

/-- The groups `k - 1` down to 0, the last one marked as terminator (R135). -/
def vgroups (u : U32) : Nat → List Byte
  | 0 => []
  | 1 => [vgroup u 0 ||| 0x80]
  | k + 2 => vgroup u (k + 1) :: vgroups u (k + 1)

/-- VENC (R135). -/
def venc (v : U32) : List Byte := vgroups (vcode v) (vlen (vcode v))

/-! ### Meanings -/

/-- Leave VACC, VCNT and the last delivered value in the datapath; `done`: the next byte starts a value (log 16). -/
def setDecoder (acc : U32) (cnt : Nat) (done : Bool) (value : Option U32) : M Unit :=
  update fun s =>
    { s with codec :=
      { s.codec with vacc := acc, vcnt := BitVec.ofNat 9 cnt, vdone := done, vval := value.getD s.codec.vval } }

/-- BUF <- the operand or the packet read (10_state.md R34). -/
def setBuf (b : List Byte) : M Unit := update fun s => { s with codec := { s.codec with buf := b } }

/-- VDEC1 (R131): admitted always; the NONE answer carries `[consumed = 0]` (R104). -/
def execVdec1 (buf : List Byte) (s : State) : Host.Outcome State Fault Refusal :=
  command (do
    checkAdmission .always
    let d := vdec1 buf
    setBuf buf
    setDecoder d.acc d.cnt true d.value
    match d.value with
    | some v => pure (.ok (bytes32 v ++ [BitVec.ofNat 8 d.consumed]))
    | none => pure (.noResult [BitVec.ofNat 8 d.consumed])) s

/-- VDECALL (R133): always OK; `[count][value × count]` (R104). -/
def execVdecall (buf : List Byte) (s : State) : Host.Outcome State Fault Refusal :=
  command (do
    checkAdmission .always
    let d := vdecAll buf
    setBuf buf
    setDecoder d.acc d.cnt true d.values.getLast?
    pure (.ok (BitVec.ofNat 8 d.values.length :: d.values.flatMap bytes32))) s

/-- VENC (R135). -/
def execVenc (v : U32) (s : State) : Host.Outcome State Fault Refusal :=
  command (do
    checkAdmission .always
    pure (.ok (bufferBytes (venc v)))) s

/-- One byte through the datapath (R90, R131): VACC and VCNT are cleared at the start of every value (10_state.md R33). -/
def takeVarintByte (b : Byte) : M Unit := do
  let s ← current
  let acc := vaccStep (if s.codec.vdone then 0 else s.codec.vacc) b
  let cnt := (if s.codec.vdone then 0 else s.codec.vcnt.toNat) + 1
  setDecoder acc cnt (b.getLsbD 7) (if b.getLsbD 7 then some (vvalue acc) else none)

/-- A byte with terminator bit 0 (R90). -/
def execVarintGroup (g : BitVec 7) (s : State) : Host.Outcome State Fault Refusal :=
  handler (takeVarintByte (g.zeroExtend 8)) s

/-- A byte with terminator bit 1: it ends a value, which is left in VVAL (R90, R131). -/
def execVarintLast (g : BitVec 7) (s : State) : Host.Outcome State Fault Refusal :=
  handler (takeVarintByte (0x80 ||| g.zeroExtend 8)) s

end Sys2Proof.Machine
end

