-- ==== Sys2Proof/Machine/Packet.lean ====
section
/-! DEFINITION. The packet codec (41_packet_codec.md): PDEC, GENSYNC, PARCHK, and the wire rows of a packet's header and
trailer, the sync word and the parity byte (log 14). -/

namespace Sys2Proof.Machine

/-- Parity of a group (R161). -/
def groupParity (g : Byte) : Byte :=
  let p := g ^^^ (g <<< 4)
  (p ^^^ (p <<< 2)) &&& 0xC0

/-- The receiver's check on byte 0 (R162). -/
def parityMatches (group byte0 : Byte) : Bool := byte0 &&& 0xC0 == groupParity group

/-- `buf[k]`; every use is guarded by a length check (R159). -/
def at' (buf : List Byte) (k : Nat) : Byte := buf.getD k 0

/-- `buf[a..b)` (00_scope.md R6). -/
def slice (buf : List Byte) (a b : Nat) : List Byte := (buf.take b).drop a

/-- Payload end E: the trailer is not payload (30_encoding.md R101). -/
def payloadEnd (trailer : Bool) (n : Nat) : Nat := if trailer then n - 2 else n

/-- The trailer's frequency byte in Hz: `(byte << 24) >> 17` on a signed 32-bit value (R158, 90_conflicts.md C3). -/
def trailerFei (b : Byte) : U32 := ((b.zeroExtend 32) <<< 24).sshiftRight 17

/-- The trailer fields (R158). -/
def withTrailer (pk : Packet) (trailer : Bool) (m f : Byte) : Packet :=
  if trailer then { pk with trlV := true, rmargin := m.extractLsb' 0 6, rfei := trailerFei f }
  else { pk with trlV := false }

/-- A decoded packet, none where the decode gives no result, with the decoder's registers after it (10_state.md R33). -/
structure PDecode where
  pk : Option Packet
  acc : U32
  cnt : Nat
  deriving DecidableEq, Repr

/-- The data region (R157) and the trailer (R158) of a record whose header is decoded. -/
def finishPacket (pk : Packet) (buf : List Byte) (dataOff e : Nat) (trailer : Bool) (acc : U32) (cnt : Nat) : PDecode :=
  let region := slice buf dataOff e
  let d := vdecAllFrom region.length acc cnt region
  let n := buf.length
  { pk := some (withTrailer { pk with dataOff := BitVec.ofNat 8 dataOff, data := d.values } trailer (at' buf (n - 2)) (at' buf (n - 1)))
    acc := d.acc, cnt := d.cnt }

/-- DecodeV1 with NodeV1 (R152, R154); the buffer has 3 bytes or more. -/
def decodeV1 (buf : List Byte) : PDecode :=
  let n := buf.length
  let i := (at' buf 2).getLsbD 7
  if i ∧ n < 5 then ⟨none, 0, 0⟩
  else
    let e := payloadEnd i n
    let fromGw := at' buf 0 &&& 0x3F != 0
    let pk := { Packet.zero with
      ver := false, fromGw := fromGw, isAck := fromGw, wantAck := (at' buf 1).getLsbD 7,
      type := (at' buf 2).extractLsb' 0 7, payOff := 3, payLen := BitVec.ofNat 8 (e - 3) }
    if !fromGw ∧ 1 < e - 3 then
      let d := vdec1 (slice buf 3 e)
      match d.value with
      | none => finishPacket pk buf 3 e i d.acc d.cnt
      | some v =>
        if 5 < d.consumed then ⟨none, d.acc, d.cnt⟩
        else finishPacket { pk with nodeV := true, node := v } buf (3 + d.consumed) e i d.acc d.cnt
    else finishPacket pk buf 3 e i 0 0

/-- DecodeV2 (R155, R156); the buffer has 3 bytes or more. -/
def decodeV2 (buf : List Byte) : PDecode :=
  let n := buf.length
  if n < 6 then ⟨none, 0, 0⟩
  else
    let i := (at' buf 5).getLsbD 7
    if i ∧ n < 8 then ⟨none, 0, 0⟩
    else
      let e := payloadEnd i n
      let b0 := at' buf 0
      let pk := { Packet.zero with
        ver := true, isAck := b0 &&& 0x28 == 0x20, fromGw := b0 &&& 0x10 != 0, wantAck := b0 &&& 0x28 == 0x08,
        type := (at' buf 5).extractLsb' 0 7, nodeV := true,
        node := u32 (at' buf 1) (at' buf 2) (at' buf 3) (at' buf 4), payOff := 6, payLen := BitVec.ofNat 8 (e - 6) }
      finishPacket pk buf 6 e i 0 0

/-- The classified decode of a buffer of 3 bytes or more (R150, R151). -/
def decodeVersioned (buf : List Byte) : PDecode :=
  if isV1 (at' buf 0) (at' buf 1) then decodeV1 buf else decodeV2 buf

/-- PDEC after its argument check (R150): too short, parity mismatch, then the version's decoder. -/
def decodePacket (chk : Bool) (group : Byte) (buf : List Byte) : PDecode :=
  if buf.length < 3 then ⟨none, 0, 0⟩
  else if chk ∧ !parityMatches group (at' buf 0) then ⟨none, 0, 0⟩
  else decodeVersioned buf

/-! ### The record as response bytes (30_encoding.md R104) -/

/-- The flags byte of a record. -/
def packetFlags (pk : Packet) : Byte :=
  flagBit pk.ver 0 ||| flagBit pk.isAck 1 ||| flagBit pk.fromGw 2 ||| flagBit pk.wantAck 3 ||| flagBit pk.nodeV 4 |||
    flagBit pk.trlV 5 ||| flagBit pk.lqV 6

/-- A value, or zero where its presence flag is 0. -/
def present {w : Nat} (b : Bool) (v : BitVec w) : BitVec w := if b then v else 0

/-- The packet record serialised (R104). -/
def packetBytes (pk : Packet) : List Byte :=
  [packetFlags pk, pk.type.zeroExtend 8] ++ bytes32 (present pk.nodeV pk.node) ++
  [pk.payOff, pk.payLen, pk.dataOff, BitVec.ofNat 8 pk.data.length] ++ pk.data.flatMap bytes32 ++
  [(present pk.trlV pk.rmargin).zeroExtend 8] ++ bytes32 (present pk.trlV pk.rfei) ++
  (if pk.lqV then bytes16 pk.rssi ++ [pk.margin] ++ bytes32 pk.fei else [])

/-! ### Meanings -/

/-- PK <- a record. -/
def setPacket (pk : Packet) : M Unit := update fun s => { s with codec := { s.codec with pk := pk } }

/-- Run the packet decoder and leave its registers and its record in the datapath; a decode without result leaves PK as it
was (log 14). -/
def decodeInto (d : PDecode) : M (Option Packet) := do
  setDecoder d.acc d.cnt true none
  match d.pk with
  | some pk =>
    setPacket pk
    pure (some pk)
  | none => pure none

/-- PDEC (R150): admitted always. -/
def execPdec (chk : Bool) (group : Byte) (buf : List Byte) (s : State) : Host.Outcome State Fault Refusal :=
  command (do
    checkAdmission .always
    require (chkGroupOk chk group) .badArg badArgInfo
    setBuf buf
    match ← decodeInto (decodePacket chk group buf) with
    | some pk => pure (.ok (packetBytes pk))
    | none => pure (.noResult [])) s

/-- SY of a group (R160). -/
def syncOf (group : Byte) : SyncRes :=
  { s0 := Config.syncA, s1 := Config.syncB, s2 := group, parity := groupParity group }

/-- SY <- a sync result. -/
def setSync (y : SyncRes) : M Unit := update fun s => { s with codec := { s.codec with sy := y } }

/-- GENSYNC (R160). -/
def execGensync (group : Byte) (s : State) : Host.Outcome State Fault Refusal :=
  command (do
    checkAdmission .always
    require (groupOk group) .badArg badArgInfo
    let y := syncOf group
    setSync y
    pure (.ok [y.s0, y.s1, y.s2, y.parity])) s

/-- PARCHK (R162). -/
def execParchk (group byte0 : Byte) (s : State) : Host.Outcome State Fault Refusal :=
  command (do
    checkAdmission .always
    require (groupOk group) .badArg badArgInfo
    pure (.ok [flagByte (parityMatches group byte0)])) s

/-! ### Wire rows (log 11, log 14): the codec's part of each, without a command around it -/

/-- A packet handed to the codec: BUF and, where the decode has a result, PK. -/
def takePacket (buf : List Byte) : M Unit := do
  setBuf buf
  let _ ← decodeInto (decodePacket false 0 buf)

/-- A V1 packet from a node (R94, R152, R154). -/
def execPktV1Node (p : BitVec 2) (w u i : Bool) (t : BitVec 7) (rest : List Byte) (s : State) :
    Host.Outcome State Fault Refusal :=
  handler (takePacket (encode (.pktV1Node p w u i t rest))) s

/-- A V1 packet from a gateway (R94, R152). -/
def execPktV1Gw (p : BitVec 2) (w u i : Bool) (t : BitVec 7) (rest : List Byte) (s : State) :
    Host.Outcome State Fault Refusal :=
  handler (takePacket (encode (.pktV1Gw p w u i t rest))) s

/-- A V2 packet (R95, R155). -/
def execPktV2 (p : BitVec 2) (a1 g a0 : Bool) (u : BitVec 3) (node : U32) (i : Bool) (t : BitVec 7) (rest : List Byte)
    (s : State) : Host.Outcome State Fault Refusal :=
  handler (takePacket (encode (.pktV2 p a1 g a0 u node i t rest))) s

/-- A trailer (R96, R158): PK_TRL_V, PK_RMARGIN and PK_RFEI. -/
def execPktTrailer (u : BitVec 2) (m : BitVec 6) (f : Byte) (s : State) : Host.Outcome State Fault Refusal :=
  handler (do
    let s ← current
    setPacket (withTrailer s.codec.pk true (u ++ m : BitVec (2 + 6)) f)) s

/-- A sync word (R99, R160): SY of its group. -/
def execSyncword (group : BitVec 6) (s : State) : Host.Outcome State Fault Refusal :=
  handler (setSync (syncOf (group.zeroExtend 8))) s

/-- Byte 0 of a packet as its parity bits (R98, R161): SY_PARITY. -/
def execParity (p q : Bool) (_u : BitVec 6) (s : State) : Host.Outcome State Fault Refusal :=
  handler (do
    let s ← current
    setSync { s.codec.sy with parity := flagBit p 7 ||| flagBit q 6 }) s

end Sys2Proof.Machine
end

