-- ==== Sys2Proof/Machine/Options.lean ====
section
/-! DEFINITION. The options of a configuration body (42_radio_init_config.md R189 to R200): each validates its field, writes
the chip, then writes its configuration registers. The rows CFG.* given alone run as a CONFIGURE with that one option
(log 13). -/

namespace Sys2Proof.Machine

/-- Change the configuration registers. -/
def updateCfg (f : CfgRegs → CfgRegs) : M Unit := update fun s => { s with cfg := f s.cfg }

/-- ImageCal (R197); info 1 (60_exceptions.md R284). -/
def imageCal : R Unit := do
  let s ← current
  xwrite s.p.xr.imagecal s.p.imagecalStart
  let ok ← timedPoll s.p.xr.imagecal (fun v => v &&& s.p.imagecalRunningMask == 0) s.p.calTimeoutMs
  require ok .timeout 1

/-- FREQ (R190, R191): mask bit 0. -/
def applyFreq (f : U32) : R Unit :=
  match freqRegs f.toNat with
  | none => raise .badArg 0
  | some (hz, frf) => do
    let s ← current
    let v := BitVec.ofNat 24 frf
    xwriteAll [(s.p.xr.frfMsb, byteOf v 2), (s.p.xr.frfMid, byteOf v 1), (s.p.xr.frfLsb, byteOf v 0)]
    updateCfg fun c => { c with freq := BitVec.ofNat 32 hz, frf := v, freqV := true }
    if s.p.imageCal then imageCal else pure ()

/-- BITRATE (R192): mask bit 1. -/
def applyBitrate (br : U32) : R Unit :=
  match bitrateReg br.toNat with
  | none => raise .badArg 1
  | some reg => do
    let s ← current
    let v := BitVec.ofNat 16 reg
    xwriteAll [(s.p.xr.bitrateMsb, byteOf v 1), (s.p.xr.bitrateLsb, byteOf v 0)]
    updateCfg fun c => { c with bitrate := br, brreg := v, bitrateV := true }

/-- FDEV (R193): mask bit 2; bits 7:6 of the MSB write are zero. -/
def applyFdev (fd : U32) : R Unit :=
  match fdevReg fd.toNat with
  | none => raise .badArg 2
  | some reg => do
    let s ← current
    let v := BitVec.ofNat 16 reg
    xwriteAll [(s.p.xr.fdevMsb, byteOf v 1), (s.p.xr.fdevLsb, byteOf v 0)]
    updateCfg fun c => { c with fdev := fd, fdevreg := BitVec.ofNat 14 reg, fdevV := true }

/-- RXBW (R194): mask bit 3. -/
def applyRxbw (hz : U32) : R Unit := do
  let s ← current
  match bwLookup s.p.bwTable hz.toNat with
  | none => raise .badArg 3
  | some (i, row) => do
    xwrite s.p.xr.rxbw (bwByte row)
    updateCfg fun c => { c with rxbw := BitVec.ofNat 5 i, rxbwV := true }

/-- AFCBW (R195): mask bit 4. -/
def applyAfcbw (hz : U32) : R Unit := do
  let s ← current
  match bwLookup s.p.bwTable hz.toNat with
  | none => raise .badArg 4
  | some (i, row) => do
    xwrite s.p.xr.afcbw (bwByte row)
    updateCfg fun c => { c with afcbw := BitVec.ofNat 5 i, afcbwV := true }

/-- PREAMBLE (R196): mask bit 5. -/
def applyPreamble (v : U16) : R Unit := do
  let s ← current
  xwriteAll [(s.p.xr.preambleMsb, byteOf v 1), (s.p.xr.preambleLsb, byteOf v 0)]
  updateCfg fun c => { c with preamble := v, preambleV := true }

/-- SYNC (R198): mask bit 6; the sync size field is read, then written with its upper bits kept. -/
def applySync (b : List Byte) : R Unit :=
  if syncCountOk b.length then do
    let s ← current
    xwriteAll (syncWrites s.p.xr.syncvalue b)
    let v ← xread s.p.xr.syncconfig
    xwrite s.p.xr.syncconfig ((v &&& 0xF8) ||| BitVec.ofNat 8 (b.length - 1))
    updateCfg fun c => { c with synclen := BitVec.ofNat 2 b.length, sync := storeSync c.sync b, syncV := true }
  else raise .badArg 6

/-- PKTLEN (R199): no bus access. -/
def applyPktlen (fixed : Bool) (len : Byte) : R Unit :=
  updateCfg fun c => { c with fixed := fixed, fixlen := len, pktlenV := true }

/-- RXCONT (R200): no bus access. -/
def applyRxcont (flag : Bool) : R Unit := updateCfg fun c => { c with rxcont := flag, rxcontV := true }

/-- One option (R189). -/
def applyOption : CfgOption → R Unit
  | .freq f => applyFreq f
  | .bitrate br => applyBitrate br
  | .fdev fd => applyFdev fd
  | .rxbw hz => applyRxbw hz
  | .afcbw hz => applyAfcbw hz
  | .preamble v => applyPreamble v
  | .sync b => applySync b
  | .pktlen f l => applyPktlen f l
  | .rxcont f => applyRxcont f

/-- ApplyConfig (R189): one after another; the first that raises ends it, the options before it stay applied. -/
def applyOptions : List CfgOption → R Unit
  | [] => pure ()
  | o :: os => do
    applyOption o
    applyOptions os

/-- CONFIGURE with the options given (R188). -/
def configureWith (os : List CfgOption) : R Response := do
  checkAdmission .radio
  applyOptions os
  pure (.ok [])

/-! ### Meanings -/

/-- CFG.FREQ (R191). -/
def execCfgFreq (f : U32) (s : State) : Host.Outcome State Fault Refusal := command (configureWith [.freq f]) s

/-- CFG.BITRATE (R192). -/
def execCfgBitrate (br : U32) (s : State) : Host.Outcome State Fault Refusal := command (configureWith [.bitrate br]) s

/-- CFG.FDEV (R193). -/
def execCfgFdev (fd : U32) (s : State) : Host.Outcome State Fault Refusal := command (configureWith [.fdev fd]) s

/-- CFG.RXBW (R194). -/
def execCfgRxbw (hz : U32) (s : State) : Host.Outcome State Fault Refusal := command (configureWith [.rxbw hz]) s

/-- CFG.AFCBW (R195). -/
def execCfgAfcbw (hz : U32) (s : State) : Host.Outcome State Fault Refusal := command (configureWith [.afcbw hz]) s

/-- CFG.PREAMBLE (R196). -/
def execCfgPreamble (v : U16) (s : State) : Host.Outcome State Fault Refusal := command (configureWith [.preamble v]) s

/-- CFG.SYNC (R198). -/
def execCfgSync (b : List Byte) (s : State) : Host.Outcome State Fault Refusal := command (configureWith [.sync b]) s

/-- CFG.PKTLEN (R199). -/
def execCfgPktlen (fixed : Bool) (len : Byte) (s : State) : Host.Outcome State Fault Refusal :=
  command (configureWith [.pktlen fixed len]) s

/-- CFG.RXCONT (R200). -/
def execCfgRxcont (flag : Bool) (s : State) : Host.Outcome State Fault Refusal := command (configureWith [.rxcont flag]) s

/-- CFG.RESERVED (30_encoding.md R109): nothing is executed, no state changes, E_BAD_ARG with 0xFF; admission comes first
(60_exceptions.md R285). -/
def execCfgReserved (_mask : U16) (_fields : List Byte) (s : State) : Host.Outcome State Fault Refusal :=
  command (do
    checkAdmission .radio
    raise .badArg badArgInfo) s

end Sys2Proof.Machine
end

