-- ==== Sys2Proof/Machine/Lifecycle.lean ====
section
/-! DEFINITION. Construction, configuration and close (42_radio_init_config.md R180, R181, R183 to R185, R188, R205). -/

namespace Sys2Proof.Machine

/-- Every configuration valid bit <- 0. A register whose valid bit is 0 holds no value (10_state.md R32); it keeps its old one:
DESIGN CHOICE (log 28). -/
def CfgRegs.invalidate (c : CfgRegs) : CfgRegs :=
  { c with freqV := false, bitrateV := false, fdevV := false, rxbwV := false, afcbwV := false, preambleV := false,
           syncV := false, pktlenV := false, rxcontV := false }

/-- R180 step 1: the instance state at its constructed-empty value. The registers guarded by the flags cleared here (RX_LEN,
RX_TS, the four of R26, LAST_AFC, SAFETY_HANDLE) keep their old values: DESIGN CHOICE (log 28). -/
def constructEmpty (s : State) : State :=
  { s with
    ctl := { s.ctl with txbusy := false, rxPend := false }
    rx := { s.rx with valid := false }
    trk := { s.trk with lastAfcV := false }
    tmr := { s.tmr with safetyArmed := false }
    cfg := s.cfg.invalidate }

/-- R180 step 2: the reset pulse; MODE <- STANDBY without a bus write. -/
def resetPulse : M Unit := do
  pinReset false
  wait Config.resetLowMs
  pinReset true
  wait Config.resetWaitMs
  update fun s => s.setMode .standby

/-- The info value of E_CHIP_NOT_FOUND: the last value read, 0 for a bus error (R183). -/
def versionInfo : BusAnswer → U16
  | .byte v => v.zeroExtend 16
  | .error => 0

/-- The version register holds one of the two known values (R183). -/
def versionMatches (p : Params) : BusAnswer → Bool
  | .byte v => v == p.versionA || v == p.versionB
  | .error => false

/-- The tries of VersionPoll that are left, and the last answer so far (R183). -/
def versionTries : Nat → BusAnswer → R Unit
  | 0, last => raise .chipNotFound (versionInfo last)
  | k + 1, _ => do
    let s ← current
    let r ← xreadVersion s.p.xr.version
    if versionMatches s.p r then pure ()
    else
      wait Config.versionBackoffMs
      versionTries k r

/-- VersionPoll (R183). -/
def versionPoll : R Unit := versionTries Config.versionTries .error

/-- Write a pattern to the scratch register and read it back (R184). -/
def scratchPattern (pat : Byte) (info : U16) : R Unit := do
  let s ← current
  xwrite s.p.scratchAddr pat
  let v ← xread s.p.scratchAddr
  require (v == pat) .busDead info

/-- ScratchVerify (R184). -/
def scratchVerify : R Unit := do
  let s ← current
  scratchPattern s.p.scratchPatA 0
  scratchPattern s.p.scratchPatB 1

/-- A fault of the run, from an operation. -/
def stop (f : Fault) : M Unit := fun _ => .error f

/-- INIT_TABLE in order, one write each (R185); a table outside R46 is outside the spec (U24, log 6). -/
def writeInitTable : M Unit := do
  let s ← current
  if initTableOk s.p then xwriteAll s.p.initTable else stop .initTableOutsideSpec

/-- R180 step 6: the tracker's start value, the interrupt lines, the background timer, LIFE. -/
def startServices : M Unit := do
  update fun s =>
    { s with
      trk := { s.trk with bgRssi := (s.p.bgRssiInit.zeroExtend 12) <<< 4 }
      tmr := { s.tmr with dioEn := true } }
  emit (.armPeriodic Config.tBgMs)
  update fun s => { s with tmr := { s.tmr with bgArmed := true }, ctl := { s.ctl with life := .ready } }

/-- The steps of R180 that may raise, 2 to 5. -/
def constructChip (os : List CfgOption) : R Unit := do
  resetPulse
  versionPoll
  scratchVerify
  writeInitTable
  applyOptions os

/-- What a failed construction leaves (R181): LIFE = FAILED, no configuration valid, seven flags 0. The value registers guarded
by LIFE and by these flags keep what they held: DESIGN CHOICE (log 28). -/
def constructFailed (s : State) : State :=
  { s with
    ctl := { s.ctl with life := .failed, txbusy := false, rxPend := false }
    rx := { s.rx with valid := false }
    trk := { s.trk with lastAfcV := false }
    tmr := { s.tmr with safetyArmed := false, bgArmed := false, dioEn := false }
    cfg := s.cfg.invalidate }

/-- An exception inside construction: its effects on LIFE and the flags come before it is delivered (R181). -/
def orFail (m : R Unit) : R Unit := ExceptT.mk fun s =>
  match m.run s with
  | .ok (.error e, t) => .ok (.error e, constructFailed t)
  | r => r

/-- Enter RECEIVE when continuous receive is configured (R180 step 7, 43_radio_rx_tx.md R232). -/
def receiveIfContinuous : M Unit := do
  let s ← current
  if rxContinuous s then setMode .receive else pure ()

/-- INIT (R180). -/
def initWith (os : List CfgOption) : R Response := do
  checkAdmission .construct
  update constructEmpty
  orFail (constructChip os)
  startServices
  receiveIfContinuous
  pure (.ok [])

/-- What CLOSE leaves (R205). The configuration registers keep their values, as R205 says; RX_LEN, RX_TS, the four of R26,
LAST_AFC, SAFETY_HANDLE and BG_RSSI keep theirs by DESIGN CHOICE (log 28). -/
def closed (s : State) : State :=
  { s with
    ctl := { s.ctl with life := .closed, txbusy := false, rxPend := false }
    rx := { s.rx with valid := false }
    trk := { s.trk with lastAfcV := false }
    tmr := { s.tmr with safetyArmed := false, bgArmed := false, dioEn := false } }

/-! ### Meanings -/

/-- INIT (R180, R181). -/
def execInit (cfg : CfgBody) (s : State) : Host.Outcome State Fault Refusal := command (initWith (cfgOptions cfg)) s

/-- CONFIGURE (R188, R189). -/
def execConfigure (cfg : CfgBody) (s : State) : Host.Outcome State Fault Refusal :=
  command (configureWith (cfgOptions cfg)) s

/-- CLOSE (R205): the mode write is its one bus access; both timers are cancelled. -/
def execClose (s : State) : Host.Outcome State Fault Refusal :=
  command (do
    checkAdmission .radio
    setMode .sleep
    cancelSafety
    emit .cancelBackground
    update closed
    pure (.ok [])) s

end Sys2Proof.Machine
end

