-- ==== Sys2Proof/Machine/Telemetry.lean ====
section
/-! DEFINITION. Telemetry and STATUS (43_radio_rx_tx.md R240 to R243, 44_rssi_tracker.md R270). No bus access. -/

namespace Sys2Proof.Machine

/-- RXRSSI's value: `-(zext_16(RX_RSSI))`, half-dBm (R240). -/
def rssiHalfDbm (s : State) : U16 := -(s.rx.rssi.zeroExtend 16)

/-- RXAFC's value: `asr(sext_32(RX_AFC) × 15625, 8)`, Hz, rounded down (R242). -/
def afcHz (s : State) : U32 := BitVec.ofInt 32 (s.rx.afc.toInt * 15625 / 256)

/-- RXMARGIN's value (R270): `x / 2` rounded down, clamped to 0 .. 20. -/
def marginDb (s : State) : Byte :=
  let x : Int := (s.rx.thresh.toNat : Int) + Config.threshAdj - 2 * (s.p.demodSnr : Int) - s.rx.rssi.toNat
  BitVec.ofInt 8 (max 0 (min Config.marginMax (x / 2)))

/-- A telemetry read: READY only (60_exceptions.md R287), NONE before the first capture (R282), else the bytes. -/
def telemetry (f : State → List Byte) : R Response := do
  checkAdmission .radio
  let s ← current
  if s.rx.valid then pure (.ok (f s)) else pure (.noResult [])

/-- RXRSSI (R240). -/
def execRxrssi (s : State) : Host.Outcome State Fault Refusal := command (telemetry fun s => bytes16 (rssiHalfDbm s)) s

/-- RXLNA (R241). -/
def execRxlna (s : State) : Host.Outcome State Fault Refusal := command (telemetry fun s => [s.rx.lna]) s

/-- RXAFC, alias RXFEI (R242). -/
def execRxafc (s : State) : Host.Outcome State Fault Refusal := command (telemetry fun s => bytes32 (afcHz s)) s

/-- RXMARGIN (R270). -/
def execRxmargin (s : State) : Host.Outcome State Fault Refusal := command (telemetry fun s => [marginDb s]) s

/-- STATUS (R243): admitted always, changes nothing. -/
def execStatus (s : State) : Host.Outcome State Fault Refusal :=
  command (do
    checkAdmission .always
    let s ← current
    pure (.ok [status0 s, status1 s])) s

end Sys2Proof.Machine
end

