-- ==== Sys2Proof/Machine/Receive.lean ====
section
/-! DEFINITION. The receive path (43_radio_rx_tx.md R220 to R232, R229 with it) and RECV (41_packet_codec.md R165). -/

namespace Sys2Proof.Machine

/-- The guard of EV_PREAMBLE and EV_DIO0 (R220). -/
def dioAdmitted (s : State) : Bool := s.ctl.life == .ready && s.tmr.dioEn

/-- The 3-bit gain field of XR_LNA (R222). -/
def lnaGain (p : Params) (v : Byte) : Fin 8 := (((v >>> p.lnaGainShift) &&& 7).extractLsb' 0 3).toFin

/-- The five reads of EV_PREAMBLE, in order (R222). -/
def capturePreamble : M Unit := do
  let s ← current
  let x := s.p.xr
  let rssi ← xread x.rssivalue
  let thresh ← xread x.rssithresh
  let lna ← xread x.lna
  let m ← xread x.afcMsb
  let l ← xread x.afcLsb
  update fun t =>
    { t with rx := { valid := true, rssi := rssi, thresh := thresh, lna := s.p.lnaDb[lnaGain s.p lna], afc := u16 m l } }

/-- Replace the safety timer by a new one (R222, 10_state.md R29). -/
def rearmSafety : M Unit := do
  let s ← current
  cancelSafety
  let h ← armOneShot s.p.tSafetyMs
  update fun s => { s with tmr := { s.tmr with safetyHandle := h, safetyArmed := true } }

/-- EV_PREAMBLE (R222). -/
def execEvPreamble (s : State) : Host.Outcome State Fault Refusal :=
  handler (do
    let s ← current
    if dioAdmitted s then
      capturePreamble
      rearmSafety) s

/-- An expiry that is neither stale nor cancelled (R225). -/
def safetyCurrent (h : U16) (s : State) : Bool :=
  s.ctl.life == .ready && s.tmr.safetyArmed && h == s.tmr.safetyHandle

/-- EV_SAFETY(h) (R225): restart the receiver, warn with the chip's threshold as read now. SAFETY_HANDLE keeps its value once
SAFETY_ARMED is 0: DESIGN CHOICE (log 28). -/
def execEvSafety (h : U16) (s : State) : Host.Outcome State Fault Refusal :=
  handler (do
    let s ← current
    if safetyCurrent h s then
      update fun s => { s with tmr := { s.tmr with safetyArmed := false } }
      restartRx
      let t ← xread s.p.xr.rssithresh
      diag wRxStuck (t.zeroExtend 16)) s

/-- The length of the packet that arrived: CFG_FIXLEN, or the length byte taken from the FIFO (R228). -/
def arrivedLength : M Byte := do
  let s ← current
  if fixedLength s then pure s.cfg.fixlen else xread s.p.xr.fifo

/-- PayloadReady(ts) (R228). -/
def payloadReady (ts : U32) : M Unit := do
  cancelSafety
  let n ← arrivedLength
  update fun s => { s with ctl := { s.ctl with rxLen := n, rxTs := ts, rxPend := true } }
  emit (.notify (.readable n ts))

/-- PacketSent() (R229). -/
def packetSent : M Unit := do
  update fun s => { s with ctl := { s.ctl with txbusy := false } }
  let s ← current
  setMode (if rxContinuous s then .receive else .standby)
  emit (.notify .writable)

/-- EV_DIO0 (R227): the meaning of the edge is TXBUSY at entry; the timestamp is taken first. -/
def execEvDio0 (s : State) : Host.Outcome State Fault Refusal :=
  handler (do
    let s ← current
    if dioAdmitted s then
      let ts ← now
      if s.ctl.txbusy then packetSent else payloadReady ts) s

/-- The bytes of the pending packet: one bulk transfer, none for an empty packet (R232). -/
def pullPacket : M (List Byte) := do
  let s ← current
  if s.ctl.rxLen = 0 then pure [] else xburstRead s.p.xr.fifo s.ctl.rxLen.toNat

/-- READ after admission (R232): none with nothing pending; a packet larger than the destination stays pending. Once RX_PEND
is 0 the spec gives RX_LEN and RX_TS no value (10_state.md R25); they keep their old ones: DESIGN CHOICE (log 28). -/
def readPacket (hasDst : Bool) (cap : Byte) : R (Option (List Byte)) := do
  let s ← current
  if !s.ctl.rxPend then pure none
  else if oversize hasDst cap s.ctl.rxLen then raise .readOversize (s.ctl.rxLen.zeroExtend 16)
  else
    let bytes ← pullPacket
    setBuf bytes
    update fun s => { s with ctl := { s.ctl with rxPend := false } }
    receiveIfContinuous
    pure (some bytes)

/-- READ (R232). -/
def execRead (hasDst : Bool) (cap : Byte) (s : State) : Host.Outcome State Fault Refusal :=
  command (do
    checkAdmission .radio
    match ← readPacket hasDst cap with
    | some bytes => pure (.ok (bufferBytes bytes))
    | none => pure (.noResult [])) s

/-- The link quality RECV attaches: the values of the most recent capture (R165). -/
def withLinkQuality (s : State) (pk : Packet) : Packet :=
  if s.rx.valid then { pk with lqV := true, rssi := rssiHalfDbm s, fei := afcHz s, margin := marginDb s } else pk

/-- RECV (R165): the group is checked before anything is consumed; a packet that does not decode is consumed and dropped. -/
def execRecv (hasDst : Bool) (cap : Byte) (chk : Bool) (group : Byte) (s : State) : Host.Outcome State Fault Refusal :=
  command (do
    checkAdmission .radio
    require (chkGroupOk chk group) .badArg badArgInfo
    match ← readPacket hasDst cap with
    | none => pure (.noResult [])
    | some bytes =>
      match ← decodeInto (decodePacket chk group bytes) with
      | none => pure (.noResult [])
      | some pk =>
        let s ← current
        let pk := withLinkQuality s pk
        setPacket pk
        pure (.ok (packetBytes pk))) s

end Sys2Proof.Machine
end

