-- ==== Sys2Proof/Machine/Transmit.lean ====
section
/-! DEFINITION. The transmit path (43_radio_rx_tx.md R235, R236) and the FIFO frame (30_encoding.md R100). -/

namespace Sys2Proof.Machine

/-- The FIFO frame of a payload in one bulk write: the length byte, then the bytes (R100). -/
def writeFrame (payload : List Byte) : M Unit := do
  let s ← current
  xburstWrite s.p.xr.fifo (bufferBytes payload)

/-- WRITE after admission and its checks (R235). -/
def transmit (payload : List Byte) : R Unit := do
  setMode .fstx
  waitModeReady
  writeFrame payload
  update fun s => { s with ctl := { s.ctl with txbusy := true } }
  setMode .transmit

/-- The WRITE operation (R235): LIFE, then TXBUSY, then the size, then the sequence. It alone writes XR_FIFO (20_memory.md R64). -/
def writeCommand (hasSize : Bool) (size : Byte) (buf : List Byte) : R Response := do
  checkAdmission .radio
  let s ← current
  require (!s.ctl.txbusy) .txBusy 0
  let sz := writeSize hasSize size buf
  require (writeSizeOk s.p.maxPayload sz buf.length) .badArg badArgInfo
  transmit (buf.take sz)
  pure (.ok [])

/-! ### Meanings -/

/-- WRITE (R235). -/
def execWrite (hasSize : Bool) (size : Byte) (buf : List Byte) (s : State) : Host.Outcome State Fault Refusal :=
  command (writeCommand hasSize size buf) s

/-- FIFOFRAME (30_encoding.md R100): a frame reaches XR_FIFO in WRITE only (20_memory.md R64), so the frame alone is a WRITE of
its payload (log 11). -/
def execFifoframe (payload : List Byte) (s : State) : Host.Outcome State Fault Refusal :=
  command (writeCommand false 0 payload) s

end Sys2Proof.Machine
end

