-- ==== Sys2Proof/Machine/Tracker.lean ====
section
/-! DEFINITION. The background estimator (44_rssi_tracker.md R260 to R266). -/

namespace Sys2Proof.Machine

/-- A plausible ambient sample (R262): both bounds inclusive. -/
def plausible (r : Byte) : Bool := decide (Config.bgLo ≤ r.toNat) && decide (r.toNat ≤ Config.bgHi)

/-- One smoothing step of the 8.4 fixed-point estimate (R262). -/
def smoothStep (bg : BitVec 12) (r : Byte) : BitVec 12 := bg - (bg >>> 4) + r.zeroExtend 12

/-- The smoothed raw value: the integer part (10_state.md R27). -/
def smoothed (bg : BitVec 12) : Byte := (bg >>> 4).truncate 8

/-- The threshold written for an estimate (R264). -/
def thresholdFor (bg : BitVec 12) : Byte := smoothed bg - BitVec.ofNat 8 Config.threshMargin

/-- Smooth() (R262, R264): the threshold is rewritten when the integer part changed. -/
def smooth : M Unit := do
  let s ← current
  let r ← xread s.p.xr.rssivalue
  if plausible r then
    let bg := smoothStep s.trk.bgRssi r
    update fun s => { s with trk := { s.trk with bgRssi := bg } }
    if smoothed bg ≠ smoothed s.trk.bgRssi then xwrite s.p.xr.rssithresh (thresholdFor bg) else pure ()
  else pure ()

/-- AfcCheck(expected) (R265). Where the last sample is forgotten (LAST_AFC_V <- 0), LAST_AFC keeps its old value: DESIGN CHOICE
(log 28). -/
def afcCheck (expected : Bool) : M Unit := do
  let s ← current
  if expected then
    let m ← xread s.p.xr.afcMsb
    let l ← xread s.p.xr.afcLsb
    let a := u16 m l
    if s.trk.lastAfcV ∧ a = s.trk.lastAfc then
      restartRx
      diag wAfcStuck a
    update fun s => { s with trk := { s.trk with lastAfc := a, lastAfcV := true } }
  else update fun s => { s with trk := { s.trk with lastAfcV := false } }

/-- ModeCheck(expected) (R266). -/
def modeCheck (expected : Bool) : M Unit := do
  let s ← current
  if expected then
    let v ← xread s.p.xr.opmode
    let m := v &&& 7
    if m ≠ modeCode .receive then
      setMode .receive
      diag wModeDrift (m.zeroExtend 16)
  else pure ()

/-- EV_BG (R260). -/
def execEvBg (s : State) : Host.Outcome State Fault Refusal :=
  handler (do
    let s ← current
    if s.ctl.life == .ready && s.tmr.bgArmed then
      smooth
      let s ← current
      let expected := continuousExpected s
      afcCheck expected
      modeCheck expected) s

end Sys2Proof.Machine
end

