-- ==== Sys2Proof/Machine/Messages.lean ====
section
/-! DEFINITION. The rows of the messages the block sends (30_encoding.md R103, R107): each is sent (log 11). -/

namespace Sys2Proof.Machine

/-- `Notify readable(len, ts)` (43_radio_rx_tx.md R228). -/
def execNReadable (len : Byte) (ts : U32) (s : State) : Host.Outcome State Fault Refusal :=
  handler (emit (.notify (.readable len ts))) s

/-- `Notify writable()` (43_radio_rx_tx.md R229). -/
def execNWritable (s : State) : Host.Outcome State Fault Refusal := handler (emit (.notify .writable)) s

/-- `Diag(code, value)` (60_exceptions.md R283). -/
def execNDiag (code : Byte) (value : U16) (s : State) : Host.Outcome State Fault Refusal := handler (diag code value) s

/-- The OK response (R103). -/
def execRspOk (result : List Byte) (s : State) : Host.Outcome State Fault Refusal := handler (emit (.respond (.ok result))) s

/-- The NONE response (R103, 60_exceptions.md R282). -/
def execRspNone (tail : List Byte) (s : State) : Host.Outcome State Fault Refusal :=
  handler (emit (.respond (.noResult tail))) s

/-- An exception response (R103, 60_exceptions.md R284): the end of `raise` (R294). -/
def execRspExc (e : Exc) (info : U16) (s : State) : Host.Outcome State Fault Refusal := command (raise e info) s

/-- What a host frame that does not decode is answered (R109, 60_exceptions.md R285). -/
def execMalformed (frame : List Byte) (s : State) : Host.Outcome State Fault Refusal := command (malformed frame) s

end Sys2Proof.Machine
end

