-- ==== Sys2Proof/Machine/Fetch.lean ====
section
/-! DEFINITION. What a step takes from the inbox (log 1): the next item, read by the decoder of its format. -/

namespace Sys2Proof.Machine

/-- What stands first in the inbox. -/
inductive Fetched
  /-- Nothing is pending: the block idles (60_exceptions.md R298). -/
  | idle
  /-- The block reset input was asserted (70_reset_and_hazards.md R310). -/
  | reset
  /-- An instruction. -/
  | instr (i : Instr)
  /-- A host frame that does not decode (30_encoding.md R109). -/
  | malformed (frame : List Byte)
  /-- Another frame that does not decode (log 19). -/
  | undecodable (f : Format) (e : DecodeError)
  deriving DecidableEq, Repr

/-- A frame of a format, read. -/
def fetchFrame (f : Format) (frame : List Byte) : Fetched :=
  match decode f frame with
  | .ok i => .instr i
  | .error e => if f = .hostCommand then .malformed frame else .undecodable f e

/-- The first item of the inbox. -/
def fetch (s : State) : Fetched :=
  match s.inbox with
  | [] => .idle
  | .blockReset :: _ => .reset
  | .frame f bytes :: _ => fetchFrame f bytes

/-- The state with its first item taken. -/
def afterFetch (s : State) : State := { s with inbox := s.inbox.tail }

/-- A state with an item put first. -/
def pushItem (s : State) (i : Item) : State := { s with inbox := i :: s.inbox }

end Sys2Proof.Machine
end

