-- ==== Sys2Proof/Machine/Dispatch.lean ====
section
/-! DEFINITION. exec: one arm per constructor of Instr, each one direct call of its meaning. -/

namespace Sys2Proof.Machine

def exec (i : Instr) (s : State) : Host.Outcome State Fault Refusal :=
  match i with
  | .init cfg => Sys2Proof.Machine.execInit cfg s
  | .configure cfg => Sys2Proof.Machine.execConfigure cfg s
  | .write hasSize size buf => Sys2Proof.Machine.execWrite hasSize size buf s
  | .read hasDst cap => Sys2Proof.Machine.execRead hasDst cap s
  | .close => Sys2Proof.Machine.execClose s
  | .recv hasDst cap chk group => Sys2Proof.Machine.execRecv hasDst cap chk group s
  | .rxrssi => Sys2Proof.Machine.execRxrssi s
  | .rxlna => Sys2Proof.Machine.execRxlna s
  | .rxafc => Sys2Proof.Machine.execRxafc s
  | .rxmargin => Sys2Proof.Machine.execRxmargin s
  | .status => Sys2Proof.Machine.execStatus s
  | .vdec1 buf => Sys2Proof.Machine.execVdec1 buf s
  | .vdecall buf => Sys2Proof.Machine.execVdecall buf s
  | .venc v => Sys2Proof.Machine.execVenc v s
  | .pdec chk group buf => Sys2Proof.Machine.execPdec chk group buf s
  | .gensync group => Sys2Proof.Machine.execGensync group s
  | .parchk group byte0 => Sys2Proof.Machine.execParchk group byte0 s
  | .cfgFreq f => Sys2Proof.Machine.execCfgFreq f s
  | .cfgBitrate br => Sys2Proof.Machine.execCfgBitrate br s
  | .cfgFdev fd => Sys2Proof.Machine.execCfgFdev fd s
  | .cfgRxbw hz => Sys2Proof.Machine.execCfgRxbw hz s
  | .cfgAfcbw hz => Sys2Proof.Machine.execCfgAfcbw hz s
  | .cfgPreamble v => Sys2Proof.Machine.execCfgPreamble v s
  | .cfgSync bytes => Sys2Proof.Machine.execCfgSync bytes s
  | .cfgPktlen fixed len => Sys2Proof.Machine.execCfgPktlen fixed len s
  | .cfgRxcont flag => Sys2Proof.Machine.execCfgRxcont flag s
  | .cfgReserved mask fields => Sys2Proof.Machine.execCfgReserved mask fields s
  | .evPreamble => Sys2Proof.Machine.execEvPreamble s
  | .evDio0 => Sys2Proof.Machine.execEvDio0 s
  | .evSafety h => Sys2Proof.Machine.execEvSafety h s
  | .evBg => Sys2Proof.Machine.execEvBg s
  | .nReadable len ts => Sys2Proof.Machine.execNReadable len ts s
  | .nWritable => Sys2Proof.Machine.execNWritable s
  | .nDiag code value => Sys2Proof.Machine.execNDiag code value s
  | .rspOk result => Sys2Proof.Machine.execRspOk result s
  | .rspNone rest => Sys2Proof.Machine.execRspNone rest s
  | .rspExc e info => Sys2Proof.Machine.execRspExc e info s
  | .varintGroup g => Sys2Proof.Machine.execVarintGroup g s
  | .varintLast g => Sys2Proof.Machine.execVarintLast g s
  | .pktV1Node p w u tr t rest => Sys2Proof.Machine.execPktV1Node p w u tr t rest s
  | .pktV1Gw p w u tr t rest => Sys2Proof.Machine.execPktV1Gw p w u tr t rest s
  | .pktV2 p a1 g a0 u node tr t rest => Sys2Proof.Machine.execPktV2 p a1 g a0 u node tr t rest s
  | .pktTrailer u m f => Sys2Proof.Machine.execPktTrailer u m f s
  | .syncword group => Sys2Proof.Machine.execSyncword group s
  | .parity p q u => Sys2Proof.Machine.execParity p q u s
  | .fifoframe payload => Sys2Proof.Machine.execFifoframe payload s

end Sys2Proof.Machine
end

