-- ==== Sys2Proof/Machine/Step.lean ====
section
/-! DEFINITION. One step of the block: the next item of the inbox, whole (00_scope.md R4, 60_exceptions.md R295); idle with
none (R298). -/

namespace Sys2Proof.Machine

def step (s : State) : Host.Outcome State Fault Refusal :=
  match fetch s with
  | .idle => .next s
  | .reset => .next (blockReset (afterFetch s))
  | .instr i => exec i (afterFetch s)
  | .malformed frame => execMalformed frame (afterFetch s)
  | .undecodable f e => .refused (.undecodable f e)

/-- The state with the instruction of a table word put first in the inbox (log 1, log 12); unchanged where no format
decodes the word. -/
def State.withFetchWord (s : State) (nbits w : Nat) : State :=
  match tableFrame nbits w with
  | some x => pushItem s (.frame x.1 x.2)
  | none => s

end Sys2Proof.Machine
end

