-- ==== Sys2Proof/Safety.lean ====
section
/-! DEFINITION. The terms of claims: when the environment and the parameters stay inside the spec, what a bus access may
change outside the block, and the invariants of 43_radio_rx_tx.md R245, 44_rssi_tracker.md R263 and 10_state.md R29, R31. -/

namespace Sys2Proof.Machine

/-- No scripted answer to a bus read outside a poll is a bus failure (00_scope.md R10, 93_implementation_defined.md U12). -/
def BusHealthy (s : State) : Prop := BusAnswer.error ∉ s.env.answers

/-- The parameters meet the constraints of 00_scope.md table P3. -/
def ParamsOk (s : State) : Prop := s.p.wf = true

/-- One byte of the register memory, where a transceiver with one is attached (20_memory.md R76). -/
def envReg (e : Env) (a : Nat) : Option Byte := e.refx.map fun x => memRead x.regs a

/-- Every register outside the addresses listed reads as before. -/
def RegsKept (stored : List Addr) (e e' : Env) : Prop :=
  ∀ a : Nat, a ∉ stored.map BitVec.toNat → envReg e' a = envReg e a

/-- The bytes an action moves over the bus or puts on a pin: what 42_radio_init_config.md R205 calls a bus transaction or
a pin write. -/
def Action.touchesChip : Action → Bool
  | .xread _ _ | .xwrite _ _ | .burstRead _ _ | .burstWrite _ _ | .pinReset _ => true
  | .wait _ | .armOneShot _ _ | .armPeriodic _ | .cancelSafety _ | .cancelBackground => false
  | .notify _ | .respond _ => false

/-- An action is the answer to a command. -/
def Action.isResponse : Action → Bool
  | .respond _ => true
  | _ => false

/-! ### Actions and the environment's reaction to them -/

/-- What one action leaves on the outputs: the history grows by it; a single-register transaction that got its answer is
in XBUF (10_state.md R37); a pin write sets the RESET line. -/
def Io.one (io : Io) : Action → Io
  | .xread a (.byte v) => { io with xbufAddr := a, xbufData := v, trace := io.trace ++ [.xread a (.byte v)] }
  | .xwrite a v => { io with xbufAddr := a, xbufData := v, trace := io.trace ++ [.xwrite a v] }
  | .pinReset level => { io with resetLine := level, trace := io.trace ++ [.pinReset level] }
  | x => { io with trace := io.trace ++ [x] }

/-- What a sequence of actions leaves on the outputs, in order (20_memory.md R71). -/
def Io.ran (io : Io) : List Action → Io
  | [] => io
  | x :: xs => (io.one x).ran xs

/-- The environment `e` takes these actions, answers the reads among them with the values they carry, and is then `e'`
(00_scope.md R9, 20_memory.md R60). Reads are those outside a poll. -/
def BusRun (p : Params) (e : Env) : List Action → Env → Prop
  | [], e' => e' = e
  | .xread a r :: xs, e' => (readAnswer false p a e).1 = r ∧ BusRun p (readAnswer false p a e).2 xs e'
  | .xwrite a v :: xs, e' => BusRun p (writeEffect p a v e) xs e'
  | .burstRead a bs :: xs, e' => allBytes (readMany p a bs.length e).1 = some bs ∧ BusRun p (readMany p a bs.length e).2 xs e'
  | .burstWrite a bs :: xs, e' => BusRun p (writeMany p a bs e) xs e'
  | _ :: xs, e' => BusRun p e xs e'

/-- The reads of a timed poll of register `a` over the turns a draw holds: the answers, in order, and the environment
after them (42_radio_init_config.md R186, R197). -/
def pollAnswers (p : Params) (a : Addr) : List PollRead → Env → List BusAnswer × Env
  | [], e => ([], e)
  | d :: ds, e =>
    let r := turnAnswer p a d.answer e
    let rs := pollAnswers p a ds r.2
    (r.1 :: rs.1, rs.2)

/-- `n` reads of the version register inside its poll (42_radio_init_config.md R183). -/
def versionAnswers (p : Params) : Nat → Env → List BusAnswer × Env
  | 0, e => ([], e)
  | n + 1, e =>
    let r := readAnswer true p p.xr.version e
    let rs := versionAnswers p n r.2
    (r.1 :: rs.1, rs.2)

/-- A read of a poll saw its condition; a bus error sees nothing. -/
def seen (done : Byte → Bool) : BusAnswer → Bool
  | .byte v => done v
  | .error => false

/-- A turn after which a poll goes on: the condition is not seen and the budget not spent (R186, R197). -/
def pollGoesOn (done : Byte → Bool) (t0 : U32) (budget : Nat) (d : PollRead) (r : BusAnswer) : Prop :=
  seen done r = false ∧ (d.tick - t0).toNat < budget

/-- The reads of a poll as actions. -/
def readsOf (a : Addr) (rs : List BusAnswer) : List Action := rs.map (Action.xread a)

/-- A poll of register `a` that starts in environment `e` makes the reads `rs`, leaves `e'`, and sees its condition at the
last of them. -/
def PollSees (p : Params) (a : Addr) (done : Byte → Bool) (budget : Nat) (e : Env) (rs : List BusAnswer) (e' : Env) : Prop :=
  ∃ pre x post, (nextPoll e).1.first :: (nextPoll e).1.rest = pre ++ x :: post ∧
    pollAnswers p a (pre ++ [x]) (nextPoll e).2 = (rs, e') ∧
    List.Forall₂ (pollGoesOn done (nextPoll e).1.t0 budget) pre rs.dropLast ∧ (rs.getLast?.map (seen done)) = some true

/-- A poll of register `a` that starts in environment `e` makes the reads `rs`, leaves `e'`, never sees its condition, and
ends with its budget spent or with the last turn the environment draws (log 7). -/
def PollMisses (p : Params) (a : Addr) (done : Byte → Bool) (budget : Nat) (e : Env) (rs : List BusAnswer) (e' : Env) :
    Prop :=
  ∃ pre x post, (nextPoll e).1.first :: (nextPoll e).1.rest = pre ++ x :: post ∧
    pollAnswers p a (pre ++ [x]) (nextPoll e).2 = (rs, e') ∧
    List.Forall₂ (pollGoesOn done (nextPoll e).1.t0 budget) pre rs.dropLast ∧ (rs.getLast?.map (seen done)) = some false ∧
    (budget ≤ (x.tick - (nextPoll e).1.t0).toNat ∨ post = [])

/-! ### The varint code in arithmetic (30_encoding.md R91, 40_varint.md R131) -/

/-- The unsigned code of a run of bytes: 7-bit groups, most significant first, modulo 2^32. -/
def varintCode (bs : List Byte) : Nat := bs.foldl (fun a b => 128 * a + b.toNat % 128) 0 % 2 ^ 32

/-- The signed value of a code: an even code is twice the value, an odd one minus twice the value minus 1. -/
def varintValue (u : Nat) : Int := if u % 2 = 0 then (u / 2 : Nat) else -(((u + 1) / 2 : Nat) : Int)

/-- A byte without the terminator bit (R90). -/
def unterminated (b : Byte) : Prop := b.getLsbD 7 = false

/-- A conformant minimal encoding of one value (R111, 40_varint.md R136): 1 to 5 bytes, only the last one terminated, no
leading zero group unless it is the only one, the first of five at most 0x0F. -/
def MinimalVarint (b : List Byte) : Prop :=
  ∃ pre z, b = pre ++ [z] ∧ (∀ x ∈ pre, unterminated x) ∧ z.getLsbD 7 = true ∧ b.length ≤ 5 ∧
    (∀ y, pre.head? = some y → y ≠ 0 ∧ (b.length = 5 → y.toNat ≤ 0x0F))

/-! ### The packet record on the wire to the host (30_encoding.md R104) -/

/-- A number in `n` bytes, most significant first (20_memory.md R66). -/
def bigEndian (n v : Nat) : List Byte := (List.range n).map fun k => BitVec.ofNat 8 (v / 256 ^ (n - 1 - k))

/-- A packet record byte by byte, as R104 lays it out and in its order: the flags, with bit 7 zero; type; node; pay_off,
pay_len, data_off, ndata; the data values; rmargin; rfei; and, when flag bit 6 is set, rssi, margin and fei. A node or a
trailer whose presence flag is 0 is sent as zeros. -/
def recordLayout (pk : Packet) : List Byte :=
  [BitVec.ofNat 8 (pk.ver.toNat + 2 * pk.isAck.toNat + 4 * pk.fromGw.toNat + 8 * pk.wantAck.toNat + 16 * pk.nodeV.toNat +
    32 * pk.trlV.toNat + 64 * pk.lqV.toNat)] ++
  bigEndian 1 pk.type.toNat ++ bigEndian 4 (if pk.nodeV then pk.node.toNat else 0) ++
  [pk.payOff, pk.payLen, pk.dataOff, BitVec.ofNat 8 pk.data.length] ++ pk.data.flatMap (fun v => bigEndian 4 v.toNat) ++
  bigEndian 1 (if pk.trlV then pk.rmargin.toNat else 0) ++ bigEndian 4 (if pk.trlV then pk.rfei.toNat else 0) ++
  if pk.lqV then bigEndian 2 pk.rssi.toNat ++ [pk.margin] ++ bigEndian 4 pk.fei.toNat else []

/-! ### Groups of instructions and of registers -/

/-- The commands R287 admits in READY only, with the options, which run as a CONFIGURE (log 13), and the FIFO frame, which
runs as a WRITE (log 11). -/
def radioOnly : Instr → Bool
  | .configure _ | .write _ _ _ | .read _ _ | .close | .recv _ _ _ _ | .rxrssi | .rxlna | .rxafc | .rxmargin => true
  | i => i.format == .cfgOption || i.format == .fifoFrame

/-- A command: a row that is answered (30_encoding.md R103), the rows that run as one when alone among them (log 11, log 13). -/
def isCommand (i : Instr) : Bool := i.format == .hostCommand || i.format == .cfgOption || i.format == .fifoFrame

/-- WRITE, in either spelling: the one operation that writes XR_FIFO (20_memory.md R64; the frame alone: log 11). -/
def isWrite : Instr → Bool
  | .write _ _ _ => true
  | i => i.format == .fifoFrame

/-- READ, alone or inside RECV: the operation that reads XR_FIFO in one transfer (20_memory.md R64). -/
def isRead : Instr → Bool
  | .read _ _ | .recv _ _ _ _ => true
  | _ => false

/-- No other register name, no offset of XR_SYNCVALUE, neither the scratch register nor a pair of INIT_TABLE is XR_FIFO
(20_memory.md R62, R64). -/
def fifoApart (p : Params) : Bool :=
  decide p.xr.all.Nodup && p.xr.syncvalue + 1 != p.xr.fifo && p.xr.syncvalue + 2 != p.xr.fifo &&
  p.scratchAddr != p.xr.fifo && p.initTable.all fun w => w.1 != p.xr.fifo

/-- The command is admitted in this LIFE state (60_exceptions.md R287). -/
def admittedIn (i : Instr) (l : Life) : Bool :=
  match i with
  | .init _ => l != .ready
  | i => !radioOnly i || l == .ready

/-- The option of a body that is applied first, as the row that names it, and the body without it: ascending mask bits
(42_radio_init_config.md R189). -/
def firstOption (c : CfgBody) : Option (Instr × CfgBody) :=
  match c with
  | { freq := some f, .. } => some (.cfgFreq f, { c with freq := none })
  | { bitrate := some b, .. } => some (.cfgBitrate b, { c with bitrate := none })
  | { fdev := some f, .. } => some (.cfgFdev f, { c with fdev := none })
  | { rxbw := some h, .. } => some (.cfgRxbw h, { c with rxbw := none })
  | { afcbw := some h, .. } => some (.cfgAfcbw h, { c with afcbw := none })
  | { preamble := some v, .. } => some (.cfgPreamble v, { c with preamble := none })
  | { sync := some b, .. } => some (.cfgSync b, { c with sync := none })
  | { pktlen := some x, .. } => some (.cfgPktlen x.1 x.2, { c with pktlen := none })
  | { rxcont := some f, .. } => some (.cfgRxcont f, { c with rxcont := none })
  | _ => none

/-- The transceiver registers the options write (42_radio_init_config.md R191 to R198). -/
def configRegs (p : Params) : List Addr :=
  [p.xr.frfMsb, p.xr.frfMid, p.xr.frfLsb, p.xr.imagecal, p.xr.bitrateMsb, p.xr.bitrateLsb, p.xr.fdevMsb, p.xr.fdevLsb,
   p.xr.rxbw, p.xr.afcbw, p.xr.preambleMsb, p.xr.preambleLsb, p.xr.syncvalue, p.xr.syncvalue + 1, p.xr.syncvalue + 2,
   p.xr.syncconfig]

/-- The transceiver registers INIT writes (R180): the scratch register, the table's, the options' and XR_OPMODE. -/
def initRegs (p : Params) : List Addr := p.scratchAddr :: p.xr.opmode :: p.initTable.map Prod.fst ++ configRegs p

/-- What INIT's first two steps leave (R180): flags and valid bits cleared, MODE = STANDBY; the rest as it was. -/
def constructing (s : State) : State :=
  { s with
    ctl := { s.ctl with mode := .standby, txbusy := false, rxPend := false }
    rx := { s.rx with valid := false }
    trk := { s.trk with lastAfcV := false }
    tmr := { s.tmr with safetyArmed := false }
    cfg := { s.cfg with
      freqV := false, bitrateV := false, fdevV := false, rxbwV := false, afcbwV := false, preambleV := false,
      syncV := false, pktlenV := false, rxcontV := false } }

/-- The reset pulse as actions (R180 step 2). -/
def pulse : List Action := [.pinReset false, .wait 10, .pinReset true, .wait 10]

/-- Failed tries of the version poll, each followed by its wait (R183). -/
def failedTries (p : Params) (bad : List BusAnswer) : List Action := bad.flatMap fun r => [.xread p.xr.version r, .wait 2]

/-- A state in which a construction failed (R181). -/
def Unusable (t : State) : Prop :=
  t.ctl.life = .failed ∧ t.ctl.mode = .standby ∧ t.ctl.txbusy = false ∧ t.ctl.rxPend = false ∧ t.rx.valid = false ∧
  t.trk.lastAfcV = false ∧ t.tmr.safetyArmed = false ∧ t.tmr.bgArmed = false ∧ t.tmr.dioEn = false ∧
  t.cfg.freqV = false ∧ t.cfg.bitrateV = false ∧ t.cfg.fdevV = false ∧ t.cfg.rxbwV = false ∧ t.cfg.afcbwV = false ∧
  t.cfg.preambleV = false ∧ t.cfg.syncV = false ∧ t.cfg.pktlenV = false ∧ t.cfg.rxcontV = false

/-- The actions that only move bytes of the bus. -/
def Action.isBusRead : Action → Bool
  | .xread _ _ | .burstRead _ _ => true
  | _ => false

def Action.isBusWrite : Action → Bool
  | .xwrite _ _ | .burstWrite _ _ => true
  | _ => false

/-- A transaction, single or bulk, that removes bytes from XR_FIFO. -/
def Action.readsFifo (p : Params) : Action → Bool
  | .xread a _ | .burstRead a _ => a == p.xr.fifo
  | _ => false

/-- A transaction, single or bulk, that appends bytes to XR_FIFO. -/
def Action.writesFifo (p : Params) : Action → Bool
  | .xwrite a _ | .burstWrite a _ => a == p.xr.fifo
  | _ => false

/-- A notification to the host. -/
def Action.isNotification : Action → Bool
  | .notify _ => true
  | _ => false

/-- A blocking wait, which application context alone may make (60_exceptions.md R297). -/
def Action.isWait : Action → Bool
  | .wait _ => true
  | _ => false

/-- A safety timer that is pending is cancelled (43_radio_rx_tx.md R222, R228). -/
def cancelled (s : State) : List Action := if s.tmr.safetyArmed then [.cancelSafety s.tmr.safetyHandle] else []

/-! ### Invariants -/

/-- Outside LIFE = READY nothing runs (R245); inside it the callbacks and the background timer do (10_state.md R30). -/
def LifecycleInv (s : State) : Prop :=
  (s.ctl.life ≠ .ready →
    s.ctl.txbusy = false ∧ s.ctl.rxPend = false ∧ s.tmr.safetyArmed = false ∧ s.tmr.bgArmed = false ∧
      s.tmr.dioEn = false) ∧
  (s.ctl.life = .ready → s.tmr.bgArmed = true ∧ s.tmr.dioEn = true)

/-- MODE is never FSRX, and TRANSMIT only with a transmission in flight (R245). -/
def ModeInv (s : State) : Prop := s.ctl.mode ≠ .fsrx ∧ (s.ctl.mode = .transmit → s.ctl.txbusy = true)

/-- The range of the background estimate after a construction (R263). -/
def TrackerInv (s : State) : Prop :=
  s.ctl.life = .ready ∨ s.ctl.life = .closed → 2240 ≤ s.trk.bgRssi.toNat ∧ s.trk.bgRssi.toNat ≤ 3215

/-- A pending safety timer holds the handle drawn last (10_state.md R29). -/
def HandleInv (s : State) : Prop := s.tmr.safetyArmed = true → s.tmr.safetySeq = s.tmr.safetyHandle + 1

/-- The legal values of the configuration registers (10_state.md R31), each under its valid bit. -/
def CfgRegs.Legal (c : CfgRegs) : Prop :=
  (c.freqV = true → 100000000 ≤ c.freq.toNat ∧ c.freq.toNat ≤ 1023999969 ∧ 1638400 ≤ c.frf.toNat) ∧
  (c.bitrateV = true → 489 ≤ c.bitrate.toNat ∧ c.bitrate.toNat ≤ 32000000 ∧ 1 ≤ c.brreg.toNat ∧ c.brreg.toNat ≤ 65440) ∧
  (c.fdevV = true → c.fdev.toNat ≤ 999969) ∧
  (c.rxbwV = true → c.rxbw.toNat ≤ 20) ∧
  (c.afcbwV = true → c.afcbw.toNat ≤ 20) ∧
  (c.syncV = true → 1 ≤ c.synclen.toNat)

def ConfigInv (s : State) : Prop := s.cfg.Legal

/-- The register memory of the reference transceiver is in its canonical form. -/
def MemoryInv (s : State) : Prop := ∀ x, s.env.refx = some x → Memory.wf x.regs = true

/-- All of them together: what every step keeps. -/
structure Inv (s : State) : Prop where
  lifecycle : LifecycleInv s
  mode : ModeInv s
  tracker : TrackerInv s
  handle : HandleInv s
  config : ConfigInv s
  memory : MemoryInv s

end Sys2Proof.Machine
end

