-- ==== Sys2Proof/Certificates/Slice0/Obligations.lean ====
section
/-! DEFINITION. The statements for the provers. Each docstring names the rule of spec/ it formalises, and the log entry where
a clause is the model's own choice. -/

section

open Sys2Proof Sys2Proof.Machine

/-! ### Encodings and the step -/

/-- Decoding an encoded well-formed instruction, of every format, gives it back (30_encoding.md R90 to R109). -/
def Obligations.DecodeEncode : Prop := ∀ i : Instr, i.wf = true → decode i.format (encode i) = .ok i

/-- A frame of any format that decodes is the encoding of what it decodes to, and that is well formed: no two frames stand
for one instruction, and no malformed frame decodes (30_encoding.md R109). -/
def Obligations.EncodeDecode : Prop :=
  ∀ (f : Format) (bs : List Byte) (i : Instr), decode f bs = .ok i → i.wf = true ∧ i.format = f ∧ encode i = bs

/-- At least one frame of each of the eleven formats, written out from the tables of R90 to R107. The two frames that hold a
lone option are a format of the model's own (log 13). -/
def Obligations.SampleWords : Prop :=
  decode .hostCommand [0x06, 0x00, 0x00, 0x01, 0x06] = .ok (.recv false 0 true 6) ∧
  decode .hostCommand [0x22, 0x00, 0x00, 0x03, 0xE8] = .ok (.venc 1000) ∧
  decode .cfgOption [0x00, 0x40, 0x02, 0xAA, 0x2D] = .ok (.cfgSync [0xAA, 0x2D]) ∧
  decode .cfgOption [0x02, 0x00] = .ok (.cfgReserved 0x0200 []) ∧
  decode .event [0x82, 0x01, 0x02] = .ok (.evSafety 0x0102) ∧
  decode .notification [0xC2, 0x03, 0x00, 0x02] = .ok (.nDiag 3 2) ∧
  decode .response [0x86, 0x00, 0xFF] = .ok (.rspExc .badArg 0xFF) ∧
  decode .varintByte [0xD0] = .ok (.varintLast 80) ∧
  decode .packetHeader [0xC8, 0x12, 0x34, 0x56, 0x78, 0x91, 0x82]
    = .ok (.pktV2 3 false false true 0 0x12345678 true 17 [0x82]) ∧
  decode .packetHeader [0xC0, 0x3D, 0x01, 0x84] = .ok (.pktV1Node 3 false false false 1 [0x84]) ∧
  decode .packetHeader [0x3D, 0x80, 0x00] = .ok (.pktV1Gw 0 true false false 0 []) ∧
  decode .packetTrailer [0x2A, 0xFE] = .ok (.pktTrailer 0 42 0xFE) ∧
  decode .syncWord [0xAA, 0x2D, 0x06] = .ok (.syncword 6) ∧
  decode .byte0 [0x80] = .ok (.parity true false 0) ∧
  decode .fifoFrame [0x02, 0xC8, 0x05] = .ok (.fifoframe [0xC8, 0x05])

/-- A step runs the instruction its first item decodes to, on the state without that item (the inbox is the model's, log 1). -/
def Obligations.StepRunsDecoded : Prop :=
  ∀ (s : State) (f : Format) (bytes : List Byte) (rest : List Item) (i : Instr),
    s.inbox = .frame f bytes :: rest → decode f bytes = .ok i → step s = exec i { s with inbox := rest }

/-- With nothing pending the block idles (60_exceptions.md R298); the block reset input puts every state element at its
reset value, drives RESET to 1, and touches nothing outside the block (70_reset_and_hazards.md R310). The inbox, the history,
the RESET line as a field, and the value 0 of a register whose reset value is unspecified, are the model's (log 1, log 4,
log 17, log 20, log 23). -/
def Obligations.StepIdleOrReset : Prop :=
  (∀ s : State, s.inbox = [] → step s = .next s) ∧
  (∀ (s : State) (rest : List Item), s.inbox = .blockReset :: rest →
    step s = .next { State.reset with
      env := s.env, inbox := rest, params := s.params, io := { Io.reset with trace := s.io.trace } }) ∧
  State.reset.io.resetLine = true ∧ State.reset.io.trace = []

/-- A host frame that does not decode executes nothing: it is answered E_NOT_READY where its opcode is one LIFE
refuses, E_BAD_ARG with 0xFF otherwise (30_encoding.md R109, 60_exceptions.md R284, R285, R287). The inbox and the answer
to an empty frame are the model's (log 1, log 18). -/
def Obligations.MalformedAnswered : Prop :=
  ∀ (s : State) (frame : List Byte) (rest : List Item) (e : DecodeError),
    s.inbox = .frame .hostCommand frame :: rest → decode .hostCommand frame = .error e →
    let u : State := { s with inbox := rest }
    let code : U16 := match s.ctl.life with | .uninit => 0 | .ready => 1 | .failed => 2 | .closed => 3
    let refused : Bool :=
      match frame.head? with
      | some op =>
        (op == 0x01 && s.ctl.life == .ready) ||
          (op ∈ ([0x02, 0x03, 0x04, 0x05, 0x06, 0x10, 0x11, 0x12, 0x13] : List Byte) && s.ctl.life != .ready)
      | none => false
    step s = .next (u.emit (.respond (if refused then .exc .notReady code else .exc .badArg 0xFF)))

/-! ### Varints -/

/-- VDEC1 (40_varint.md R131): the bytes up to the first terminator give the value, their count is the count consumed; a
buffer without a terminator gives NONE with consumed = 0. VACC and VCNT end as the loop leaves them; BUF, VDONE and VVAL are
kept by the model (log 14, log 16). -/
def Obligations.Vdec1Result : Prop :=
  (∀ (s : State) (pre post : List Byte) (z : Byte), (∀ x ∈ pre, unterminated x) → z.getLsbD 7 = true →
    let u := varintCode (pre ++ [z])
    let v := BitVec.ofInt 32 (varintValue u)
    exec (.vdec1 (pre ++ z :: post)) s = .next (State.emit
      { s with codec := { s.codec with
          buf := pre ++ z :: post, vacc := BitVec.ofNat 32 u, vcnt := BitVec.ofNat 9 (pre.length + 1), vdone := true,
          vval := v } }
      (.respond (.ok (bytes32 v ++ [BitVec.ofNat 8 (pre.length + 1)]))))) ∧
  ∀ (s : State) (buf : List Byte), (∀ x ∈ buf, unterminated x) →
    exec (.vdec1 buf) s = .next (State.emit
      { s with codec := { s.codec with
          buf := buf, vacc := BitVec.ofNat 32 (varintCode buf), vcnt := BitVec.ofNat 9 buf.length, vdone := true } }
      (.respond (.noResult [0])))

/-- VENC (40_varint.md R135): the answer is the minimal conformant encoding whose value is the operand, its length the one
the operand's range gives; nothing else changes. -/
def Obligations.VencResult : Prop :=
  ∀ (s : State) (v : U32), ∃ bs : List Byte,
    exec (.venc v) s = .next (s.emit (.respond (.ok (BitVec.ofNat 8 bs.length :: bs)))) ∧
    MinimalVarint bs ∧ varintValue (varintCode bs) = v.toInt ∧
    bs.length =
      (if -64 ≤ v.toInt ∧ v.toInt ≤ 63 then 1 else if -8192 ≤ v.toInt ∧ v.toInt ≤ 8191 then 2
      else if -1048576 ≤ v.toInt ∧ v.toInt ≤ 1048575 then 3
      else if -134217728 ≤ v.toInt ∧ v.toInt ≤ 134217727 then 4 else 5)

/-- The round-trip laws (40_varint.md R136): VDEC1 undoes VENC, VDECALL undoes a concatenation of encodings, VENC undoes
VDEC1 on minimal buffers, VENC is injective, VDEC1 is not. What the codec registers hold afterwards is left open here. -/
def Obligations.VarintRoundTrips : Prop :=
  (∀ (s : State) (v : U32), ∃ c : Codec,
    exec (.vdec1 (venc v)) s =
      .next (State.emit { s with codec := c } (.respond (.ok (bytes32 v ++ [BitVec.ofNat 8 (venc v).length]))))) ∧
  (∀ (s : State) (vs : List U32), (vs.flatMap venc).length ≤ 255 → ∃ c : Codec,
    exec (.vdecall (vs.flatMap venc)) s =
      .next (State.emit { s with codec := c } (.respond (.ok (BitVec.ofNat 8 vs.length :: vs.flatMap bytes32))))) ∧
  (∀ (s : State) (b : List Byte), MinimalVarint b → ∃ (v : U32) (c : Codec),
    exec (.vdec1 b) s =
      .next (State.emit { s with codec := c } (.respond (.ok (bytes32 v ++ [BitVec.ofNat 8 b.length])))) ∧ venc v = b) ∧
  (∀ v w : U32, venc v = venc w → v = w) ∧
  (vdec1 [0x00, 0x82]).value = (vdec1 [0x82]).value

/-- VDECALL (40_varint.md R133): of a buffer cut into runs that each end at their only terminator, and a tail without one,
the answer holds the values of the runs in order; the tail is dropped without a signal. -/
def Obligations.VdecallResult : Prop :=
  ∀ (s : State) (runs : List (List Byte)) (tail : List Byte),
    (∀ r ∈ runs, ∃ pre z, r = pre ++ [z] ∧ (∀ x ∈ pre, unterminated x) ∧ z.getLsbD 7 = true) →
    (∀ x ∈ tail, unterminated x) →
    let values := runs.map fun r => BitVec.ofInt 32 (varintValue (varintCode r))
    ∃ (acc : U32) (cnt : BitVec 9),
      exec (.vdecall (runs.flatten ++ tail)) s = .next (State.emit
        { s with codec := { s.codec with
            buf := runs.flatten ++ tail, vacc := acc, vcnt := cnt, vdone := true,
            vval := values.getLast?.getD s.codec.vval } }
        (.respond (.ok (BitVec.ofNat 8 values.length :: values.flatMap bytes32))))

/-- The length law (40_varint.md R134): for every buffer, as many values as bytes with bit 7 set. -/
def Obligations.VdecallLength : Prop :=
  ∀ (s : State) (buf : List Byte), ∃ (c : Codec) (values : List U32),
    exec (.vdecall buf) s =
      .next (State.emit { s with codec := c } (.respond (.ok (BitVec.ofNat 8 values.length :: values.flatMap bytes32)))) ∧
    values.length = buf.countP fun b => b.getLsbD 7

/-- One byte through the datapath (30_encoding.md R90, R91, 10_state.md R33): the accumulator, cleared where a value
starts, takes the group; a terminated byte ends the value. Running a byte alone, VDONE and VVAL are the model's (log 11,
log 16). -/
def Obligations.VarintByteRows : Prop :=
  ∀ (s : State) (g : BitVec 7),
    let old : Nat := if s.codec.vdone then 0 else s.codec.vacc.toNat
    let u : Nat := (128 * old + g.toNat) % 2 ^ 32
    let c : Codec := { s.codec with
      vacc := BitVec.ofNat 32 u, vcnt := BitVec.ofNat 9 ((if s.codec.vdone then 0 else s.codec.vcnt.toNat) + 1) }
    exec (.varintGroup g) s = .next { s with codec := { c with vdone := false } } ∧
    exec (.varintLast g) s =
      .next { s with codec := { c with vdone := true, vval := BitVec.ofInt 32 (varintValue u) } }

/-! ### Packets -/

/-- The parity of a group (41_packet_codec.md R161): bit 7 is `g5 ^ g3 ^ g1`, bit 6 is `g4 ^ g2 ^ g0`, the rest 0; that of
group 6 is 0xC0. -/
def Obligations.ParityFunction : Prop :=
  (∀ g : Byte, g.toNat ≤ 63 →
    groupParity g = BitVec.ofBool (g.getLsbD 5 ^^ g.getLsbD 3 ^^ g.getLsbD 1) ++
      BitVec.ofBool (g.getLsbD 4 ^^ g.getLsbD 2 ^^ g.getLsbD 0) ++ (0 : BitVec 6)) ∧
  groupParity 6 = 0xC0

/-- GENSYNC (41_packet_codec.md R160): the sync bytes and the parity of a group up to 63; any other is refused. -/
def Obligations.GensyncResult : Prop :=
  ∀ (s : State) (g : Byte),
    exec (.gensync g) s =
      if g.toNat ≤ 63 then
        .next (State.emit { s with codec := { s.codec with sy := ⟨0xAA, 0x2D, g, groupParity g⟩ } }
          (.respond (.ok [0xAA, 0x2D, g, groupParity g])))
      else .next (s.emit (.respond (.exc .badArg 0xFF)))

/-- PARCHK (41_packet_codec.md R162): 1 where the top two bits of byte 0 are the group's parity; a group above 63 is
refused; for any byte the check passes for 16 of the 64 groups. -/
def Obligations.ParchkResult : Prop :=
  (∀ (s : State) (g b : Byte),
    exec (.parchk g b) s =
      if g.toNat ≤ 63 then .next (s.emit (.respond (.ok [if b &&& 0xC0 = groupParity g then 1 else 0])))
      else .next (s.emit (.respond (.exc .badArg 0xFF)))) ∧
  ∀ b : Byte, ((List.range 64).filter fun g => b &&& 0xC0 == groupParity (BitVec.ofNat 8 g)).length = 16

/-- PDEC before its decoders (41_packet_codec.md R150): a group above 63 under `chk` is refused; a buffer under 3 bytes or
with another parity gives NONE and leaves PK as it was (log 14). -/
def Obligations.PdecNoResult : Prop :=
  ∀ (s : State) (chk : Bool) (g : Byte) (buf : List Byte),
    (chk = true ∧ 63 < g.toNat → exec (.pdec chk g buf) s = .next (s.emit (.respond (.exc .badArg 0xFF)))) ∧
    (¬(chk = true ∧ 63 < g.toNat) ∧
      (buf.length < 3 ∨ (chk = true ∧ ∃ b0 tl, buf = b0 :: tl ∧ b0 &&& 0xC0 ≠ groupParity g)) →
      exec (.pdec chk g buf) s = .next (State.emit
        { s with codec := { s.codec with buf := buf, vacc := 0, vcnt := 0, vdone := true } }
        (.respond (.noResult []))))

/-- PDEC of a buffer that is not V1 (41_packet_codec.md R151, R155 to R158): too short, NONE; else the record field by
field, the data region through VDECALL's decoder, the trailer's frequency error as sext(byte) × 128; the answer is the record byte by
byte as 30_encoding.md R104 lays it out. VACC and VCNT are left
open; BUF and PK stay in the datapath (log 14). -/
def Obligations.PdecV2Result : Prop :=
  ∀ (s : State) (chk : Bool) (g b0 b1 b2 : Byte) (rest : List Byte),
    (chk = true → g.toNat ≤ 63 ∧ b0 &&& 0xC0 = groupParity g) →
    ¬((b0 &&& 0x3F = 0 ∧ b1 &&& 0x3F = 61) ∨ (b0 &&& 0x3F = 61 ∧ b1 &&& 0x3F = 0)) →
    let buf := b0 :: b1 :: b2 :: rest
    (rest.length < 3 ∨ (∃ b3 b4 b5 pay, rest = b3 :: b4 :: b5 :: pay ∧ b5.getLsbD 7 = true ∧ pay.length < 2) →
      ∃ (acc : U32) (cnt : BitVec 9), exec (.pdec chk g buf) s = .next (State.emit
        { s with codec := { s.codec with buf := buf, vacc := acc, vcnt := cnt, vdone := true } }
        (.respond (.noResult [])))) ∧
    ∀ (b3 b4 b5 : Byte) (pay : List Byte), rest = b3 :: b4 :: b5 :: pay → (b5.getLsbD 7 = true → 2 ≤ pay.length) →
      let e := if b5.getLsbD 7 then pay.length - 2 else pay.length
      let pk : Packet :=
        { ver := true, isAck := b0.getLsbD 5 && !b0.getLsbD 3, fromGw := b0.getLsbD 4,
          wantAck := !b0.getLsbD 5 && b0.getLsbD 3, type := b5.extractLsb' 0 7, nodeV := true, node := b1 ++ b2 ++ b3 ++ b4,
          payOff := 6, payLen := BitVec.ofNat 8 e, dataOff := 6, data := (vdecAll (pay.take e)).values,
          trlV := b5.getLsbD 7, rmargin := if b5.getLsbD 7 then (pay.getD e 0).extractLsb' 0 6 else 0,
          rfei := if b5.getLsbD 7 then BitVec.ofInt 32 (128 * (pay.getD (e + 1) 0).toInt) else 0,
          lqV := false, rssi := 0, margin := 0, fei := 0 }
      ∃ (acc : U32) (cnt : BitVec 9), exec (.pdec chk g buf) s = .next (State.emit
        { s with codec := { s.codec with buf := buf, pk := pk, vacc := acc, vcnt := cnt, vdone := true } }
        (.respond (.ok (recordLayout pk))))

/-- PDEC of a V1 buffer from a gateway (41_packet_codec.md R151, R152, R154, R157, R158): fromGW and isAck set, no node id,
the whole payload is data; the answer is the record as 30_encoding.md R104 lays it out. VACC and VCNT are left open; BUF and PK stay in the datapath (log 14). -/
def Obligations.PdecV1GatewayResult : Prop :=
  ∀ (s : State) (chk : Bool) (g b0 b1 b2 : Byte) (pay : List Byte),
    (chk = true → g.toNat ≤ 63 ∧ b0 &&& 0xC0 = groupParity g) → b0 &&& 0x3F = 61 → b1 &&& 0x3F = 0 →
    let buf := b0 :: b1 :: b2 :: pay
    let trailer := b2.getLsbD 7
    let e := if trailer then pay.length - 2 else pay.length
    let pk : Packet :=
      { ver := false, isAck := true, fromGw := true, wantAck := b1.getLsbD 7, type := b2.extractLsb' 0 7, nodeV := false,
        node := 0, payOff := 3, payLen := BitVec.ofNat 8 e, dataOff := 3, data := (vdecAll (pay.take e)).values,
        trlV := trailer, rmargin := if trailer then (pay.getD e 0).extractLsb' 0 6 else 0,
        rfei := if trailer then BitVec.ofInt 32 (128 * (pay.getD (e + 1) 0).toInt) else 0,
        lqV := false, rssi := 0, margin := 0, fei := 0 }
    ∃ (acc : U32) (cnt : BitVec 9), exec (.pdec chk g buf) s =
      if trailer = true ∧ pay.length < 2 then
        .next (State.emit { s with codec := { s.codec with buf := buf, vacc := acc, vcnt := cnt, vdone := true } }
          (.respond (.noResult [])))
      else
        .next (State.emit
          { s with codec := { s.codec with buf := buf, pk := pk, vacc := acc, vcnt := cnt, vdone := true } }
          (.respond (.ok (recordLayout pk))))

/-- PDEC of a V1 buffer from a node (41_packet_codec.md R152, R154, R157, R158): with more than one payload byte the payload
begins with the node id as a varint of at most 5 bytes; longer, the decode has no result; without a terminator, or with
one byte or none, the node is absent; the answer is the record as 30_encoding.md R104 lays it out. VACC and VCNT are left open; BUF and PK stay in the datapath (log 14). -/
def Obligations.PdecV1NodeResult : Prop :=
  ∀ (s : State) (chk : Bool) (g b0 b1 b2 : Byte) (pay : List Byte),
    (chk = true → g.toNat ≤ 63 ∧ b0 &&& 0xC0 = groupParity g) → b0 &&& 0x3F = 0 → b1 &&& 0x3F = 61 →
    let buf := b0 :: b1 :: b2 :: pay
    let trailer := b2.getLsbD 7
    let e := if trailer then pay.length - 2 else pay.length
    let pk : Packet :=
      { ver := false, isAck := false, fromGw := false, wantAck := b1.getLsbD 7, type := b2.extractLsb' 0 7, nodeV := false,
        node := 0, payOff := 3, payLen := BitVec.ofNat 8 e, dataOff := 3, data := (vdecAll (pay.take e)).values,
        trlV := trailer, rmargin := if trailer then (pay.getD e 0).extractLsb' 0 6 else 0,
        rfei := if trailer then BitVec.ofInt 32 (128 * (pay.getD (e + 1) 0).toInt) else 0,
        lqV := false, rssi := 0, margin := 0, fei := 0 }
    let answers (pk : Packet) : Prop := ∃ (acc : U32) (cnt : BitVec 9),
      exec (.pdec chk g buf) s = .next (State.emit
        { s with codec := { s.codec with buf := buf, pk := pk, vacc := acc, vcnt := cnt, vdone := true } }
        (.respond (.ok (recordLayout pk))))
    let dropped : Prop := ∃ (acc : U32) (cnt : BitVec 9),
      exec (.pdec chk g buf) s = .next (State.emit
        { s with codec := { s.codec with buf := buf, vacc := acc, vcnt := cnt, vdone := true } }
        (.respond (.noResult [])))
    (trailer = true ∧ pay.length < 2 → dropped) ∧
    (¬(trailer = true ∧ pay.length < 2) → e ≤ 1 → answers pk) ∧
    (1 < e → (∀ x ∈ pay.take e, unterminated x) → answers pk ∧ pk.data = []) ∧
    ∀ (node : List Byte) (z : Byte) (region : List Byte), 1 < e → pay.take e = node ++ z :: region →
      (∀ x ∈ node, unterminated x) → z.getLsbD 7 = true →
      (node.length ≤ 4 → answers { pk with
        nodeV := true, node := BitVec.ofInt 32 (varintValue (varintCode (node ++ [z]))),
        dataOff := BitVec.ofNat 8 (4 + node.length), data := (vdecAll region).values }) ∧
      (5 ≤ node.length → dropped)

/-- PDEC of any buffer of at most 255 bytes (41_packet_codec.md R150, R159; 10_state.md R35) answers OK, NONE or E_BAD_ARG
and changes the datapath only; a record it answers is laid out as 30_encoding.md R104 says, has no link quality, its regions lie inside the buffer, and it holds at
most 252 values. That PK keeps its value where there is no record is the model's (log 14). -/
def Obligations.PdecSound : Prop :=
  ∀ (s : State) (chk : Bool) (g : Byte) (buf : List Byte), buf.length ≤ 255 →
    ∃ (c : Codec) (r : Response), exec (.pdec chk g buf) s = .next (State.emit { s with codec := c } (.respond r)) ∧
      c.sy = s.codec.sy ∧
      ((c.pk = s.codec.pk ∧ (r = .noResult [] ∨ r = .exc .badArg 0xFF)) ∨
       (r = .ok (recordLayout c.pk) ∧ c.pk.lqV = false ∧ c.pk.data.length ≤ 252 ∧
        c.pk.payOff.toNat + c.pk.payLen.toNat ≤ buf.length ∧ c.pk.payOff.toNat ≤ c.pk.dataOff.toNat ∧
        c.pk.dataOff.toNat ≤ c.pk.payOff.toNat + c.pk.payLen.toNat))

/-- The packet rows (30_encoding.md R94, R95): the codec reads a packet's own bytes as PDEC without a check reads them, and
the record it leaves holds the fields the row's encoding names, whatever the bits no decoder reads. Running such a row
alone is the model's (log 11, log 14). -/
def Obligations.PacketRows : Prop :=
  (∀ (s : State) (i : Instr), i.format = .packetHeader → ∃ (c : Codec) (r : Response),
    exec (.pdec false 0 (encode i)) s = .next (State.emit { s with codec := c } (.respond r)) ∧
    exec i s = .next { s with codec := c }) ∧
  (∀ (s : State) (p : BitVec 2) (w u tr : Bool) (t : BitVec 7) (rest : List Byte), (tr = true → 2 ≤ rest.length) →
    ∃ c : Codec, exec (.pktV1Gw p w u tr t rest) s = .next { s with codec := c } ∧ c.pk.ver = false ∧
      c.pk.fromGw = true ∧ c.pk.isAck = true ∧ c.pk.wantAck = w ∧ c.pk.type = t ∧ c.pk.nodeV = false ∧ c.pk.trlV = tr) ∧
  (∀ (s : State) (p : BitVec 2) (w u : Bool) (t : BitVec 7) (rest : List Byte), rest.length ≤ 1 →
    ∃ c : Codec, exec (.pktV1Node p w u false t rest) s = .next { s with codec := c } ∧ c.pk.ver = false ∧
      c.pk.fromGw = false ∧ c.pk.isAck = false ∧ c.pk.wantAck = w ∧ c.pk.type = t ∧ c.pk.nodeV = false ∧
      c.pk.trlV = false) ∧
  ∀ (s : State) (p : BitVec 2) (a1 gw a0 : Bool) (u : BitVec 3) (node : U32) (tr : Bool) (t : BitVec 7)
    (rest : List Byte), (Instr.pktV2 p a1 gw a0 u node tr t rest).wf = true → (tr = true → 2 ≤ rest.length) →
    ∃ c : Codec, exec (.pktV2 p a1 gw a0 u node tr t rest) s = .next { s with codec := c } ∧ c.pk.ver = true ∧
      c.pk.fromGw = gw ∧ c.pk.isAck = (a1 && !a0) ∧ c.pk.wantAck = (!a1 && a0) ∧ c.pk.type = t ∧ c.pk.nodeV = true ∧
      c.pk.node = node ∧ c.pk.trlV = tr

/-- The trailer row (30_encoding.md R96, 41_packet_codec.md R158), the sync word (R99, R160) and the parity byte (R98) set
the fields they carry and nothing else. Running such a row alone is the model's (log 11, log 14). -/
def Obligations.SignalRows : Prop :=
  (∀ (s : State) (u : BitVec 2) (m : BitVec 6) (f : Byte), exec (.pktTrailer u m f) s = .next
    { s with codec := { s.codec with pk := { s.codec.pk with
        trlV := true, rmargin := m, rfei := BitVec.ofInt 32 (128 * f.toInt) } } }) ∧
  (∀ (s : State) (g : BitVec 6), exec (.syncword g) s = .next
    { s with codec := { s.codec with sy := ⟨0xAA, 0x2D, g.zeroExtend 8, groupParity (g.zeroExtend 8)⟩ } }) ∧
  ∀ (s : State) (p q : Bool) (u : BitVec 6), exec (.parity p q u) s = .next
    { s with codec := { s.codec with sy := { s.codec.sy with
        parity := BitVec.ofBool p ++ BitVec.ofBool q ++ (0 : BitVec 6) } } }

/-! ### Configuration options. A row CFG.* given alone runs as a CONFIGURE with that one option (log 13). The outputs and
the environment after a step are those of the actions listed, in order. -/

/-- FREQ without calibration (42_radio_init_config.md R190, R191): the request is multiplied by 10 until at least 100 000 000,
divided by FSTEP and rounded half up, written MSB, MID, LSB; 0, and what does not fit 24 bits, is refused with nothing
written. -/
def Obligations.CfgFreqResult : Prop :=
  ∀ (s : State) (f : U32), s.ctl.life = .ready →
    (f = 0 → exec (.cfgFreq f) s = .next (s.emit (.respond (.exc .badArg 0)))) ∧
    ∀ k : Nat, (k = 0 ∨ f.toNat * 10 ^ (k - 1) < 100000000) → 100000000 ≤ f.toNat * 10 ^ k →
      let hz := f.toNat * 10 ^ k
      let frf := (hz * 512 + 15625) / 31250
      let acts := [Action.xwrite s.p.xr.frfMsb (BitVec.ofNat 8 (frf / 65536)),
        .xwrite s.p.xr.frfMid (BitVec.ofNat 8 (frf / 256)), .xwrite s.p.xr.frfLsb (BitVec.ofNat 8 frf)]
      (1023999969 < hz → exec (.cfgFreq f) s = .next (s.emit (.respond (.exc .badArg 0)))) ∧
      (hz ≤ 1023999969 → s.p.imageCal = false → ∃ e : Env,
        BusRun s.p s.env acts e ∧ RegsKept [s.p.xr.frfMsb, s.p.xr.frfMid, s.p.xr.frfLsb] s.env e ∧
        exec (.cfgFreq f) s = .next
          { s with
            cfg := { s.cfg with freqV := true, freq := BitVec.ofNat 32 hz, frf := BitVec.ofNat 24 frf }
            env := e
            io := s.io.ran (acts ++ [.respond (.ok [])]) })

/-- FREQ with calibration (42_radio_init_config.md R191, R197): after the three writes the calibration is started and
polled; seen done, the answer is OK; its budget spent, E_TIMEOUT with info 1; the frequency stays written either way. A draw
that ends undecided counts as spent (log 7). -/
def Obligations.CfgFreqCalibrates : Prop :=
  ∀ (s : State) (f : U32) (k : Nat) (e0 e1 : Env) (rs : List BusAnswer), s.ctl.life = .ready → s.p.imageCal = true →
    (k = 0 ∨ f.toNat * 10 ^ (k - 1) < 100000000) → 100000000 ≤ f.toNat * 10 ^ k → f.toNat * 10 ^ k ≤ 1023999969 →
    let hz := f.toNat * 10 ^ k
    let frf := (hz * 512 + 15625) / 31250
    let acts := [Action.xwrite s.p.xr.frfMsb (BitVec.ofNat 8 (frf / 65536)),
      .xwrite s.p.xr.frfMid (BitVec.ofNat 8 (frf / 256)), .xwrite s.p.xr.frfLsb (BitVec.ofNat 8 frf),
      .xwrite s.p.xr.imagecal s.p.imagecalStart]
    let done : Byte → Bool := fun v => v &&& s.p.imagecalRunningMask == 0
    let after (r : Response) : State :=
      { s with
        cfg := { s.cfg with freqV := true, freq := BitVec.ofNat 32 hz, frf := BitVec.ofNat 24 frf }
        env := e1
        io := s.io.ran (acts ++ readsOf s.p.xr.imagecal rs ++ [.respond r]) }
    BusRun s.p s.env acts e0 →
    (PollSees s.p s.p.xr.imagecal done s.p.calTimeoutMs e0 rs e1 → exec (.cfgFreq f) s = .next (after (.ok []))) ∧
    (PollMisses s.p s.p.xr.imagecal done s.p.calTimeoutMs e0 rs e1 →
      exec (.cfgFreq f) s = .next (after (.exc .timeout 1)))

/-- BITRATE (42_radio_init_config.md R192): FXOSC / br rounded half up, MSB register first, for 489 to 32 000 000 bit/s;
any other rate is refused with nothing written. -/
def Obligations.CfgBitrateResult : Prop :=
  ∀ (s : State) (br : U32), s.ctl.life = .ready →
    let reg := (64000000 + br.toNat) / (2 * br.toNat)
    let acts := [Action.xwrite s.p.xr.bitrateMsb (BitVec.ofNat 8 (reg / 256)),
      .xwrite s.p.xr.bitrateLsb (BitVec.ofNat 8 reg)]
    (br.toNat < 489 ∨ 32000000 < br.toNat → exec (.cfgBitrate br) s = .next (s.emit (.respond (.exc .badArg 1)))) ∧
    (489 ≤ br.toNat → br.toNat ≤ 32000000 → ∃ e : Env,
      BusRun s.p s.env acts e ∧ RegsKept [s.p.xr.bitrateMsb, s.p.xr.bitrateLsb] s.env e ∧
      exec (.cfgBitrate br) s = .next
        { s with
          cfg := { s.cfg with bitrateV := true, bitrate := br, brreg := BitVec.ofNat 16 reg }
          env := e
          io := s.io.ran (acts ++ [.respond (.ok [])]) })

/-- FDEV (42_radio_init_config.md R193): fdev / FSTEP rounded half up, 14 bits, MSB register first, up to 999 969 Hz; above
it is refused with nothing written. -/
def Obligations.CfgFdevResult : Prop :=
  ∀ (s : State) (fd : U32), s.ctl.life = .ready →
    let reg := (fd.toNat * 512 + 15625) / 31250
    let acts := [Action.xwrite s.p.xr.fdevMsb (BitVec.ofNat 8 (reg / 256)), .xwrite s.p.xr.fdevLsb (BitVec.ofNat 8 reg)]
    (999969 < fd.toNat → exec (.cfgFdev fd) s = .next (s.emit (.respond (.exc .badArg 2)))) ∧
    (fd.toNat ≤ 999969 → ∃ e : Env,
      BusRun s.p s.env acts e ∧ RegsKept [s.p.xr.fdevMsb, s.p.xr.fdevLsb] s.env e ∧
      exec (.cfgFdev fd) s = .next
        { s with
          cfg := { s.cfg with fdevV := true, fdev := fd, fdevreg := BitVec.ofNat 14 reg }
          env := e
          io := s.io.ran (acts ++ [.respond (.ok [])]) })

/-- RXBW and AFCBW (42_radio_init_config.md R194, R195, R201): the first row of BW_TABLE at or above the request is
selected, its byte written, its index kept; neither option touches the other's register; above the last row is refused. -/
def Obligations.CfgBandwidthResult : Prop :=
  ∀ (s : State) (hz : U32), s.ctl.life = .ready →
    ((∀ r ∈ s.p.bwTable, r.hz < hz.toNat) →
      exec (.cfgRxbw hz) s = .next (s.emit (.respond (.exc .badArg 3))) ∧
      exec (.cfgAfcbw hz) s = .next (s.emit (.respond (.exc .badArg 4)))) ∧
    ∀ (pre post : List BwRow) (row : BwRow), s.p.bwTable = pre ++ row :: post → (∀ r ∈ pre, r.hz < hz.toNat) →
      hz.toNat ≤ row.hz →
      let byte : Byte := BitVec.ofNat 8 (8 * row.mant.toNat + row.exp.toNat)
      let rx := [Action.xwrite s.p.xr.rxbw byte]
      let afc := [Action.xwrite s.p.xr.afcbw byte]
      (∃ e : Env, BusRun s.p s.env rx e ∧ RegsKept [s.p.xr.rxbw] s.env e ∧
        exec (.cfgRxbw hz) s = .next
          { s with
            cfg := { s.cfg with rxbwV := true, rxbw := BitVec.ofNat 5 pre.length }
            env := e
            io := s.io.ran (rx ++ [.respond (.ok [])]) }) ∧
      ∃ e : Env, BusRun s.p s.env afc e ∧ RegsKept [s.p.xr.afcbw] s.env e ∧
        exec (.cfgAfcbw hz) s = .next
          { s with
            cfg := { s.cfg with afcbwV := true, afcbw := BitVec.ofNat 5 pre.length }
            env := e
            io := s.io.ran (afc ++ [.respond (.ok [])]) }

/-- BwLookup (42_radio_init_config.md R201, 10_state.md R44): over a table as R44 constrains it the row found is the smallest
supported bandwidth not below the request, no row is found only above them all, and 100 000 and 99 000 both select the
row (100000, 1, 2). -/
def Obligations.BwLookupSmallest : Prop :=
  ∀ p : Params, p.wf = true →
    (∀ hz : Nat,
      (∃ i row, bwLookup p.bwTable hz = some (i, row) ∧ p.bwTable[i]? = some row ∧ hz ≤ row.hz ∧
        ∀ r ∈ p.bwTable, hz ≤ r.hz → row.hz ≤ r.hz) ∨
      (bwLookup p.bwTable hz = none ∧ ∀ r ∈ p.bwTable, r.hz < hz)) ∧
    ∃ i, bwLookup p.bwTable 100000 = some (i, ⟨100000, 1, 2⟩) ∧ bwLookup p.bwTable 99000 = some (i, ⟨100000, 1, 2⟩)

/-- PREAMBLE (42_radio_init_config.md R196) takes every value, MSB register first; PKTLEN (R199) and RXCONT (R200) write
their registers without a bus access and change no mode. -/
def Obligations.CfgPlainResults : Prop :=
  ∀ s : State, s.ctl.life = .ready →
    (∀ v : U16, ∃ e : Env,
      let acts := [Action.xwrite s.p.xr.preambleMsb (BitVec.ofNat 8 (v.toNat / 256)),
        .xwrite s.p.xr.preambleLsb (BitVec.ofNat 8 v.toNat)]
      BusRun s.p s.env acts e ∧ RegsKept [s.p.xr.preambleMsb, s.p.xr.preambleLsb] s.env e ∧
      exec (.cfgPreamble v) s = .next
        { s with
          cfg := { s.cfg with preambleV := true, preamble := v }
          env := e
          io := s.io.ran (acts ++ [.respond (.ok [])]) }) ∧
    (∀ (fixed : Bool) (len : Byte), exec (.cfgPktlen fixed len) s = .next (State.emit
      { s with cfg := { s.cfg with pktlenV := true, fixed := fixed, fixlen := len } } (.respond (.ok [])))) ∧
    ∀ flag : Bool, exec (.cfgRxcont flag) s = .next (State.emit
      { s with cfg := { s.cfg with rxcontV := true, rxcont := flag } } (.respond (.ok [])))

/-- SYNC (42_radio_init_config.md R198): 1 to 3 bytes go to ascending addresses from XR_SYNCVALUE, the count minus 1 into
the low 3 bits of XR_SYNCCONFIG with the upper five kept as read; entries past the count keep what they held; any other
count is refused with nothing written. -/
def Obligations.CfgSyncResult : Prop :=
  ∀ (s : State) (b : List Byte), s.ctl.life = .ready →
    (b.length = 0 ∨ 3 < b.length → exec (.cfgSync b) s = .next (s.emit (.respond (.exc .badArg 6)))) ∧
    (BusHealthy s → 1 ≤ b.length → b.length ≤ 3 → ∃ (v : Byte) (e : Env),
      let acts := (List.range b.length).map (fun i => Action.xwrite (s.p.xr.syncvalue + BitVec.ofNat 7 i) (b.getD i 0)) ++
        [.xread s.p.xr.syncconfig (.byte v),
         .xwrite s.p.xr.syncconfig ((v &&& 0xF8) ||| BitVec.ofNat 8 (b.length - 1))]
      BusRun s.p s.env acts e ∧
      RegsKept ((List.range b.length).map (fun i => s.p.xr.syncvalue + BitVec.ofNat 7 i) ++ [s.p.xr.syncconfig]) s.env e ∧
      exec (.cfgSync b) s = .next
        { s with
          cfg := { s.cfg with
            syncV := true, synclen := BitVec.ofNat 2 b.length,
            sync := #v[b.getD 0 s.cfg.sync[0], b.getD 1 s.cfg.sync[1], b.getD 2 s.cfg.sync[2]] }
          env := e
          io := s.io.ran (acts ++ [.respond (.ok [])]) })

/-- A body with a reserved mask bit (30_encoding.md R109, 60_exceptions.md R285): nothing is executed; E_NOT_READY where LIFE
refuses CONFIGURE, else E_BAD_ARG with 0xFF. Given alone it is answered as a CONFIGURE (log 13). -/
def Obligations.CfgReservedRefused : Prop :=
  ∀ (s : State) (m : U16) (fields : List Byte),
    exec (.cfgReserved m fields) s = .next (s.emit (.respond
      (match s.ctl.life with
      | .ready => .exc .badArg 0xFF
      | .uninit => .exc .notReady 0
      | .failed => .exc .notReady 2
      | .closed => .exc .notReady 3)))

/-- CONFIGURE applies the options present one after another in ascending mask-bit order (42_radio_init_config.md R188, R189):
with none it does nothing; else it does what its first option alone does, and goes on with the others exactly when that
one succeeded. -/
def Obligations.ConfigureSequence : Prop :=
  ∀ (s : State) (c : CfgBody), s.ctl.life = .ready →
    (firstOption c = none → exec (.configure c) s = .next (s.emit (.respond (.ok [])))) ∧
    ∀ (row : Instr) (others : CfgBody), firstOption c = some (row, others) → ∀ u : State,
      (exec row s = .next (u.emit (.respond (.ok []))) → exec (.configure c) s = exec (.configure others) u) ∧
      ∀ (x : Exc) (info : U16), exec row s = .next (u.emit (.respond (.exc x info))) →
        exec (.configure c) s = .next (u.emit (.respond (.exc x info)))

/-- CONFIGURE in READY always answers: OK, E_BAD_ARG with the mask bit of an option, or E_TIMEOUT of the calibration; it
changes the configuration registers, the option registers of the chip, and nothing else of the block
(42_radio_init_config.md R188, R189, 43_radio_rx_tx.md R245). -/
def Obligations.ConfigureFrame : Prop :=
  ∀ (s : State) (c : CfgBody), s.ctl.life = .ready → BusHealthy s →
    ∃ (cfg : CfgRegs) (e : Env) (acts : List Action) (r : Response),
      exec (.configure c) s = .next { s with cfg := cfg, env := e, io := s.io.ran (acts ++ [.respond r]) } ∧
      RegsKept (configRegs s.p) s.env e ∧ (∀ a ∈ acts, a.isBusRead = true ∨ a.isBusWrite = true) ∧
      (r = .ok [] ∨ (∃ k : U16, k.toNat ≤ 8 ∧ r = .exc .badArg k) ∨ r = .exc .timeout 1)

/-! ### Construction and close -/

/-- INIT with an empty body that succeeds (42_radio_init_config.md R180, R183 to R185): the reset pulse, the version
tries, the two scratch patterns read back, the table, the background timer; READY in STANDBY with the callbacks attached
and no configuration. A chip answers the version register within ten tries and the scratch register with what was
written. Value registers whose guard flag goes to 0 keep what they held: the model's choice (log 28). -/
def Obligations.InitEmptyBody : Prop :=
  ∀ (s : State) (bad : List BusAnswer) (good : Byte) (e0 e1 : Env), s.ctl.life ≠ .ready → initTableOk s.p = true →
    let checks := [Action.xwrite s.p.scratchAddr s.p.scratchPatA, .xread s.p.scratchAddr (.byte s.p.scratchPatA),
      .xwrite s.p.scratchAddr s.p.scratchPatB, .xread s.p.scratchAddr (.byte s.p.scratchPatB)]
    let table := s.p.initTable.map fun w => Action.xwrite w.1 w.2
    bad.length < 10 → (∀ r ∈ bad, r ≠ .byte s.p.versionA ∧ r ≠ .byte s.p.versionB) →
    (good = s.p.versionA ∨ good = s.p.versionB) →
    versionAnswers s.p (bad.length + 1) s.env = (bad ++ [.byte good], e0) →
    BusRun s.p e0 (checks ++ table) e1 →
    let c := constructing s
    RegsKept (s.p.scratchAddr :: s.p.initTable.map Prod.fst) s.env e1 ∧
    exec (.init {}) s = .next
      { c with
        ctl := { c.ctl with life := .ready }
        trk := { c.trk with bgRssi := BitVec.ofNat 12 (16 * s.p.bgRssiInit.toNat) }
        tmr := { c.tmr with dioEn := true, bgArmed := true }
        env := e1
        io := s.io.ran (pulse ++ failedTries s.p bad ++ [.xread s.p.xr.version (.byte good)] ++ checks ++ table ++
          [.armPeriodic 11000, .respond (.ok [])]) }

/-- The two failures of identity and bus (42_radio_init_config.md R181, R183, R184; 60_exceptions.md R284): ten reads
without a known version give E_CHIP_NOT_FOUND with the last value read; a scratch pattern that reads back otherwise
gives E_BUS_DEAD with 0 for the first and 1 for the second; LIFE = FAILED and nothing runs. Value registers whose guard
flag goes to 0 keep what they held: the model's choice (log 28). -/
def Obligations.InitFailures : Prop :=
  ∀ (s : State) (cfg : CfgBody), s.ctl.life ≠ .ready →
    let c := constructing s
    let failed (e : Env) (acts : List Action) (x : Exc) (info : U16) : State :=
      { c with
        ctl := { c.ctl with life := .failed }
        tmr := { c.tmr with bgArmed := false, dioEn := false }
        env := e
        io := s.io.ran (pulse ++ acts ++ [.respond (.exc x info)]) }
    (∀ (bad : List BusAnswer) (e : Env), versionAnswers s.p 10 s.env = (bad, e) →
      (∀ r ∈ bad, r ≠ .byte s.p.versionA ∧ r ≠ .byte s.p.versionB) →
      let last : U16 := match bad.getLast? with
        | some (.byte v) => v.zeroExtend 16
        | _ => 0
      exec (.init cfg) s = .next (failed e (failedTries s.p bad) .chipNotFound last)) ∧
    ∀ (bad : List BusAnswer) (good : Byte) (e0 e1 : Env), bad.length < 10 →
      (∀ r ∈ bad, r ≠ .byte s.p.versionA ∧ r ≠ .byte s.p.versionB) → (good = s.p.versionA ∨ good = s.p.versionB) →
      versionAnswers s.p (bad.length + 1) s.env = (bad ++ [.byte good], e0) →
      let found := failedTries s.p bad ++ [.xread s.p.xr.version (.byte good)]
      ∀ v : Byte,
        (let one := [Action.xwrite s.p.scratchAddr s.p.scratchPatA, .xread s.p.scratchAddr (.byte v)]
        v ≠ s.p.scratchPatA → BusRun s.p e0 one e1 →
          exec (.init cfg) s = .next (failed e1 (found ++ one) .busDead 0)) ∧
        let both := [Action.xwrite s.p.scratchAddr s.p.scratchPatA, .xread s.p.scratchAddr (.byte s.p.scratchPatA),
          .xwrite s.p.scratchAddr s.p.scratchPatB, .xread s.p.scratchAddr (.byte v)]
        v ≠ s.p.scratchPatB → BusRun s.p e0 both e1 →
          exec (.init cfg) s = .next (failed e1 (found ++ both) .busDead 1)

/-- INIT with any body, where it is admitted (42_radio_init_config.md R180, R181): it ends READY, answered OK, in
RECEIVE exactly when continuous receive is configured, with the tracker at its start value and the callbacks and the
timer running; or FAILED, answered with the exception of a step, with every flag and valid bit 0. It writes no register
outside the scratch register, the table's, the options' and XR_OPMODE, and leaves the codec alone. Its options are
applied at step 5 (R180, R189): where INIT with an empty body fails, INIT with this one does the same; otherwise, after
what the empty body does to the chip, the options do what CONFIGURE of this body does from the state the empty INIT
leaves, to the chip, to the environment and to the configuration registers; the answer is that CONFIGURE's, and an
exception leaves the valid bits 0. Value registers whose guard flag goes to 0 keep what they held: the model's choice
(log 28). -/
def Obligations.InitOutcome : Prop :=
  ∀ (s : State) (cfg : CfgBody), BusHealthy s → initTableOk s.p = true → s.ctl.life ≠ .ready →
    ∃ (t : State) (acts : List Action) (r : Response),
      exec (.init cfg) s = .next t ∧ t.io = s.io.ran (acts ++ [.respond r]) ∧ t.io.resetLine = true ∧
      RegsKept (initRegs s.p) s.env t.env ∧ t.codec = s.codec ∧ t.inbox = s.inbox ∧ t.params = s.params ∧
      t.rx = { s.rx with valid := false } ∧ t.trk.lastAfc = s.trk.lastAfc ∧ t.trk.lastAfcV = false ∧
      t.tmr.safetySeq = s.tmr.safetySeq ∧ t.tmr.safetyHandle = s.tmr.safetyHandle ∧ t.tmr.safetyArmed = false ∧
      t.ctl.rxLen = s.ctl.rxLen ∧ t.ctl.rxTs = s.ctl.rxTs ∧ t.ctl.txbusy = false ∧ t.ctl.rxPend = false ∧
      ((t.ctl.life = .ready ∧ r = .ok [] ∧ t.ctl.mode = (if rxContinuous t then .receive else .standby) ∧
          t.trk.bgRssi = BitVec.ofNat 12 (16 * s.p.bgRssiInit.toNat) ∧ t.tmr.dioEn = true ∧ t.tmr.bgArmed = true) ∨
        (Unusable t ∧ t.trk.bgRssi = s.trk.bgRssi ∧
          ((∃ v, r = .exc .chipNotFound v) ∨ r = .exc .busDead 0 ∨ r = .exc .busDead 1 ∨
            (∃ k : U16, k.toNat ≤ 8 ∧ r = .exc .badArg k) ∨ r = .exc .timeout 1))) ∧
      ∃ u : State, exec (.init {}) s = .next u ∧
        ((u.ctl.life = .failed ∧ t = u) ∨
          (u.ctl.life = .ready ∧ ∃ (built opts : List Action) (v : State),
            u.io = s.io.ran (built ++ [.armPeriodic 11000, .respond (.ok [])]) ∧
            exec (.configure cfg) u = .next v ∧ v.io = u.io.ran (opts ++ [.respond r]) ∧
            (r = .ok [] →
              let enter := if rxContinuous t then [Action.xwrite s.p.xr.opmode (s.p.opmodeBase ||| 5)] else []
              t.cfg = v.cfg ∧ acts = built ++ opts ++ [.armPeriodic 11000] ++ enter ∧ BusRun s.p v.env enter t.env) ∧
            (r ≠ .ok [] →
              acts = built ++ opts ∧ t.env = v.env ∧
              t.cfg = { v.cfg with
                freqV := false, bitrateV := false, fdevV := false, rxbwV := false, afcbwV := false, preambleV := false,
                syncV := false, pktlenV := false, rxcontV := false })))

/-- CLOSE (42_radio_init_config.md R205): one mode write, both timers cancelled, every flag 0, LIFE = CLOSED; the
configuration registers keep their values. Value registers whose guard flag goes to 0 keep what they held: the model's
choice (log 28). -/
def Obligations.CloseResult : Prop :=
  ∀ s : State, s.ctl.life = .ready → ∃ e : Env,
    let acts := Action.xwrite s.p.xr.opmode s.p.opmodeBase :: cancelled s ++ [.cancelBackground]
    BusRun s.p s.env acts e ∧ RegsKept [s.p.xr.opmode] s.env e ∧
    exec .close s = .next
      { s with
        ctl := { s.ctl with life := .closed, mode := .sleep, txbusy := false, rxPend := false }
        rx := { s.rx with valid := false }
        trk := { s.trk with lastAfcV := false }
        tmr := { s.tmr with safetyArmed := false, bgArmed := false, dioEn := false }
        env := e
        io := s.io.ran (acts ++ [.respond (.ok [])]) }

/-- Admission (60_exceptions.md R287): a radio command outside READY, and INIT in READY, are refused with E_NOT_READY and
the LIFE code, with no state change. A lone option is a CONFIGURE (log 13), a lone FIFO frame a WRITE (log 11). -/
def Obligations.AdmissionRefused : Prop :=
  ∀ (s : State) (i : Instr), isCommand i = true → admittedIn i s.ctl.life = false →
    exec i s = .next (s.emit (.respond (.exc .notReady
      (match s.ctl.life with | .uninit => 0 | .ready => 1 | .failed => 2 | .closed => 3))))

/-- Outside READY, no instruction but INIT touches the chip or notifies the host (42_radio_init_config.md R205,
43_radio_rx_tx.md R220): the state changes in the codec datapath and by one answer at most. The messages as rows of
their own are the model's (log 11) and are left aside. -/
def Obligations.SilentOutsideReady : Prop :=
  ∀ (s t : State) (i : Instr), s.ctl.life ≠ .ready → (∀ c, i ≠ .init c) →
    i.format ≠ .notification → i.format ≠ .response → exec i s = .next t →
    t.ctl = s.ctl ∧ t.rx = s.rx ∧ t.trk = s.trk ∧ t.tmr = s.tmr ∧ t.cfg = s.cfg ∧ t.env = s.env ∧
    t.inbox = s.inbox ∧ t.params = s.params ∧
    ∃ acts : List Action, t.io = { s.io with trace := s.io.trace ++ acts } ∧ acts.length ≤ 1 ∧
      ∀ a ∈ acts, a.isResponse = true

/-! ### Receiving -/

/-- EV_PREAMBLE (43_radio_rx_tx.md R222): five reads in order give the metadata, the gain field selects an entry of LNA_DB, a
pending safety timer is cancelled and a new one armed with the next handle (10_state.md R29). -/
def Obligations.EvPreambleResult : Prop :=
  ∀ s : State, BusHealthy s → s.ctl.life = .ready → s.tmr.dioEn = true →
    ∃ (rssi thresh lna m l : Byte) (e : Env),
      let acts := [Action.xread s.p.xr.rssivalue (.byte rssi), .xread s.p.xr.rssithresh (.byte thresh),
        .xread s.p.xr.lna (.byte lna), .xread s.p.xr.afcMsb (.byte m), .xread s.p.xr.afcLsb (.byte l)]
      BusRun s.p s.env acts e ∧ RegsKept [] s.env e ∧
      exec .evPreamble s = .next
        { s with
          rx :=
            { valid := true, rssi := rssi, thresh := thresh,
              lna := s.p.lnaDb[lna.toNat / 2 ^ s.p.lnaGainShift % 8]'(Nat.mod_lt _ (by decide)), afc := m ++ l }
          tmr := { s.tmr with
            safetyArmed := true, safetyHandle := s.tmr.safetySeq, safetySeq := s.tmr.safetySeq + 1 }
          env := e
          io := s.io.ran (acts ++ cancelled s ++ [.armOneShot s.p.tSafetyMs s.tmr.safetySeq]) }

/-- Events that are disabled, stale or late are consumed and nothing happens (43_radio_rx_tx.md R220, R225;
44_rssi_tracker.md R260; 60_exceptions.md R292). -/
def Obligations.EventsIgnored : Prop :=
  ∀ s : State,
    (s.ctl.life ≠ .ready ∨ s.tmr.dioEn = false → exec .evPreamble s = .next s ∧ exec .evDio0 s = .next s) ∧
    (∀ h : U16, s.ctl.life ≠ .ready ∨ s.tmr.safetyArmed = false ∨ h ≠ s.tmr.safetyHandle →
      exec (.evSafety h) s = .next s) ∧
    (s.ctl.life ≠ .ready ∨ s.tmr.bgArmed = false → exec .evBg s = .next s)

/-- EV_SAFETY with the pending handle (43_radio_rx_tx.md R225, 42_radio_init_config.md R187): the timer is spent, the
receiver restarted by one write, the chip's threshold as read then is reported; no mode changes. SAFETY_HANDLE keeps its
value once SAFETY_ARMED is 0: the model's choice (log 28). -/
def Obligations.EvSafetyFires : Prop :=
  ∀ s : State, BusHealthy s → s.ctl.life = .ready → s.tmr.safetyArmed = true →
    ∃ (v : Byte) (e : Env),
      let acts := [Action.xwrite s.p.xr.rxconfig s.p.restartValue, .xread s.p.xr.rssithresh (.byte v)]
      BusRun s.p s.env acts e ∧ RegsKept [s.p.xr.rxconfig] s.env e ∧
      exec (.evSafety s.tmr.safetyHandle) s = .next
        { s with
          tmr := { s.tmr with safetyArmed := false }
          env := e
          io := s.io.ran (acts ++ [.notify (.diag 1 (v.zeroExtend 16))]) }

/-- EV_DIO0 with no transmission in flight (43_radio_rx_tx.md R227, R228): a packet has arrived. The timer is cancelled,
the length is the configured one in fixed-length mode and otherwise the byte taken from the FIFO, it is pending with the
tick taken at entry, and the host is told; the mode stays. SAFETY_HANDLE keeps its value once SAFETY_ARMED is 0: the
model's choice (log 28). -/
def Obligations.EvDio0Arrived : Prop :=
  ∀ s : State, BusHealthy s → s.ctl.life = .ready → s.tmr.dioEn = true → s.ctl.txbusy = false →
    let ts := (nextTick s.env).1
    let after (n : Byte) (e : Env) (acts : List Action) : State :=
      { s with
        ctl := { s.ctl with rxPend := true, rxLen := n, rxTs := ts }
        tmr := { s.tmr with safetyArmed := false }
        env := e
        io := s.io.ran (cancelled s ++ acts ++ [.notify (.readable n ts)]) }
    (s.cfg.pktlenV = true ∧ s.cfg.fixed = true →
      exec .evDio0 s = .next (after s.cfg.fixlen (nextTick s.env).2 [])) ∧
    (¬(s.cfg.pktlenV = true ∧ s.cfg.fixed = true) → ∃ (n : Byte) (e : Env),
      BusRun s.p (nextTick s.env).2 [.xread s.p.xr.fifo (.byte n)] e ∧ RegsKept [] s.env e ∧
      exec .evDio0 s = .next (after n e [.xread s.p.xr.fifo (.byte n)]))

/-- EV_DIO0 with a transmission in flight (43_radio_rx_tx.md R227, R229): the packet is sent. TXBUSY is cleared, the mode
goes to RECEIVE or STANDBY as configured by one write, the host is told. -/
def Obligations.EvDio0Sent : Prop :=
  ∀ s : State, s.ctl.life = .ready → s.tmr.dioEn = true → s.ctl.txbusy = true →
    let receive := s.cfg.rxcontV && s.cfg.rxcont
    let acts := [Action.xwrite s.p.xr.opmode (s.p.opmodeBase ||| if receive then 5 else 1)]
    ∃ e : Env, BusRun s.p (nextTick s.env).2 acts e ∧ RegsKept [s.p.xr.opmode] s.env e ∧
      exec .evDio0 s = .next
        { s with
          ctl := { s.ctl with txbusy := false, mode := if receive then .receive else .standby }
          env := e
          io := s.io.ran (acts ++ [.notify .writable]) }

/-- READ (43_radio_rx_tx.md R232): nothing pending, NONE; a packet larger than the destination, E_READ_OVERSIZE with its
length, and it stays pending; else its bytes in one bulk transfer, none for an empty packet, and RECEIVE re-entered when
continuous receive is configured. BUF keeps the bytes (log 14). RX_LEN and RX_TS keep their values once RX_PEND is 0:
the model's choice (log 28). -/
def Obligations.ReadResult : Prop :=
  ∀ (s : State) (hasDst : Bool) (cap : Byte), BusHealthy s → s.ctl.life = .ready →
    (s.ctl.rxPend = false → exec (.read hasDst cap) s = .next (s.emit (.respond (.noResult [])))) ∧
    (s.ctl.rxPend = true → hasDst = true ∧ cap.toNat < s.ctl.rxLen.toNat →
      exec (.read hasDst cap) s = .next (s.emit (.respond (.exc .readOversize (s.ctl.rxLen.zeroExtend 16))))) ∧
    (s.ctl.rxPend = true → ¬(hasDst = true ∧ cap.toNat < s.ctl.rxLen.toNat) → ∃ (bytes : List Byte) (e : Env),
      let receive := s.cfg.rxcontV && s.cfg.rxcont
      let acts := (if s.ctl.rxLen = 0 then [] else [Action.burstRead s.p.xr.fifo bytes]) ++
        if receive then [.xwrite s.p.xr.opmode (s.p.opmodeBase ||| 5)] else []
      bytes.length = s.ctl.rxLen.toNat ∧ BusRun s.p s.env acts e ∧ RegsKept [s.p.xr.opmode] s.env e ∧
      exec (.read hasDst cap) s = .next
        { s with
          ctl := { s.ctl with rxPend := false, mode := if receive then .receive else s.ctl.mode }
          codec := { s.codec with buf := bytes }
          env := e
          io := s.io.ran (acts ++ [.respond (.ok (BitVec.ofNat 8 bytes.length :: bytes))]) })

/-- RECV (41_packet_codec.md R165): the group is checked before anything is consumed; nothing pending, NONE; oversize,
the packet stays; else the packet is read as READ reads it and decoded as PDEC decodes it: without a result it is
consumed and dropped, with one it is answered as 30_encoding.md R104 lays the record out, with the link quality of the
last capture where there is one. VACC, VCNT and PK keep what the decoder leaves (log 14). RX_LEN and RX_TS keep their
values once RX_PEND is 0: the model's choice (log 28). -/
def Obligations.RecvResult : Prop :=
  ∀ (s : State) (hasDst : Bool) (cap : Byte) (chk : Bool) (g : Byte), BusHealthy s → s.ctl.life = .ready →
    let i := Instr.recv hasDst cap chk g
    (chk = true ∧ 63 < g.toNat → exec i s = .next (s.emit (.respond (.exc .badArg 0xFF)))) ∧
    (¬(chk = true ∧ 63 < g.toNat) →
      (s.ctl.rxPend = false → exec i s = .next (s.emit (.respond (.noResult [])))) ∧
      (s.ctl.rxPend = true → hasDst = true ∧ cap.toNat < s.ctl.rxLen.toNat →
        exec i s = .next (s.emit (.respond (.exc .readOversize (s.ctl.rxLen.zeroExtend 16))))) ∧
      (s.ctl.rxPend = true → ¬(hasDst = true ∧ cap.toNat < s.ctl.rxLen.toNat) → ∃ (bytes : List Byte) (e : Env),
        let receive := s.cfg.rxcontV && s.cfg.rxcont
        let acts := (if s.ctl.rxLen = 0 then [] else [Action.burstRead s.p.xr.fifo bytes]) ++
          if receive then [.xwrite s.p.xr.opmode (s.p.opmodeBase ||| 5)] else []
        let d := decodePacket chk g bytes
        let quality (pk : Packet) : Packet :=
          if s.rx.valid then { pk with
            lqV := true, rssi := BitVec.ofInt 16 (-(s.rx.rssi.toNat : Int)),
            fei := BitVec.ofInt 32 (Int.fdiv (s.rx.afc.toInt * 15625) 256),
            margin := BitVec.ofInt 8 (max 0 (min 20 (Int.fdiv
              ((s.rx.thresh.toNat : Int) + 4 - 2 * (s.p.demodSnr : Int) - s.rx.rssi.toNat) 2))) }
          else pk
        bytes.length = s.ctl.rxLen.toNat ∧ BusRun s.p s.env acts e ∧ RegsKept [s.p.xr.opmode] s.env e ∧
        exec i s = .next
          { s with
            ctl := { s.ctl with rxPend := false, mode := if receive then .receive else s.ctl.mode }
            codec := { s.codec with
              buf := bytes, vacc := d.acc, vcnt := BitVec.ofNat 9 d.cnt, vdone := true,
              pk := (d.pk.map quality).getD s.codec.pk }
            env := e
            io := s.io.ran (acts ++ [.respond (match d.pk with
              | some pk => .ok (recordLayout (quality pk))
              | none => .noResult [])]) }))

/-! ### Transmitting -/

/-- WRITE that completes (43_radio_rx_tx.md R235, 42_radio_init_config.md R182, R186): FSTX, the mode-ready poll, the frame
`[size] ++ payload` in one bulk write, TXBUSY, TRANSMIT. The poll starts after the FSTX write and sees the flag. A FIFO frame
alone does the same as WRITE of its payload (log 11). -/
def Obligations.WriteCompletes : Prop :=
  ∀ (s : State) (hasSize : Bool) (size : Byte) (buf : List Byte) (e0 e1 : Env) (rs : List BusAnswer),
    s.ctl.life = .ready → s.ctl.txbusy = false →
    let sz := if hasSize then size.toNat else buf.length
    0 < sz → sz ≤ s.p.maxPayload → sz ≤ buf.length →
    BusRun s.p s.env [.xwrite s.p.xr.opmode (s.p.opmodeBase ||| 2)] e0 →
    PollSees s.p s.p.xr.irqflags1 (fun v => v &&& s.p.modereadyMask != 0) 100 e0 rs e1 →
    ∀ i : Instr, i = .write hasSize size buf ∨ (i = .fifoframe buf ∧ hasSize = false) → ∃ e : Env,
      let sent := [Action.burstWrite s.p.xr.fifo (BitVec.ofNat 8 sz :: buf.take sz),
        .xwrite s.p.xr.opmode (s.p.opmodeBase ||| 3)]
      BusRun s.p e1 sent e ∧ RegsKept [s.p.xr.opmode] s.env e ∧
      exec i s = .next
        { s with
          ctl := { s.ctl with txbusy := true, mode := .transmit }
          env := e
          io := s.io.ran (.xwrite s.p.xr.opmode (s.p.opmodeBase ||| 2) :: readsOf s.p.xr.irqflags1 rs ++ sent ++
            [.respond (.ok [])]) }

/-- WRITE that stops (43_radio_rx_tx.md R235, R236): a transmission in flight is E_TX_BUSY whatever the size, a size of 0,
above MAX_PAYLOAD or above the buffer is E_BAD_ARG, both with nothing changed; the flag never seen is E_TIMEOUT, with MODE =
FSTX, the FIFO unwritten and TXBUSY 0. A draw that ends undecided counts as the flag never seen (log 7). A FIFO frame alone
stops as WRITE of its payload does (log 11). -/
def Obligations.WriteStops : Prop :=
  ∀ (s : State) (hasSize : Bool) (size : Byte) (buf : List Byte) (i : Instr), s.ctl.life = .ready →
    i = .write hasSize size buf ∨ (i = .fifoframe buf ∧ hasSize = false) →
    let sz := if hasSize then size.toNat else buf.length
    (s.ctl.txbusy = true → exec i s = .next (s.emit (.respond (.exc .txBusy 0)))) ∧
    (s.ctl.txbusy = false → sz = 0 ∨ s.p.maxPayload < sz ∨ buf.length < sz →
      exec i s = .next (s.emit (.respond (.exc .badArg 0xFF)))) ∧
    ∀ (e0 e1 : Env) (rs : List BusAnswer), s.ctl.txbusy = false → 0 < sz → sz ≤ s.p.maxPayload → sz ≤ buf.length →
      BusRun s.p s.env [.xwrite s.p.xr.opmode (s.p.opmodeBase ||| 2)] e0 →
      PollMisses s.p s.p.xr.irqflags1 (fun v => v &&& s.p.modereadyMask != 0) 100 e0 rs e1 →
      RegsKept [s.p.xr.opmode] s.env e1 ∧
      exec i s = .next
        { s with
          ctl := { s.ctl with mode := .fstx }
          env := e1
          io := s.io.ran (.xwrite s.p.xr.opmode (s.p.opmodeBase ||| 2) :: readsOf s.p.xr.irqflags1 rs ++
            [.respond (.exc .timeout 0)]) }

/-- A timed poll (42_radio_init_config.md R186, R197; D30) completes in exactly one way: where what the environment draws sees
the condition it answers true, where it misses it false, after exactly those reads and with nothing else of the block
changed; one of the two always holds, and never both. That a draw which ends undecided counts as missed is the model's
(log 7). -/
def Obligations.PollDecides : Prop :=
  ∀ (s : State) (a : Addr) (done : Byte → Bool) (budget : Nat),
    (∀ (rs : List BusAnswer) (e : Env), PollSees s.p a done budget s.env rs e →
      timedPoll a done budget s = .ok (true, { s with env := e, io := s.io.ran (readsOf a rs) })) ∧
    (∀ (rs : List BusAnswer) (e : Env), PollMisses s.p a done budget s.env rs e →
      timedPoll a done budget s = .ok (false, { s with env := e, io := s.io.ran (readsOf a rs) })) ∧
    ((∃ rs e, PollSees s.p a done budget s.env rs e) ∨ ∃ rs e, PollMisses s.p a done budget s.env rs e) ∧
    ¬((∃ rs e, PollSees s.p a done budget s.env rs e) ∧ ∃ rs e, PollMisses s.p a done budget s.env rs e)

/-! ### Telemetry and status -/

/-- The telemetry reads in READY (43_radio_rx_tx.md R240, R241, R242; 44_rssi_tracker.md R270): NONE before the first capture;
then minus the raw RSSI, the gain in dB, raw AFC times FSTEP rounded down, and half the threshold's excess rounded down and
clamped to 0 to 20. Nothing else changes. -/
def Obligations.TelemetryResults : Prop :=
  ∀ s : State, s.ctl.life = .ready →
    (s.rx.valid = false → ∀ i ∈ [Instr.rxrssi, .rxlna, .rxafc, .rxmargin],
      exec i s = .next (s.emit (.respond (.noResult [])))) ∧
    (s.rx.valid = true →
      let x : Int := (s.rx.thresh.toNat : Int) + 4 - 2 * (s.p.demodSnr : Int) - s.rx.rssi.toNat
      exec .rxrssi s = .next (s.emit (.respond (.ok (bytes16 (BitVec.ofInt 16 (-(s.rx.rssi.toNat : Int))))))) ∧
      exec .rxlna s = .next (s.emit (.respond (.ok [s.rx.lna]))) ∧
      exec .rxafc s = .next (s.emit (.respond (.ok (bytes32 (BitVec.ofInt 32 (Int.fdiv (s.rx.afc.toInt * 15625) 256)))))) ∧
      exec .rxmargin s = .next (s.emit (.respond (.ok [BitVec.ofInt 8 (max 0 (min 20 (Int.fdiv x 2)))]))))

/-- STATUS (43_radio_rx_tx.md R243, 10_state.md R38): the two bytes, in every LIFE state; nothing else changes. That
CFG_RXCONT and CFG_FIXED show as 0 while not configured (R32) is read into R38 by log 24. -/
def Obligations.StatusBytes : Prop :=
  ∀ s : State, ∃ b0 b1 : Byte, exec .status s = .next (s.emit (.respond (.ok [b0, b1]))) ∧
    b0.toNat = (match s.ctl.life with | .uninit => 0 | .ready => 1 | .failed => 2 | .closed => 3) +
      4 * (match s.ctl.mode with
        | .sleep => 0 | .standby => 1 | .fstx => 2 | .transmit => 3 | .fsrx => 4 | .receive => 5) +
      32 * s.ctl.txbusy.toNat + 64 * s.ctl.rxPend.toNat + 128 * s.tmr.safetyArmed.toNat ∧
    b1.toNat = s.tmr.bgArmed.toNat + 2 * s.tmr.dioEn.toNat + 4 * s.rx.valid.toNat + 8 * s.trk.lastAfcV.toNat +
      16 * (s.cfg.rxcontV && s.cfg.rxcont).toNat + 32 * (s.cfg.pktlenV && s.cfg.fixed).toNat

/-! ### The background estimator -/

/-- EV_BG (44_rssi_tracker.md R260 to R266): one RSSI sample is smoothed in where it lies in 140 to 200 and the
threshold is rewritten where the integer part changed; with continuous receive expected the AFC sample is compared with
the last one and the chip's mode with RECEIVE, each anomaly repaired and reported; otherwise the last AFC sample is
forgotten. A forgotten sample stays in LAST_AFC with LAST_AFC_V = 0: the model's choice (log 28). -/
def Obligations.EvBgResult : Prop :=
  ∀ s : State, BusHealthy s → s.ctl.life = .ready → s.tmr.bgArmed = true →
    ∃ (r m l v : Byte) (e : Env),
      let old := s.trk.bgRssi.toNat
      let new := if 140 ≤ r.toNat ∧ r.toNat ≤ 200 then old - old / 16 + r.toNat else old
      let sample := Action.xread s.p.xr.rssivalue (.byte r) ::
        if new / 16 ≠ old / 16 then [Action.xwrite s.p.xr.rssithresh (BitVec.ofNat 8 (new / 16 - 4))] else []
      let expected := s.cfg.rxcontV && s.cfg.rxcont && !s.ctl.txbusy
      let a : U16 := m ++ l
      let afc := [Action.xread s.p.xr.afcMsb (.byte m), .xread s.p.xr.afcLsb (.byte l)] ++
        if s.trk.lastAfcV = true ∧ a = s.trk.lastAfc
        then [.xwrite s.p.xr.rxconfig s.p.restartValue, .notify (.diag 2 a)] else []
      let mode := Action.xread s.p.xr.opmode (.byte v) ::
        if v.toNat % 8 ≠ 5
        then [.xwrite s.p.xr.opmode (s.p.opmodeBase ||| 5), .notify (.diag 3 (BitVec.ofNat 16 (v.toNat % 8)))] else []
      let acts := if expected then sample ++ afc ++ mode else sample
      BusRun s.p s.env acts e ∧ RegsKept [s.p.xr.rssithresh, s.p.xr.rxconfig, s.p.xr.opmode] s.env e ∧
      exec .evBg s = .next
        { s with
          ctl := { s.ctl with mode := if expected && v.toNat % 8 != 5 then .receive else s.ctl.mode }
          trk :=
            { bgRssi := BitVec.ofNat 12 new, lastAfc := if expected then a else s.trk.lastAfc, lastAfcV := expected }
          env := e
          io := s.io.ran acts }

/-- The range of the estimate (44_rssi_tracker.md R263): an accepted sample keeps it in 2240 to 3215, and every threshold
written for an estimate in that range lies in 136 to 196. -/
def Obligations.SmoothingRange : Prop :=
  ∀ (bg : BitVec 12) (r : Byte), 2240 ≤ bg.toNat → bg.toNat ≤ 3215 →
    (plausible r = true → 2240 ≤ (smoothStep bg r).toNat ∧ (smoothStep bg r).toNat ≤ 3215) ∧
    136 ≤ (thresholdFor bg).toNat ∧ (thresholdFor bg).toNat ≤ 196

/-! ### Messages as rows -/

/-- The messages the block sends (30_encoding.md R103, R107, 43_radio_rx_tx.md R228, R229, 60_exceptions.md R283, R294): each
row is one action, and no block state changes. That such a row runs by itself is the model's (log 11). -/
def Obligations.MessageRows : Prop :=
  ∀ s : State,
    (∀ (n : Byte) (ts : U32), exec (.nReadable n ts) s = .next (s.emit (.notify (.readable n ts)))) ∧
    exec .nWritable s = .next (s.emit (.notify .writable)) ∧
    (∀ (k : Byte) (v : U16), exec (.nDiag k v) s = .next (s.emit (.notify (.diag k v)))) ∧
    (∀ r : List Byte, exec (.rspOk r) s = .next (s.emit (.respond (.ok r)))) ∧
    (∀ tl : List Byte, exec (.rspNone tl) s = .next (s.emit (.respond (.noResult tl)))) ∧
    ∀ (x : Exc) (info : U16), exec (.rspExc x info) s = .next (s.emit (.respond (.exc x info)))

/-! ### The reference transceiver's registers -/

/-- The register memory (20_memory.md R76): a write is read back and touches no other address, keeps the canonical form, and
two memories in that form that read alike everywhere are equal. The form is the model's (log 22). -/
def Obligations.MemoryLaws : Prop :=
  (∀ (m : Memory) (a b : Nat) (v : Byte), Memory.wf m = true →
    memRead (memWrite m a v) b = if b = a then v else memRead m b) ∧
  (∀ (m : Memory) (a : Addr) (v : Byte), Memory.wf m = true → Memory.wf (memWrite m a.toNat v) = true) ∧
  ∀ m n : Memory, Memory.wf m = true → Memory.wf n = true → (∀ a, memRead m a = memRead n a) → m = n

/-! ### Every step -/

/-- Every host command in every state is answered exactly once, after everything else it does, and with E_NOT_READY
exactly where LIFE refuses it (30_encoding.md R103; 60_exceptions.md R285, R287; 93_implementation_defined.md: nothing is
stuck). Where no other name is XR_FIFO, its bytes are removed by READ and RECV and appended by WRITE only, at most once
(20_memory.md R64). The bus is healthy and the initialisation table is inside the spec; a lone option is a CONFIGURE
(log 13), a lone FIFO frame a WRITE (log 11). -/
def Obligations.CommandAnsweredOnce : Prop :=
  ∀ (s : State) (i : Instr), isCommand i = true → BusHealthy s → initTableOk s.p = true →
    ∃ (t : State) (acts : List Action) (r : Response), exec i s = .next t ∧
      t.io.trace = s.io.trace ++ acts ++ [.respond r] ∧ (∀ a ∈ acts, a.isResponse = false) ∧
      ((∃ n, r = .exc .notReady n) ↔ admittedIn i s.ctl.life = false) ∧
      (fifoApart s.p = true →
        acts.countP (Action.writesFifo s.p) ≤ (if isWrite i then 1 else 0) ∧
        acts.countP (Action.readsFifo s.p) ≤ (if isRead i then 1 else 0))

/-- Every event in every state has a handler step, which answers nobody, waits for nothing, and stays within the bus
transactions R220 and R260 name (43_radio_rx_tx.md R220, 44_rssi_tracker.md R260, 60_exceptions.md R295). Where no other
name is XR_FIFO, no event writes it and EV_DIO0 alone reads it, at most once (20_memory.md R64). The bus is healthy. -/
def Obligations.EventsBounded : Prop :=
  ∀ (s : State) (i : Instr), i.format = .event → BusHealthy s →
    ∃ (t : State) (acts : List Action), exec i s = .next t ∧ t.io.trace = s.io.trace ++ acts ∧
      (∀ a ∈ acts, a.isResponse = false ∧ a.isWait = false) ∧
      acts.countP Action.isBusRead ≤ 5 ∧ acts.countP Action.isBusWrite ≤ 3 ∧
      (i = .evSafety s.tmr.safetyHandle → acts.countP (fun a => a.isBusRead || a.isBusWrite) ≤ 2) ∧
      (i = .evDio0 → acts.countP Action.isBusRead ≤ 1 ∧ acts.countP Action.isBusWrite ≤ 1) ∧
      (fifoApart s.p = true →
        acts.countP (Action.writesFifo s.p) = 0 ∧
        acts.countP (Action.readsFifo s.p) ≤ (if i = .evDio0 then 1 else 0))

/-- Every step keeps the invariants (43_radio_rx_tx.md R245, 44_rssi_tracker.md R263, 10_state.md R29 to R31): outside READY
nothing runs; FSRX is never entered and TRANSMIT only with a transmission in flight; the estimate stays in range; a
pending timer holds the handle drawn last; the configuration registers hold legal values; the register memory of a
reference transceiver keeps its form. -/
def Obligations.StepKeepsInvariants : Prop :=
  ∀ s t : State, ParamsOk s → Inv s → step s = .next t → Inv t ∧ t.params = s.params

/-- The state after reset meets the invariants (10_state.md R48). -/
def Obligations.ResetMeetsInvariants : Prop := Inv State.reset

/-- What reset leaves (10_state.md R48): UNINIT, SLEEP, every flag and valid bit 0, the counters 0. -/
def Obligations.ResetValues : Prop :=
  let s := State.reset
  s.ctl.life = .uninit ∧ s.ctl.mode = .sleep ∧ s.ctl.txbusy = false ∧ s.ctl.rxPend = false ∧
  s.tmr.safetyArmed = false ∧ s.tmr.bgArmed = false ∧ s.tmr.dioEn = false ∧ s.rx.valid = false ∧
  s.trk.lastAfcV = false ∧ s.cfg.freqV = false ∧ s.cfg.bitrateV = false ∧ s.cfg.fdevV = false ∧ s.cfg.rxbwV = false ∧
  s.cfg.afcbwV = false ∧ s.cfg.preambleV = false ∧ s.cfg.syncV = false ∧ s.cfg.pktlenV = false ∧
  s.cfg.rxcontV = false ∧ s.tmr.safetySeq = 0 ∧ s.codec.vacc = 0 ∧ s.codec.vcnt = 0

end
end

