-- ==== Sys2Proof/Laws/Memory.lean ====
section
/-! SUPPORT. The register memory: read after write, and every write keeps the canonical form. -/

namespace Sys2Proof.Machine

theorem memRead_above (m : Memory) (k : Nat) (h : memAbove k m = true) : ∀ a, a ≤ k → memRead m a = memDefault := by
  induction m with
  | nil => intro a _; rfl
  | cons c m ih =>
    obtain ⟨b, w⟩ := c
    simp only [memAbove, List.all_cons, Bool.and_eq_true, decide_eq_true_eq] at h
    intro a ha
    have hb : b ≠ a := by omega
    simp only [memRead, hb, if_false]
    exact ih h.2 a ha

/-- Read after write: the byte written at its address, every other byte as before. -/
theorem memRead_memWrite (m : Memory) (h : Memory.wf m = true) (a : Nat) (v : Byte) (b : Nat) :
    memRead (memWrite m a v) b = if b = a then v else memRead m b := by
  induction m with
  | nil =>
    unfold memWrite
    by_cases hb : b = a
    · subst hb; by_cases hv : v = memDefault <;> simp [memRead, hv]
    · have : a ≠ b := fun e => hb e.symm
      by_cases hv : v = memDefault <;> simp [memRead, hv, hb, this]
  | cons c m ih =>
    obtain ⟨k, w⟩ := c
    simp only [Memory.wf, Bool.and_eq_true, decide_eq_true_eq] at h
    obtain ⟨⟨⟨_, hw⟩, hab⟩, hm⟩ := h
    have ih := ih hm
    unfold memWrite
    by_cases h1 : a < k
    · have hd : memRead ((k, w) :: m) a = memDefault := by
        have : k ≠ a := by omega
        simp only [memRead, this, if_false]
        exact memRead_above m k hab a (by omega)
      by_cases hv : v = memDefault
      · by_cases hb : b = a
        · subst hb; simp [h1, hv, hd]
        · simp [h1, hv, hb]
      · by_cases hb : b = a
        · subst hb; simp [h1, hv, memRead]
        · have : a ≠ b := fun e => hb e.symm
          simp [h1, hv, memRead, hb, this]
    · by_cases h2 : a = k
      · subst h2
        by_cases hv : v = memDefault
        · by_cases hb : b = a
          · subst hb; simp [hv, memRead_above m b hab b (Nat.le_refl _)]
          · have : a ≠ b := fun e => hb e.symm
            simp [hv, memRead, hb, this]
        · by_cases hb : b = a
          · subst hb; simp [hv, memRead]
          · have : a ≠ b := fun e => hb e.symm
            simp [hv, memRead, hb, this]
      · simp only [h1, h2, if_false, memRead]
        by_cases hk : k = b
        · have : b ≠ a := by omega
          simp [hk, this]
        · simp only [hk, if_false, ih]

theorem memAbove_memWrite (m : Memory) (k a : Nat) (v : Byte) (h : memAbove k m = true) (ha : k < a) :
    memAbove k (memWrite m a v) = true := by
  induction m with
  | nil => unfold memWrite; split <;> simp [memAbove, ha]
  | cons c m ih =>
    obtain ⟨b, w⟩ := c
    simp only [memAbove, List.all_cons, Bool.and_eq_true, decide_eq_true_eq] at h ih ⊢
    unfold memWrite
    split
    · split <;> simp [h.1, ha] <;> simpa using h.2
    · split
      · split <;> simp [ha] <;> simpa using h.2
      · simp only [List.all_cons, Bool.and_eq_true, decide_eq_true_eq]
        exact ⟨h.1, ih h.2⟩

theorem memAbove_mono (m : Memory) (j k : Nat) (hjk : j ≤ k) (h : memAbove k m = true) : memAbove j m = true := by
  simp only [memAbove, List.all_eq_true, decide_eq_true_eq] at h ⊢
  exact fun c hc => Nat.lt_of_le_of_lt hjk (h c hc)

/-- A write inside the address space keeps the canonical form. -/
theorem wf_memWrite (m : Memory) (h : Memory.wf m = true) (a : Nat) (ha : a < 128) (v : Byte) :
    Memory.wf (memWrite m a v) = true := by
  induction m with
  | nil =>
    unfold memWrite
    split
    · rfl
    · next hv => simp [Memory.wf, memAbove, ha, hv]
  | cons c m ih =>
    obtain ⟨b, w⟩ := c
    have h' := h
    simp only [Memory.wf, Bool.and_eq_true, decide_eq_true_eq] at h
    obtain ⟨⟨⟨hb, hw⟩, hab⟩, hm⟩ := h
    unfold memWrite
    by_cases h1 : a < b
    · by_cases hv : v = memDefault
      · simpa [h1, hv] using h'
      · have hcons : memAbove a ((b, w) :: m) = true := by
          have := memAbove_mono m a b (by omega) hab
          simp only [memAbove, List.all_cons, Bool.and_eq_true, decide_eq_true_eq] at this ⊢
          exact ⟨h1, this⟩
        simp only [h1, hv, if_true, if_false]
        unfold Memory.wf
        simp [ha, hv, hcons, h']
    · by_cases h2 : a = b
      · subst h2
        by_cases hv : v = memDefault
        · simpa [hv] using hm
        · simp [hv, Memory.wf, hab, hm, ha]
      · simp only [h1, h2, if_false]
        unfold Memory.wf
        simp [hb, ih hm, memAbove_memWrite m b a v hab (by omega)]
        simpa using hw

end Sys2Proof.Machine
end

