-- ==== Sys2Proof/Laws/Monad.lean ====
section
/-! SUPPORT. How operations compose: one equation each for `pure`, `>>=`, lifting and the primitives, for `M` and for `R`;
they are the simp set that runs an operation symbolically. -/

namespace Sys2Proof.Machine

variable {α β : Type}

@[simp] theorem pure_M (a : α) (s : State) : (pure a : M α) s = .ok (a, s) := rfl

@[simp] theorem bind_M (x : M α) (f : α → M β) (s : State) :
    (x >>= f) s = match x s with
      | .ok (a, t) => f a t
      | .error e => .error e := by
  show (x s >>= fun y => f y.1 y.2) = _
  cases x s <;> rfl

@[simp] theorem map_M (f : α → β) (x : M α) (s : State) :
    (f <$> x) s = match x s with
      | .ok (a, t) => .ok (f a, t)
      | .error e => .error e := by
  show (x s >>= fun y => pure (f y.1, y.2)) = _
  cases x s <;> rfl

@[simp] theorem except_map_ok {ε : Type} (f : α → β) (a : α) : Except.map f (.ok a : Except ε α) = .ok (f a) := rfl

@[simp] theorem except_map_error {ε : Type} (f : α → β) (e : ε) : Except.map f (.error e : Except ε α) = .error e := rfl

@[simp] theorem pure_R (a : α) (s : State) : (pure a : R α).run s = .ok (.ok a, s) := rfl

@[simp] theorem bind_R (x : R α) (f : α → R β) (s : State) :
    (x >>= f).run s = match x.run s with
      | .ok (.ok a, t) => (f a).run t
      | .ok (.error e, t) => .ok (.error e, t)
      | .error e => .error e := by
  show ((x.run >>= ExceptT.bindCont f) : M (Except Raised β)) s = _
  rw [bind_M]
  cases x.run s with
  | error e => rfl
  | ok y => cases y with
    | mk r t => cases r <;> rfl

@[simp] theorem lift_R (x : M α) (s : State) :
    (liftM x : R α).run s = match x s with
      | .ok (a, t) => .ok (.ok a, t)
      | .error e => .error e := by
  show ((x >>= fun a => pure (Except.ok a)) : M (Except Raised α)) s = _
  rw [bind_M]
  cases x s <;> rfl

@[simp] theorem raise_R (e : Exc) (info : U16) (s : State) : (raise e info : R α).run s = .ok (.error ⟨e, info⟩, s) := rfl

@[simp] theorem ite_R (c : Prop) [Decidable c] (x y : R α) (s : State) :
    (if c then x else y).run s = if c then x.run s else y.run s := by split <;> rfl

@[simp] theorem ite_M (c : Prop) [Decidable c] (x y : M α) (s : State) :
    (if c then x else y) s = if c then x s else y s := by split <;> rfl

@[simp] theorem require_true (e : Exc) (info : U16) (s : State) : (require true e info).run s = .ok (.ok (), s) := rfl

@[simp] theorem require_false (e : Exc) (info : U16) (s : State) :
    (require false e info).run s = .ok (.error ⟨e, info⟩, s) := rfl

@[simp] theorem current_M (s : State) : current s = .ok (s, s) := rfl

@[simp] theorem update_M (f : State → State) (s : State) : update f s = .ok ((), f s) := rfl

@[simp] theorem emit_M (a : Action) (s : State) : emit a s = .ok ((), s.emit a) := rfl

/-! ### What a command and a handler answer -/

theorem command_ok {m : R Response} {s t : State} {r : Response} (h : m.run s = .ok (.ok r, t)) :
    command m s = .next (t.emit (.respond r)) := by simp [command, h]

theorem command_raised {m : R Response} {s t : State} {e : Raised} (h : m.run s = .ok (.error e, t)) :
    command m s = .next (t.emit (.respond (.exc e.code e.info))) := by simp [command, h]

theorem handler_ok {m : M Unit} {s t : State} (h : m s = .ok ((), t)) : handler m s = .next t := by simp [handler, h]

/-- Everything a command can answer: a next state with one response, or the fault of its operation. -/
theorem command_next {m : R Response} {s t : State} (h : command m s = .next t) :
    ∃ u, (∃ r, m.run s = .ok (.ok r, u) ∧ t = u.emit (.respond r)) ∨
      (∃ e : Raised, m.run s = .ok (.error e, u) ∧ t = u.emit (.respond (.exc e.code e.info))) := by
  unfold command at h
  split at h
  · next r u hr => exact ⟨u, .inl ⟨r, hr, by cases h; rfl⟩⟩
  · next e u hr => exact ⟨u, .inr ⟨e, hr, by cases h; rfl⟩⟩
  · cases h

/-- Everything a handler can answer with a next state. -/
theorem handler_next {m : M Unit} {s t : State} (h : handler m s = .next t) : m s = .ok ((), t) := by
  unfold handler at h
  split at h
  · next u hr => cases h; exact hr
  · cases h

end Sys2Proof.Machine
end

