-- ==== Sys2Proof/Laws/State.lean ====
section
/-! SUPPORT. What each named update of the state leaves and what it writes, one lemma per field. -/

namespace Sys2Proof.Machine

variable (s : State)

/-! ### emit -/

@[simp] theorem State.emit_ctl (a : Action) : (s.emit a).ctl = s.ctl := rfl
@[simp] theorem State.emit_rx (a : Action) : (s.emit a).rx = s.rx := rfl
@[simp] theorem State.emit_trk (a : Action) : (s.emit a).trk = s.trk := rfl
@[simp] theorem State.emit_tmr (a : Action) : (s.emit a).tmr = s.tmr := rfl
@[simp] theorem State.emit_cfg (a : Action) : (s.emit a).cfg = s.cfg := rfl
@[simp] theorem State.emit_codec (a : Action) : (s.emit a).codec = s.codec := rfl
@[simp] theorem State.emit_env (a : Action) : (s.emit a).env = s.env := rfl
@[simp] theorem State.emit_inbox (a : Action) : (s.emit a).inbox = s.inbox := rfl
@[simp] theorem State.emit_params (a : Action) : (s.emit a).params = s.params := rfl
@[simp] theorem State.emit_io (a : Action) : (s.emit a).io = { s.io with trace := s.io.trace ++ [a] } := rfl
@[simp] theorem State.emit_p (a : Action) : (s.emit a).p = s.p := rfl

/-! ### withEnv -/

@[simp] theorem State.withEnv_ctl (e : Env) : (s.withEnv e).ctl = s.ctl := rfl
@[simp] theorem State.withEnv_rx (e : Env) : (s.withEnv e).rx = s.rx := rfl
@[simp] theorem State.withEnv_trk (e : Env) : (s.withEnv e).trk = s.trk := rfl
@[simp] theorem State.withEnv_tmr (e : Env) : (s.withEnv e).tmr = s.tmr := rfl
@[simp] theorem State.withEnv_cfg (e : Env) : (s.withEnv e).cfg = s.cfg := rfl
@[simp] theorem State.withEnv_codec (e : Env) : (s.withEnv e).codec = s.codec := rfl
@[simp] theorem State.withEnv_io (e : Env) : (s.withEnv e).io = s.io := rfl
@[simp] theorem State.withEnv_inbox (e : Env) : (s.withEnv e).inbox = s.inbox := rfl
@[simp] theorem State.withEnv_params (e : Env) : (s.withEnv e).params = s.params := rfl
@[simp] theorem State.withEnv_env (e : Env) : (s.withEnv e).env = e := rfl
@[simp] theorem State.withEnv_p (e : Env) : (s.withEnv e).p = s.p := rfl

/-! ### setXbuf -/

@[simp] theorem State.setXbuf_ctl (a : Addr) (v : Byte) : (s.setXbuf a v).ctl = s.ctl := rfl
@[simp] theorem State.setXbuf_rx (a : Addr) (v : Byte) : (s.setXbuf a v).rx = s.rx := rfl
@[simp] theorem State.setXbuf_trk (a : Addr) (v : Byte) : (s.setXbuf a v).trk = s.trk := rfl
@[simp] theorem State.setXbuf_tmr (a : Addr) (v : Byte) : (s.setXbuf a v).tmr = s.tmr := rfl
@[simp] theorem State.setXbuf_cfg (a : Addr) (v : Byte) : (s.setXbuf a v).cfg = s.cfg := rfl
@[simp] theorem State.setXbuf_codec (a : Addr) (v : Byte) : (s.setXbuf a v).codec = s.codec := rfl
@[simp] theorem State.setXbuf_env (a : Addr) (v : Byte) : (s.setXbuf a v).env = s.env := rfl
@[simp] theorem State.setXbuf_inbox (a : Addr) (v : Byte) : (s.setXbuf a v).inbox = s.inbox := rfl
@[simp] theorem State.setXbuf_params (a : Addr) (v : Byte) : (s.setXbuf a v).params = s.params := rfl
@[simp] theorem State.setXbuf_io (a : Addr) (v : Byte) : (s.setXbuf a v).io = { s.io with xbufAddr := a, xbufData := v } := rfl
@[simp] theorem State.setXbuf_p (a : Addr) (v : Byte) : (s.setXbuf a v).p = s.p := rfl

/-! ### setMode -/

@[simp] theorem State.setMode_rx (m : Mode) : (s.setMode m).rx = s.rx := rfl
@[simp] theorem State.setMode_trk (m : Mode) : (s.setMode m).trk = s.trk := rfl
@[simp] theorem State.setMode_tmr (m : Mode) : (s.setMode m).tmr = s.tmr := rfl
@[simp] theorem State.setMode_cfg (m : Mode) : (s.setMode m).cfg = s.cfg := rfl
@[simp] theorem State.setMode_codec (m : Mode) : (s.setMode m).codec = s.codec := rfl
@[simp] theorem State.setMode_io (m : Mode) : (s.setMode m).io = s.io := rfl
@[simp] theorem State.setMode_env (m : Mode) : (s.setMode m).env = s.env := rfl
@[simp] theorem State.setMode_inbox (m : Mode) : (s.setMode m).inbox = s.inbox := rfl
@[simp] theorem State.setMode_params (m : Mode) : (s.setMode m).params = s.params := rfl
@[simp] theorem State.setMode_ctl (m : Mode) : (s.setMode m).ctl = { s.ctl with mode := m } := rfl
@[simp] theorem State.setMode_p (m : Mode) : (s.setMode m).p = s.p := rfl

/-! ### Reset -/

@[simp] theorem State.reset_ctl : State.reset.ctl = Ctl.reset := rfl
@[simp] theorem State.reset_rx : State.reset.rx = RxMeta.reset := rfl
@[simp] theorem State.reset_trk : State.reset.trk = Tracker.reset := rfl
@[simp] theorem State.reset_tmr : State.reset.tmr = Timers.reset := rfl
@[simp] theorem State.reset_cfg : State.reset.cfg = CfgRegs.reset := rfl
@[simp] theorem State.reset_codec : State.reset.codec = Codec.reset := rfl
@[simp] theorem State.reset_io : State.reset.io = Io.reset := rfl
@[simp] theorem State.reset_env : State.reset.env = Env.reset := rfl
@[simp] theorem State.reset_inbox : State.reset.inbox = [] := rfl
@[simp] theorem State.reset_params : State.reset.params = none := rfl

end Sys2Proof.Machine
end

