-- ==== Sys2Proof/Laws/Bus.lean ====
section
/-! SUPPORT. What each bus primitive can do, said once: the state it leaves, and what it does to the environment (`EnvStep`:
a healthy script stays healthy, only the stored registers change, the register memory keeps its canonical form). -/

namespace Sys2Proof.Machine

/-- What an access that stores to the listed registers does to the environment. -/
structure EnvStep (stored : List Addr) (e e' : Env) : Prop where
  healthy : BusAnswer.error ∉ e.answers → BusAnswer.error ∉ e'.answers
  regs : RegsKept stored e e'
  canonical : (∀ x, e.refx = some x → Memory.wf x.regs = true) → ∀ x, e'.refx = some x → Memory.wf x.regs = true

theorem EnvStep.refl (stored : List Addr) (e : Env) : EnvStep stored e e :=
  ⟨id, fun _ _ => rfl, id⟩

theorem EnvStep.trans {l l' : List Addr} {e e' e'' : Env} (h : EnvStep l e e') (h' : EnvStep l' e' e'') :
    EnvStep (l ++ l') e e'' := by
  refine ⟨fun x => h'.healthy (h.healthy x), fun a ha => ?_, fun x => h'.canonical (h.canonical x)⟩
  simp only [List.map_append, List.mem_append, not_or] at ha
  rw [h'.regs a ha.2, h.regs a ha.1]

theorem EnvStep.mono {l l' : List Addr} {e e' : Env} (h : EnvStep l e e') (hl : ∀ a ∈ l, a ∈ l') : EnvStep l' e e' := by
  refine ⟨h.healthy, fun a ha => h.regs a fun hm => ha ?_, h.canonical⟩
  obtain ⟨b, hb, rfl⟩ := List.mem_map.1 hm
  exact List.mem_map.2 ⟨b, hl b hb, rfl⟩

/-! ### Answers and effects -/

theorem refxRead_env (p : Params) (a : Addr) (x : RefX) (e : Env) (hx : e.refx = some x) :
    EnvStep [] e (refxRead p a x e).2 := by
  unfold refxRead
  split
  · split
    · refine ⟨id, fun b _ => by simp [envReg, hx], fun h y hy => ?_⟩
      cases hy; exact h x hx
    · exact ⟨id, fun _ _ => rfl, id⟩
  · split
    · refine ⟨id, fun b _ => by simp [envReg, hx], fun h y hy => ?_⟩
      cases hy; exact h x hx
    · exact .refl [] e

theorem refxRead_byte (p : Params) (a : Addr) (x : RefX) (e : Env) : ∃ v, (refxRead p a x e).1 = .byte v := by
  unfold refxRead
  split
  · split <;> exact ⟨_, rfl⟩
  · split <;> exact ⟨_, rfl⟩

theorem readAnswer_env (b : Bool) (p : Params) (a : Addr) (e : Env) : EnvStep [] e (readAnswer b p a e).2 := by
  unfold readAnswer
  split
  · next x hx => exact refxRead_env p a x e hx
  · next hx =>
    split
    · next r rest ha =>
      refine ⟨fun h hm => h ?_, fun _ _ => rfl, id⟩
      rw [ha]; exact List.mem_cons_of_mem _ hm
    · exact ⟨id, fun _ _ => rfl, id⟩

/-- Outside a poll, a healthy environment answers a byte. -/
theorem readAnswer_byte (p : Params) (a : Addr) (e : Env) (h : BusAnswer.error ∉ e.answers) :
    ∃ v, (readAnswer false p a e).1 = .byte v := by
  unfold readAnswer
  split
  · exact refxRead_byte ..
  · split
    · next r rest ha =>
      cases r with
      | byte v => exact ⟨v, rfl⟩
      | error => exact absurd (by rw [ha]; exact List.mem_cons_self ..) h
    · exact ⟨_, rfl⟩

theorem memRead_memWrite_of_ne (m : Memory) (a b : Nat) (v : Byte) (h : b ≠ a) :
    memRead (memWrite m a v) b = memRead m b := by
  have hab : a ≠ b := fun e => h e.symm
  induction m with
  | nil => unfold memWrite; split <;> simp [memRead, hab]
  | cons c m ih =>
    obtain ⟨k, w⟩ := c
    unfold memWrite
    split
    · split <;> simp [memRead, hab]
    · split
      · next hk => subst hk; split <;> simp [memRead, hab]
      · simp only [memRead, ih]

theorem writeEffect_env (p : Params) (a : Addr) (v : Byte) (e : Env) : EnvStep [a] e (writeEffect p a v e) := by
  unfold writeEffect
  split
  · exact .refl _ e
  · next x hx =>
    split
    · refine ⟨id, fun b _ => by simp [envReg, hx], fun h y hy => ?_⟩
      cases hy; exact h x hx
    · refine ⟨id, fun b hb => ?_, fun h y hy => ?_⟩
      · simp only [List.map_cons, List.map_nil, List.mem_singleton] at hb
        simp [envReg, hx, memRead_memWrite_of_ne _ _ _ _ hb]
      · cases hy; exact wf_memWrite _ (h x hx) _ (BitVec.isLt a) _

theorem readMany_env (p : Params) (a : Addr) (n : Nat) : ∀ e, EnvStep [] e (readMany p a n e).2 := by
  induction n with
  | zero => exact fun e => .refl [] e
  | succ n ih => exact fun e => (readAnswer_env false p a e).trans (ih _)

theorem readMany_bytes (p : Params) (a : Addr) (n : Nat) :
    ∀ e, BusAnswer.error ∉ e.answers → ∃ bs, allBytes (readMany p a n e).1 = some bs ∧ bs.length = n := by
  induction n with
  | zero => exact fun e _ => ⟨[], rfl, rfl⟩
  | succ n ih =>
    intro e he
    obtain ⟨v, hv⟩ := readAnswer_byte p a e he
    obtain ⟨bs, hbs, hl⟩ := ih _ ((readAnswer_env false p a e).healthy he)
    exact ⟨v :: bs, by simp [readMany, hv, allBytes, hbs], by simp [hl]⟩

theorem writeMany_env (p : Params) (a : Addr) (bs : List Byte) : ∀ e, EnvStep [a] e (writeMany p a bs e) := by
  induction bs with
  | nil => exact fun e => .refl _ e
  | cons v vs ih =>
    intro e
    exact ((writeEffect_env p a v e).trans (ih _)).mono (by simp)

/-! ### The transactions -/

/-- The state a single-register transaction leaves. -/
def State.afterBus (s : State) (a : Addr) (v : Byte) (e : Env) (x : Action) : State :=
  ((s.withEnv e).setXbuf a v).emit x

section
variable (s : State) (a : Addr) (v : Byte) (e : Env) (x : Action)
@[simp] theorem State.afterBus_ctl : (s.afterBus a v e x).ctl = s.ctl := rfl
@[simp] theorem State.afterBus_rx : (s.afterBus a v e x).rx = s.rx := rfl
@[simp] theorem State.afterBus_trk : (s.afterBus a v e x).trk = s.trk := rfl
@[simp] theorem State.afterBus_tmr : (s.afterBus a v e x).tmr = s.tmr := rfl
@[simp] theorem State.afterBus_cfg : (s.afterBus a v e x).cfg = s.cfg := rfl
@[simp] theorem State.afterBus_codec : (s.afterBus a v e x).codec = s.codec := rfl
@[simp] theorem State.afterBus_env : (s.afterBus a v e x).env = e := rfl
@[simp] theorem State.afterBus_inbox : (s.afterBus a v e x).inbox = s.inbox := rfl
@[simp] theorem State.afterBus_params : (s.afterBus a v e x).params = s.params := rfl
@[simp] theorem State.afterBus_p : (s.afterBus a v e x).p = s.p := rfl
@[simp] theorem State.afterBus_io : (s.afterBus a v e x).io =
    { s.io with xbufAddr := a, xbufData := v, trace := s.io.trace ++ [x] } := rfl
end

/-- XRead outside a poll, everything it can answer: the byte read and the state after one transaction. -/
theorem xread_ok {a : Addr} {s t : State} {v : Byte} (h : xread a s = .ok (v, t)) :
    ∃ e, EnvStep [] s.env e ∧ t = s.afterBus a v e (.xread a (.byte v)) := by
  unfold xread at h
  split at h
  · next w e hw =>
    cases h
    refine ⟨e, ?_, rfl⟩
    have := readAnswer_env false s.p a s.env
    rw [hw] at this; exact this
  · cases h

/-- XRead completes on a healthy bus. -/
theorem xread_total (a : Addr) (s : State) (h : BusHealthy s) :
    ∃ v e, xread a s = .ok (v, s.afterBus a v e (.xread a (.byte v))) ∧ EnvStep [] s.env e := by
  obtain ⟨v, hv⟩ := readAnswer_byte s.p a s.env h
  have he := readAnswer_env false s.p a s.env
  refine ⟨v, (readAnswer false s.p a s.env).2, ?_, he⟩
  unfold xread
  have : readAnswer false s.p a s.env = (.byte v, (readAnswer false s.p a s.env).2) := by rw [← hv]
  rw [this]; rfl

/-- XWrite always completes. -/
@[simp] theorem xwrite_M (a : Addr) (v : Byte) (s : State) :
    xwrite a v s = .ok ((), s.afterBus a v (writeEffect s.p a v s.env) (.xwrite a v)) := rfl

/-- XBurstRead completes on a healthy bus, with as many bytes as asked for. -/
theorem xburstRead_total (a : Addr) (n : Nat) (s : State) (h : BusHealthy s) :
    ∃ bs e, xburstRead a n s = .ok (bs, (s.withEnv e).emit (.burstRead a bs)) ∧ bs.length = n ∧ EnvStep [] s.env e := by
  obtain ⟨bs, hb, hl⟩ := readMany_bytes s.p a n s.env h
  exact ⟨bs, (readMany s.p a n s.env).2, by unfold xburstRead; simp [hb], hl, readMany_env ..⟩

theorem xburstRead_ok {a : Addr} {n : Nat} {s t : State} {bs : List Byte} (h : xburstRead a n s = .ok (bs, t)) :
    ∃ e, EnvStep [] s.env e ∧ t = (s.withEnv e).emit (.burstRead a bs) := by
  unfold xburstRead at h
  simp only at h
  split at h
  · cases h; exact ⟨_, readMany_env .., rfl⟩
  · cases h

/-- XBurstWrite always completes. -/
@[simp] theorem xburstWrite_M (a : Addr) (bs : List Byte) (s : State) :
    xburstWrite a bs s = .ok ((), (s.withEnv (writeMany s.p a bs s.env)).emit (.burstWrite a bs)) := rfl

/-! ### The internal primitives -/

@[simp] theorem setMode_M (m : Mode) (s : State) :
    setMode m s = .ok ((), (s.afterBus s.p.xr.opmode (s.p.opmodeBase ||| modeCode m)
      (writeEffect s.p s.p.xr.opmode (s.p.opmodeBase ||| modeCode m) s.env)
      (.xwrite s.p.xr.opmode (s.p.opmodeBase ||| modeCode m))).setMode m) := by
  simp [setMode]

@[simp] theorem restartRx_M (s : State) :
    restartRx s = .ok ((), s.afterBus s.p.xr.rxconfig s.p.restartValue
      (writeEffect s.p s.p.xr.rxconfig s.p.restartValue s.env) (.xwrite s.p.xr.rxconfig s.p.restartValue)) := by
  simp [restartRx]

@[simp] theorem diag_M (c : Byte) (v : U16) (s : State) : diag c v s = .ok ((), s.emit (.notify (.diag c v))) := rfl

@[simp] theorem wait_M (ms : Nat) (s : State) : wait ms s = .ok ((), s.emit (.wait ms)) := rfl

end Sys2Proof.Machine
end

