-- ==== Sys2Proof/Laws/Admit.lean ====
section
/-! SUPPORT. What admission and the datapath's setters do, one equation each. -/

namespace Sys2Proof.Machine

/-- Codec commands and STATUS are admitted in every LIFE state. -/
@[simp] theorem admit_always (s : State) : (checkAdmission .always).run s = .ok (.ok (), s) := by
  simp [checkAdmission, admits]

/-- Admission of another class: passed, or E_NOT_READY with the LIFE code; no state changes. -/
theorem admit_run (c : CmdClass) (s : State) :
    (checkAdmission c).run s = if admits c s.ctl.life then .ok (.ok (), s) else .ok (.error ⟨.notReady, lifeInfo s.ctl.life⟩, s) := by
  cases h : admits c s.ctl.life <;> simp [checkAdmission, h]

theorem admit_radio {s : State} (h : s.ctl.life = .ready) : (checkAdmission .radio).run s = .ok (.ok (), s) := by
  simp [admit_run, admits, h]

theorem admit_radio_refused {s : State} (h : s.ctl.life ≠ .ready) :
    (checkAdmission .radio).run s = .ok (.error ⟨.notReady, lifeInfo s.ctl.life⟩, s) := by
  simp [admit_run, admits, h]

theorem admit_construct {s : State} (h : s.ctl.life ≠ .ready) : (checkAdmission .construct).run s = .ok (.ok (), s) := by
  simp [admit_run, admits, h]

theorem admit_construct_refused {s : State} (h : s.ctl.life = .ready) :
    (checkAdmission .construct).run s = .ok (.error ⟨.notReady, 1⟩, s) := by
  simp [admit_run, admits, h, lifeInfo, lifeCode]

@[simp] theorem setBuf_M (b : List Byte) (s : State) :
    setBuf b s = .ok ((), { s with codec := { s.codec with buf := b } }) := rfl

@[simp] theorem setDecoder_M (acc : U32) (cnt : Nat) (d : Bool) (v : Option U32) (s : State) :
    setDecoder acc cnt d v s = .ok ((), { s with codec :=
      { s.codec with vacc := acc, vcnt := BitVec.ofNat 9 cnt, vdone := d, vval := v.getD s.codec.vval } }) := rfl

@[simp] theorem setPacket_M (pk : Packet) (s : State) :
    setPacket pk s = .ok ((), { s with codec := { s.codec with pk := pk } }) := rfl

@[simp] theorem setSync_M (y : SyncRes) (s : State) :
    setSync y s = .ok ((), { s with codec := { s.codec with sy := y } }) := rfl

@[simp] theorem updateCfg_M (f : CfgRegs → CfgRegs) (s : State) : updateCfg f s = .ok ((), { s with cfg := f s.cfg }) := rfl

/-- A decode into the datapath: the decoder's registers, and the record where there is one. -/
theorem decodeInto_M (d : PDecode) (s : State) :
    decodeInto d s = .ok (d.pk, { s with codec :=
      { s.codec with vacc := d.acc, vcnt := BitVec.ofNat 9 d.cnt, vdone := true, pk := d.pk.getD s.codec.pk } }) := by
  cases h : d.pk <;> simp [decodeInto, h]

end Sys2Proof.Machine
end

