-- ==== Sys2Proof/Laws/Runs.lean ====
section
/-! SUPPORT. Actions in a row: what `Io.ran` and `BusRun` say of a list, and each bus primitive as one action of it. -/

namespace Sys2Proof.Machine

/-! ### Outputs after a list of actions -/

@[simp] theorem Io.ran_nil (io : Io) : io.ran [] = io := rfl

@[simp] theorem Io.ran_cons (io : Io) (x : Action) (xs : List Action) : io.ran (x :: xs) = (io.one x).ran xs := rfl

theorem Io.ran_append (io : Io) (xs ys : List Action) : io.ran (xs ++ ys) = (io.ran xs).ran ys := by
  induction xs generalizing io with
  | nil => rfl
  | cons x xs ih => exact ih _

/-- The history grows by exactly the actions. -/
theorem Io.ran_trace (io : Io) (xs : List Action) : (io.ran xs).trace = io.trace ++ xs := by
  induction xs generalizing io with
  | nil => simp
  | cons x xs ih =>
    rw [Io.ran_cons, ih]
    unfold Io.one
    split <;> simp

/-! ### The environment's reaction to a list of actions -/

/-- The registers a list of actions stores to. -/
def storedBy : List Action → List Addr
  | [] => []
  | .xwrite a _ :: xs => a :: storedBy xs
  | .burstWrite a _ :: xs => a :: storedBy xs
  | _ :: xs => storedBy xs

/-- What the actions store to is all that changes, and a healthy environment stays healthy. -/
theorem BusRun.env {p : Params} {xs : List Action} : ∀ {e e' : Env}, BusRun p e xs e' → EnvStep (storedBy xs) e e' := by
  induction xs with
  | nil => rintro e e' rfl; exact .refl _ _
  | cons x xs ih =>
    intro e e' h
    cases x
    case xread a r => exact ((readAnswer_env false p a e).trans (ih h.2)).mono (by simp [storedBy])
    case xwrite a v => exact ((writeEffect_env p a v e).trans (ih h)).mono (by simp [storedBy])
    case burstRead a bs => exact ((readMany_env p a _ e).trans (ih h.2)).mono (by simp [storedBy])
    case burstWrite a bs => exact ((writeMany_env p a bs e).trans (ih h)).mono (by simp [storedBy])
    all_goals exact ih h

theorem BusRun.regs {p : Params} {xs : List Action} {e e' : Env} {l : List Addr} (h : BusRun p e xs e')
    (hl : ∀ a ∈ storedBy xs, a ∈ l) : RegsKept l e e' := (h.env.mono hl).regs

theorem BusRun.append {p : Params} {xs ys : List Action} : ∀ {e e' e'' : Env},
    BusRun p e xs e' → BusRun p e' ys e'' → BusRun p e (xs ++ ys) e'' := by
  induction xs with
  | nil => rintro e e' e'' rfl h; exact h
  | cons x xs ih =>
    intro e e' e'' h h'
    cases x
    case xread a r => exact ⟨h.1, ih h.2 h'⟩
    case burstRead a bs => exact ⟨h.1, ih h.2 h'⟩
    all_goals exact ih h h'

/-! ### The primitives as actions -/

/-- The state after a list of actions that left the environment `e`. -/
def State.did (s : State) (e : Env) (xs : List Action) : State := { s with env := e, io := s.io.ran xs }

section
variable (s : State) (e : Env) (xs : List Action)
@[simp] theorem State.did_ctl : (s.did e xs).ctl = s.ctl := rfl
@[simp] theorem State.did_rx : (s.did e xs).rx = s.rx := rfl
@[simp] theorem State.did_trk : (s.did e xs).trk = s.trk := rfl
@[simp] theorem State.did_tmr : (s.did e xs).tmr = s.tmr := rfl
@[simp] theorem State.did_cfg : (s.did e xs).cfg = s.cfg := rfl
@[simp] theorem State.did_codec : (s.did e xs).codec = s.codec := rfl
@[simp] theorem State.did_env : (s.did e xs).env = e := rfl
@[simp] theorem State.did_inbox : (s.did e xs).inbox = s.inbox := rfl
@[simp] theorem State.did_params : (s.did e xs).params = s.params := rfl
@[simp] theorem State.did_p : (s.did e xs).p = s.p := rfl
@[simp] theorem State.did_io : (s.did e xs).io = s.io.ran xs := rfl
end

/-- A read on a healthy bus: some byte, and one action. -/
theorem xread_did (a : Addr) (s : State) (h : BusHealthy s) :
    ∃ v e, xread a s = .ok (v, s.did e [.xread a (.byte v)]) ∧ BusRun s.p s.env [.xread a (.byte v)] e ∧
      BusHealthy (s.did e [.xread a (.byte v)]) := by
  obtain ⟨v, hv⟩ := readAnswer_byte s.p a s.env h
  refine ⟨v, (readAnswer false s.p a s.env).2, ?_, ⟨hv, rfl⟩, (readAnswer_env false s.p a s.env).healthy h⟩
  unfold xread
  have : readAnswer false s.p a s.env = (.byte v, (readAnswer false s.p a s.env).2) := by rw [← hv]
  rw [this]; rfl

/-- A bulk read on a healthy bus. -/
theorem xburstRead_did (a : Addr) (n : Nat) (s : State) (h : BusHealthy s) :
    ∃ bs e, xburstRead a n s = .ok (bs, s.did e [.burstRead a bs]) ∧ BusRun s.p s.env [.burstRead a bs] e ∧
      bs.length = n ∧ BusHealthy (s.did e [.burstRead a bs]) := by
  obtain ⟨bs, hb, hl⟩ := readMany_bytes s.p a n s.env h
  refine ⟨bs, (readMany s.p a n s.env).2, by unfold xburstRead; simp only [hb]; rfl, ?_, hl, (readMany_env ..).healthy h⟩
  subst hl
  exact ⟨hb, rfl⟩

/-- A write is one action. -/
theorem xwrite_did (a : Addr) (v : Byte) (s : State) :
    xwrite a v s = .ok ((), s.did (writeEffect s.p a v s.env) [.xwrite a v]) := rfl

/-- A bulk write is one action. -/
theorem xburstWrite_did (a : Addr) (bs : List Byte) (s : State) :
    xburstWrite a bs s = .ok ((), s.did (writeMany s.p a bs s.env) [.burstWrite a bs]) := rfl

/-- A list of pairs as writes. -/
def writesOf (ws : List (Addr × Byte)) : List Action := ws.map fun w => .xwrite w.1 w.2

/-- Writes in a row are their actions. -/
theorem xwriteAll_did (ws : List (Addr × Byte)) : ∀ s : State,
    ∃ e, xwriteAll ws s = .ok ((), s.did e (writesOf ws)) ∧ BusRun s.p s.env (writesOf ws) e := by
  induction ws with
  | nil => exact fun s => ⟨s.env, rfl, rfl⟩
  | cons w ws ih =>
    intro s
    obtain ⟨e, he, hr⟩ := ih (s.did (writeEffect s.p w.1 w.2 s.env) [.xwrite w.1 w.2])
    refine ⟨e, ?_, hr⟩
    rw [xwriteAll]
    simp only [bind_M, xwrite_did]
    exact he

end Sys2Proof.Machine
end

