-- ==== Sys2Proof/Laws/Poll.lean ====
section
/-! SUPPORT. The timed polls: what the environment's draw makes of them, said once. -/

namespace Sys2Proof.Machine

/-- One read of a timed poll is one action; the environment moves as `turnAnswer` says. -/
theorem xreadPoll_did (a : Addr) (d : BusAnswer) (s : State) :
    xreadPoll a d s = .ok ((turnAnswer s.p a d s.env).1,
      s.did (turnAnswer s.p a d s.env).2 [.xread a (turnAnswer s.p a d s.env).1]) := by
  unfold xreadPoll afterPollRead
  generalize turnAnswer s.p a d s.env = x
  obtain ⟨r, e⟩ := x
  cases r <;> rfl

theorem turnAnswer_env (p : Params) (a : Addr) (d : BusAnswer) (e : Env) : EnvStep [] e (turnAnswer p a d e).2 := by
  unfold turnAnswer
  split
  · exact .refl _ _
  · next x hx => exact refxRead_env p a x e hx

theorem pollAnswers_env (p : Params) (a : Addr) (ds : List PollRead) : ∀ e, EnvStep [] e (pollAnswers p a ds e).2 := by
  induction ds with
  | nil => exact fun e => .refl _ e
  | cons d ds ih => exact fun e => (turnAnswer_env p a d.answer e).trans (ih _)

theorem nextPoll_env (e : Env) : EnvStep [] e (nextPoll e).2 := by
  unfold nextPoll
  split <;> exact ⟨id, fun _ _ => rfl, id⟩

theorem nextTick_env (e : Env) : EnvStep [] e (nextTick e).2 := by
  unfold nextTick
  split <;> exact ⟨id, fun _ _ => rfl, id⟩

theorem pollAnswers_length (p : Params) (a : Addr) (ds : List PollRead) :
    ∀ e, (pollAnswers p a ds e).1.length = ds.length := by
  induction ds with
  | nil => exact fun _ => rfl
  | cons d ds ih => exact fun e => by simp [pollAnswers, ih]

/-- A poll goes on over turns that are neither done nor over, and then stands at the turn after them. -/
theorem pollTurns_goes_on (a : Addr) (done : Byte → Bool) (t0 : U32) (budget : Nat) (pre rest : List PollRead) :
    ∀ s : State, List.Forall₂ (pollGoesOn done t0 budget) pre (pollAnswers s.p a pre s.env).1 →
      pollTurns a done t0 budget (pre ++ rest) s =
        pollTurns a done t0 budget rest
          (s.did (pollAnswers s.p a pre s.env).2 (readsOf a (pollAnswers s.p a pre s.env).1)) := by
  induction pre with
  | nil => exact fun s _ => rfl
  | cons d ds ih =>
    intro s h
    simp only [pollAnswers, List.forall₂_cons, pollGoesOn] at h
    obtain ⟨⟨hs, ht⟩, h⟩ := h
    have hnot : ¬ budget ≤ (d.tick - t0).toNat := Nat.not_le.2 ht
    have hstep := ih (s.did (turnAnswer s.p a d.answer s.env).2 [.xread a (turnAnswer s.p a d.answer s.env).1]) h
    rw [List.cons_append, pollTurns]
    simp only [bind_M, xreadPoll_did]
    have key : ∀ r : BusAnswer, seen done r = false → ∀ u : State,
        (match r with
          | .byte v => if done v then pure true else if budget ≤ (d.tick - t0).toNat then pure false
              else pollTurns a done t0 budget (ds ++ rest)
          | .error => if budget ≤ (d.tick - t0).toNat then pure false
              else pollTurns a done t0 budget (ds ++ rest) : M Bool) u = pollTurns a done t0 budget (ds ++ rest) u := by
      intro r hr u
      cases r with
      | byte v => simp only [seen] at hr; simp only [ite_M, hr, hnot, Bool.false_eq_true, if_false]
      | error => simp only [ite_M, hnot, if_false]
    refine (key _ hs _).trans ?_
    rw [hstep]
    rfl

theorem readsOf_append (a : Addr) (rs qs : List BusAnswer) : readsOf a (rs ++ qs) = readsOf a rs ++ readsOf a qs := by
  simp [readsOf]

theorem pollAnswers_append (p : Params) (a : Addr) (ds es : List PollRead) : ∀ e : Env,
    pollAnswers p a (ds ++ es) e =
      ((pollAnswers p a ds e).1 ++ (pollAnswers p a es (pollAnswers p a ds e).2).1,
        (pollAnswers p a es (pollAnswers p a ds e).2).2) := by
  induction ds with
  | nil => exact fun e => rfl
  | cons d ds ih => exact fun e => by simp [pollAnswers, ih]

/-- A timed poll that sees its condition: true, after its reads. -/
theorem timedPoll_sees {a : Addr} {done : Byte → Bool} {budget : Nat} {s : State} {rs : List BusAnswer} {e : Env}
    (h : PollSees s.p a done budget s.env rs e) : timedPoll a done budget s = .ok (true, s.did e (readsOf a rs)) := by
  obtain ⟨pre, x, post, hd, hr, hf, hl⟩ := h
  rw [pollAnswers_append] at hr
  simp only [pollAnswers, Prod.mk.injEq] at hr
  obtain ⟨rfl, rfl⟩ := hr
  rw [List.dropLast_concat] at hf
  simp only [List.getLast?_concat, Option.map_some, Option.some.injEq] at hl
  unfold timedPoll
  simp only [bind_M, takePoll, hd]
  rw [pollTurns_goes_on a done _ budget pre (x :: post) (s.withEnv (nextPoll s.env).2) hf, pollTurns]
  simp only [bind_M, xreadPoll_did]
  have key : ∀ (r : BusAnswer), seen done r = true → ∀ (u : State),
      (match r with
        | .byte v => if done v then pure true else if budget ≤ (x.tick - (nextPoll s.env).1.t0).toNat then pure false
            else pollTurns a done (nextPoll s.env).1.t0 budget post
        | .error => if budget ≤ (x.tick - (nextPoll s.env).1.t0).toNat then pure false
            else pollTurns a done (nextPoll s.env).1.t0 budget post : M Bool) u = .ok (true, u) := by
    intro r hr u
    cases r with
    | byte v => simp only [seen] at hr; simp [hr]
    | error => cases hr
  refine (key _ hl _).trans ?_
  rw [readsOf_append]
  simp only [State.did, State.withEnv, Io.ran_append, readsOf, List.map_cons, List.map_nil]
  rfl

/-- A timed poll that does not: false, after its reads. -/
theorem timedPoll_misses {a : Addr} {done : Byte → Bool} {budget : Nat} {s : State} {rs : List BusAnswer} {e : Env}
    (h : PollMisses s.p a done budget s.env rs e) : timedPoll a done budget s = .ok (false, s.did e (readsOf a rs)) := by
  obtain ⟨pre, x, post, hd, hr, hf, hl, hb⟩ := h
  rw [pollAnswers_append] at hr
  simp only [pollAnswers, Prod.mk.injEq] at hr
  obtain ⟨rfl, rfl⟩ := hr
  rw [List.dropLast_concat] at hf
  simp only [List.getLast?_concat, Option.map_some, Option.some.injEq] at hl
  unfold timedPoll
  simp only [bind_M, takePoll, hd]
  rw [pollTurns_goes_on a done _ budget pre (x :: post) (s.withEnv (nextPoll s.env).2) hf, pollTurns]
  simp only [bind_M, xreadPoll_did]
  have key : ∀ (r : BusAnswer), seen done r = false → ∀ (u : State),
      (match r with
        | .byte v => if done v then pure true else if budget ≤ (x.tick - (nextPoll s.env).1.t0).toNat then pure false
            else pollTurns a done (nextPoll s.env).1.t0 budget post
        | .error => if budget ≤ (x.tick - (nextPoll s.env).1.t0).toNat then pure false
            else pollTurns a done (nextPoll s.env).1.t0 budget post : M Bool) u = .ok (false, u) := by
    intro r hr u
    by_cases hB : budget ≤ (x.tick - (nextPoll s.env).1.t0).toNat
    · cases r with
      | byte v => simp only [seen] at hr; simp only [ite_M, hr, hB, Bool.false_eq_true, if_false, if_true, pure_M]
      | error => simp only [ite_M, hB, if_true, pure_M]
    · obtain rfl := hb.resolve_left hB
      cases r with
      | byte v => simp only [seen] at hr; simp only [ite_M, hr, hB, Bool.false_eq_true, if_false, pollTurns, pure_M]
      | error => simp only [ite_M, hB, if_false, pollTurns, pure_M]
  refine (key _ hl _).trans ?_
  rw [readsOf_append]
  simp only [State.did, State.withEnv, Io.ran_append, readsOf, List.map_cons, List.map_nil]
  rfl

end Sys2Proof.Machine
end

