-- ==== Sys2Proof/Laws/Operations.lean ====
section
/-! SUPPORT. What each shared operation above the bus does, said once, in the terms of `State.did` and `BusRun`; and the
arithmetic of the configuration options. -/

namespace Sys2Proof.Machine

/-! ### The actions of a command -/

/-- Answering is one more action. -/
theorem did_respond (s : State) (e : Env) (xs : List Action) (r : Response) :
    (s.did e xs).emit (.respond r) = { s with env := e, io := s.io.ran (xs ++ [.respond r]) } := by
  rw [Io.ran_append]; rfl

/-- Actions after actions. -/
theorem did_did (s : State) (e e' : Env) (xs ys : List Action) : (s.did e xs).did e' ys = s.did e' (xs ++ ys) := by
  simp only [State.did, Io.ran_append]

/-! ### Timers, ticks and modes -/

/-- cancelSafety: SAFETY_ARMED is 0 afterwards, and a pending timer is cancelled. -/
theorem cancelSafety_did (s : State) : cancelSafety s = .ok ((),
    { s with tmr := { s.tmr with safetyArmed := false }, io := s.io.ran (cancelled s) }) := by
  unfold cancelSafety cancelled
  cases h : s.tmr.safetyArmed
  · simp [h]; rw [← h]
  · simp [h]; rfl

/-- armOneShot: the handle is SAFETY_SEQ, which then moves on (10_state.md R29). -/
theorem armOneShot_did (ms : Nat) (s : State) : armOneShot ms s = .ok (s.tmr.safetySeq,
    { s with
      tmr := { s.tmr with safetySeq := s.tmr.safetySeq + 1 }
      io := s.io.ran [.armOneShot ms s.tmr.safetySeq] }) := by
  simp [armOneShot]; rfl

theorem now_did (s : State) : now s = .ok ((nextTick s.env).1, s.withEnv (nextTick s.env).2) := rfl

/-- SetMode: one write of XR_OPMODE, and MODE. -/
theorem setMode_did (m : Mode) (s : State) :
    let acts := [Action.xwrite s.p.xr.opmode (s.p.opmodeBase ||| modeCode m)]
    ∃ e, setMode m s = .ok ((), (s.did e acts).setMode m) ∧ BusRun s.p s.env acts e := ⟨_, rfl, rfl⟩

/-- The mode write of receiveIfContinuous. -/
def receiveActs (s : State) : List Action :=
  if rxContinuous s then [.xwrite s.p.xr.opmode (s.p.opmodeBase ||| 5)] else []

/-- Entering RECEIVE where continuous receive is configured, and nothing otherwise. -/
theorem receiveIfContinuous_did (s : State) :
    ∃ e, receiveIfContinuous s = .ok ((),
        { s.did e (receiveActs s) with ctl := { s.ctl with mode := if rxContinuous s then .receive else s.ctl.mode } }) ∧
      BusRun s.p s.env (receiveActs s) e := by
  unfold receiveIfContinuous receiveActs
  cases h : rxContinuous s
  · exact ⟨s.env, by simp [h, State.did], rfl⟩
  · exact ⟨_, by simp [h]; rfl, rfl⟩

/-! ### Reading a packet -/

/-- The bulk transfer of pullPacket: none for an empty packet (43_radio_rx_tx.md R232). -/
def pullActs (s : State) (bytes : List Byte) : List Action :=
  if s.ctl.rxLen = 0 then [] else [.burstRead s.p.xr.fifo bytes]

/-- The bytes of the pending packet, as many as RX_LEN says. -/
theorem pullPacket_did (s : State) (h : BusHealthy s) :
    ∃ bytes e, pullPacket s = .ok (bytes, s.did e (pullActs s bytes)) ∧ BusRun s.p s.env (pullActs s bytes) e ∧
      bytes.length = s.ctl.rxLen.toNat := by
  unfold pullPacket pullActs
  by_cases hl : s.ctl.rxLen = 0
  · exact ⟨[], s.env, by simp [hl]; rfl, by rw [if_pos hl]; rfl, by simp [hl]⟩
  · obtain ⟨bs, e, hr, hb, hn, -⟩ := xburstRead_did s.p.xr.fifo s.ctl.rxLen.toNat s h
    exact ⟨bs, e, by simp only [bind_M, current_M, ite_M, if_neg hl, hr], by rw [if_neg hl]; exact hb, hn⟩

/-- The packet READ takes: the transfer, RX_PEND cleared, and RECEIVE where it is configured (R232). -/
theorem readPacket_did (s : State) (hasDst : Bool) (cap : Byte) (h : BusHealthy s) (hp : s.ctl.rxPend = true)
    (ho : oversize hasDst cap s.ctl.rxLen = false) :
    ∃ bytes e,
      (readPacket hasDst cap).run s = .ok (.ok (some bytes),
        { s.did e (pullActs s bytes ++ receiveActs s) with
          ctl := { s.ctl with rxPend := false, mode := if rxContinuous s then .receive else s.ctl.mode }
          codec := { s.codec with buf := bytes } }) ∧
      BusRun s.p s.env (pullActs s bytes ++ receiveActs s) e ∧ bytes.length = s.ctl.rxLen.toNat := by
  obtain ⟨bytes, e, hpull, hb, hn⟩ := pullPacket_did s h
  let u : State := { s.did e (pullActs s bytes) with
    ctl := { s.ctl with rxPend := false }, codec := { s.codec with buf := bytes } }
  obtain ⟨e', hr, hb'⟩ := receiveIfContinuous_did u
  refine ⟨bytes, e', ?_, hb.append hb', hn⟩
  have hu : setBuf bytes (s.did e (pullActs s bytes)) =
      .ok ((), { s.did e (pullActs s bytes) with codec := { s.codec with buf := bytes } }) := rfl
  unfold readPacket
  simp only [bind_R, lift_R, current_M, hp, ho, hpull, hu, update_M, Bool.not_true, Bool.false_eq_true, if_false]
  erw [hr]
  simp only [pure_R, u, State.did, Io.ran_append]
  rfl

/-! ### Writing a packet -/

/-- WRITE in READY: its two checks, then the sequence (43_radio_rx_tx.md R235). -/
theorem writeCommand_run (hasSize : Bool) (size : Byte) (buf : List Byte) {s : State} (h : s.ctl.life = .ready) :
    (writeCommand hasSize size buf).run s =
      if s.ctl.txbusy then .ok (.error ⟨.txBusy, 0⟩, s)
      else if writeSizeOk s.p.maxPayload (writeSize hasSize size buf) buf.length then
        (do transmit (buf.take (writeSize hasSize size buf)); pure (.ok []) : R Response).run s
      else .ok (.error ⟨.badArg, badArgInfo⟩, s) := by
  unfold writeCommand
  cases ht : s.ctl.txbusy <;>
    cases hs : writeSizeOk s.p.maxPayload (writeSize hasSize size buf) buf.length <;>
    simp [admit_radio h, ht, hs]

/-! ### Options -/

/-- A CONFIGURE with one option: what the option does, then OK, or its exception (42_radio_init_config.md R188, R189). -/
theorem configure_one {s : State} (h : s.ctl.life = .ready) (o : CfgOption) :
    command (configureWith [o]) s = match (applyOption o).run s with
      | .ok (.ok (), t) => .next (t.emit (.respond (.ok [])))
      | .ok (.error e, t) => .next (t.emit (.respond (.exc e.code e.info)))
      | .error f => .fault f := by
  unfold command configureWith
  simp only [bind_R, admit_radio h, applyOptions, pure_R]
  cases h : (applyOption o).run s with
  | error f => rfl
  | ok x => obtain ⟨r, t⟩ := x; cases r <;> rfl

/-- The bytes of a register value are its digits to the base 256. -/
theorem byteOf_ofNat (w n k : Nat) (h : 8 * k + 8 ≤ w) : byteOf (BitVec.ofNat w n) k = BitVec.ofNat 8 (n / 256 ^ k) := by
  apply BitVec.eq_of_toNat_eq
  rw [byteOf, BitVec.extractLsb'_toNat, BitVec.toNat_ofNat, BitVec.toNat_ofNat, show 256 ^ k = 2 ^ (8 * k) by rw [Nat.pow_mul],
    Nat.shiftRight_eq_div_pow, show w = 8 * k + (w - 8 * k) by omega, Nat.pow_add, Nat.mod_mul_right_div_self]
  exact Nat.mod_mod_of_dvd _ (Nat.pow_dvd_pow 2 (by omega))

/-- FreqNormalise finds the least power of 10 that lifts the request to 100 000 000 (R190). -/
theorem scaleByTens_eq (k : Nat) : ∀ (f n : Nat), 100000000 ≤ f * 10 ^ k → (k = 0 ∨ f * 10 ^ (k - 1) < 100000000) → k ≤ n →
    scaleByTens n f = f * 10 ^ k := by
  induction k with
  | zero =>
    intro f n h _ _
    cases n with
    | zero => simp [scaleByTens]
    | succ n => simp [scaleByTens]; intro hf; omega
  | succ k ih =>
    intro f n h h' hn
    obtain ⟨m, rfl⟩ : ∃ m, n = m + 1 := ⟨n - 1, by omega⟩
    have hlt : f * 10 ^ k < 100000000 := by simpa using h'
    have hf : f < 100000000 := by
      have : f * 1 ≤ f * 10 ^ k := Nat.mul_le_mul_left _ (Nat.one_le_pow _ _ (by norm_num))
      omega
    have hten : ∀ j, f * 10 * 10 ^ j = f * 10 ^ (j + 1) := fun j => by rw [Nat.mul_assoc, ← Nat.pow_succ']
    rw [scaleByTens, if_pos hf, ih (f * 10) m (by rw [hten]; exact h) ?_ (by omega), hten]
    cases k with
    | zero => exact .inl rfl
    | succ k => exact .inr (by rw [Nat.add_sub_cancel, hten]; exact hlt)

/-- Eight turns are enough for a positive request. -/
theorem scale_turns (f k : Nat) (hf : f ≠ 0) (h : k = 0 ∨ f * 10 ^ (k - 1) < 100000000) : k ≤ 8 := by
  by_contra hk
  have hlt := h.resolve_left (by omega)
  have : 10 ^ 8 ≤ 10 ^ (k - 1) := Nat.pow_le_pow_right (by norm_num) (by omega)
  have : 1 * 10 ^ (k - 1) ≤ f * 10 ^ (k - 1) := Nat.mul_le_mul_right _ (by omega)
  omega

/-- BwLookup past the rows below the request (R201). -/
theorem bwLookupFrom_found (hz : Nat) (pre post : List BwRow) (row : BwRow) (hp : ∀ r ∈ pre, r.hz < hz) (hr : hz ≤ row.hz) :
    ∀ i, bwLookupFrom hz i (pre ++ row :: post) = some (i + pre.length, row) := by
  induction pre with
  | nil => intro i; simp [bwLookupFrom, hr]
  | cons r t ih =>
    intro i
    rw [List.cons_append, bwLookupFrom, if_neg (by have := hp r (by simp); omega), ih fun r hr => hp r (by simp [hr])]
    simp; omega

theorem bwLookupFrom_none (hz : Nat) (t : List BwRow) : ∀ i, (∀ r ∈ t, r.hz < hz) → bwLookupFrom hz i t = none := by
  induction t with
  | nil => exact fun _ _ => rfl
  | cons r t ih =>
    intro i h
    rw [bwLookupFrom, if_neg (by have := h r (by simp); omega), ih _ fun r hr => h r (by simp [hr])]

/-- The bandwidth byte in arithmetic (R194). -/
theorem bwByte_eq (row : BwRow) : bwByte row = BitVec.ofNat 8 (8 * row.mant.toNat + row.exp.toNat) := by
  obtain ⟨_, m, x⟩ := row
  simp only [bwByte]
  revert m x; decide

/-! ### Values and packet records as bytes -/

/-- Four bytes, most significant first (20_memory.md R66). -/
theorem bytes32_eq (v : U32) : bytes32 v = bigEndian 4 v.toNat := by
  have h (k : Nat) (hk : 8 * k + 8 ≤ 32) := byteOf_ofNat 32 v.toNat k hk
  rw [BitVec.ofNat_toNat, BitVec.setWidth_eq] at h
  simp [bytes32, bigEndian, List.range_succ, h]

theorem bytes16_eq (v : U16) : bytes16 v = bigEndian 2 v.toNat := by
  have h (k : Nat) (hk : 8 * k + 8 ≤ 16) := byteOf_ofNat 16 v.toNat k hk
  rw [BitVec.ofNat_toNat, BitVec.setWidth_eq] at h
  simp [bytes16, bigEndian, List.range_succ, h]

theorem present_toNat {w : Nat} (b : Bool) (v : BitVec w) : (present b v).toNat = if b then v.toNat else 0 := by
  cases b <;> simp [present]

theorem packetFlags_eq (pk : Packet) : packetFlags pk =
    BitVec.ofNat 8 (pk.ver.toNat + 2 * pk.isAck.toNat + 4 * pk.fromGw.toNat + 8 * pk.wantAck.toNat + 16 * pk.nodeV.toNat +
      32 * pk.trlV.toNat + 64 * pk.lqV.toNat) := by
  unfold packetFlags
  generalize pk.ver = a, pk.isAck = b, pk.fromGw = c, pk.wantAck = d, pk.nodeV = e, pk.trlV = f, pk.lqV = g
  revert a b c d e f g; decide

theorem bigEndian_one {w : Nat} (v : BitVec w) : bigEndian 1 v.toNat = [v.zeroExtend 8] := by
  simp only [bigEndian, List.range_one, List.map_cons, List.map_nil, Nat.sub_self, Nat.pow_zero, Nat.div_one]
  rw [BitVec.ofNat_toNat]

/-- The serialiser writes the record as 30_encoding.md R104 lays it out. -/
theorem packetBytes_eq (pk : Packet) : packetBytes pk = recordLayout pk := by
  unfold packetBytes recordLayout
  rw [show bytes32 = fun v : U32 => bigEndian 4 v.toNat from funext bytes32_eq]
  simp only [packetFlags_eq, bytes16_eq, ← present_toNat, bigEndian_one, List.cons_append, List.nil_append]

end Sys2Proof.Machine
end

