-- ==== Sys2Proof/Laws/Options.lean ====
section
/-! SUPPORT. What the options of a configuration body see and do, said once: they depend on the configuration registers, the
parameters and the environment alone, and change the configuration registers, the environment and the outputs alone
(42_radio_init_config.md R188, R189). -/

namespace Sys2Proof.Machine

/-- Two states that an option cannot tell apart. -/
def SameInputs (s t : State) : Prop := t.cfg = s.cfg ∧ t.env = s.env ∧ t.params = s.params

/-- An operation that cannot fault and sees only those: its result, the configuration registers and the environment it leaves,
and its actions are the same whatever else the state holds. -/
def ActsAlike {α : Type} (m : R α) (s : State) : Prop :=
  ∃ (r : Except Raised α) (c : CfgRegs) (e : Env) (xs : List Action), BusAnswer.error ∉ e.answers ∧
    ∀ t : State, SameInputs s t → m.run t = .ok (r, { t.did e xs with cfg := c })

theorem SameInputs.p {s t : State} (h : SameInputs s t) : t.p = s.p := by unfold State.p; rw [h.2.2]

theorem ActsAlike.pure {α : Type} (a : α) {s : State} (h : BusHealthy s) : ActsAlike (pure a : R α) s :=
  ⟨.ok a, s.cfg, s.env, [], h, fun t ht => by rw [← ht.1, ← ht.2.1]; rfl⟩

theorem ActsAlike.raise {α : Type} (x : Exc) (info : U16) {s : State} (h : BusHealthy s) : ActsAlike (raise x info : R α) s :=
  ⟨.error ⟨x, info⟩, s.cfg, s.env, [], h, fun t ht => by rw [← ht.1, ← ht.2.1]; rfl⟩

theorem ActsAlike.bind {α β : Type} {m : R α} {f : α → R β} {s : State} (hm : ActsAlike m s)
    (hf : ∀ a t, BusHealthy t → ActsAlike (f a) t) : ActsAlike (m >>= f) s := by
  obtain ⟨r, c, e, xs, he, hr⟩ := hm
  cases r with
  | error x => exact ⟨.error x, c, e, xs, he, fun t ht => by simp [hr t ht]⟩
  | ok a =>
    obtain ⟨r', c', e', ys, he', hr'⟩ := hf a { s.did e xs with cfg := c } he
    refine ⟨r', c', e', xs ++ ys, he', fun t ht => ?_⟩
    simp only [bind_R, hr t ht]
    rw [hr' { t.did e xs with cfg := c } ⟨rfl, rfl, ht.2.2⟩]
    simp only [State.did, Io.ran_append]

theorem ActsAlike.current {s : State} {β : Type} {f : State → R β}
    (hf : ∀ t, SameInputs s t → f t = f s) (h : ActsAlike (f s) s) :
    ActsAlike ((liftM Machine.current : R State) >>= f) s := by
  obtain ⟨r, c, e, xs, he, hr⟩ := h
  exact ⟨r, c, e, xs, he, fun t ht => by simp only [bind_R, lift_R, current_M]; rw [hf t ht]; exact hr t ht⟩

theorem updateCfg_alike (f : CfgRegs → CfgRegs) {s : State} (h : BusHealthy s) : ActsAlike (liftM (updateCfg f) : R Unit) s :=
  ⟨.ok (), f s.cfg, s.env, [], h, fun t ht => by rw [← ht.1, ← ht.2.1]; rfl⟩

theorem xwriteAll_alike (ws : List (Addr × Byte)) : ∀ {s : State}, BusHealthy s → ActsAlike (liftM (xwriteAll ws) : R Unit) s := by
  induction ws with
  | nil => exact fun h => .pure () h
  | cons w ws ih =>
    intro s h
    obtain ⟨r, c, e, xs, he, hr⟩ := @ih (s.did (writeEffect s.p w.1 w.2 s.env) [.xwrite w.1 w.2])
      ((writeEffect_env s.p w.1 w.2 s.env).healthy h)
    refine ⟨r, c, e, .xwrite w.1 w.2 :: xs, he, fun t ht => ?_⟩
    have := hr (t.did (writeEffect s.p w.1 w.2 s.env) [.xwrite w.1 w.2]) ⟨ht.1, rfl, ht.2.2⟩
    rw [lift_R] at this ⊢
    rw [xwriteAll]
    simp only [bind_M, xwrite_did, ht.p, ht.2.1]
    exact this

theorem xwrite_alike (a : Addr) (v : Byte) {s : State} (h : BusHealthy s) : ActsAlike (liftM (xwrite a v) : R Unit) s :=
  xwriteAll_alike [(a, v)] h

theorem xread_alike (a : Addr) {s : State} (h : BusHealthy s) : ActsAlike (liftM (xread a) : R Byte) s := by
  obtain ⟨v, hv⟩ := readAnswer_byte s.p a s.env h
  refine ⟨.ok v, s.cfg, (readAnswer false s.p a s.env).2, [.xread a (.byte v)], (readAnswer_env false s.p a s.env).healthy h,
    fun t ht => ?_⟩
  have hx : readAnswer false t.p a t.env = (.byte v, (readAnswer false s.p a s.env).2) := by rw [ht.p, ht.2.1, ← hv]
  rw [lift_R, xread, hx, ← ht.1]
  rfl

theorem pollTurns_alike (a : Addr) (done : Byte → Bool) (t0 : U32) (budget : Nat) (ds : List PollRead) :
    ∀ {s : State}, BusHealthy s → ActsAlike (liftM (pollTurns a done t0 budget ds) : R Bool) s := by
  induction ds with
  | nil => exact fun h => .pure false h
  | cons d ds ih =>
    intro s h
    have hstep := (turnAnswer_env s.p a d.answer s.env).healthy h
    obtain ⟨r, c, e, xs, he, hr⟩ :=
      @ih (s.did (turnAnswer s.p a d.answer s.env).2 [.xread a (turnAnswer s.p a d.answer s.env).1]) hstep
    by_cases hgo : seen done (turnAnswer s.p a d.answer s.env).1 = false ∧ ¬budget ≤ (d.tick - t0).toNat
    · refine ⟨r, c, e, .xread a (turnAnswer s.p a d.answer s.env).1 :: xs, he, fun t ht => ?_⟩
      have := hr (t.did (turnAnswer s.p a d.answer s.env).2 [.xread a (turnAnswer s.p a d.answer s.env).1])
        ⟨ht.1, rfl, ht.2.2⟩
      rw [lift_R] at this ⊢
      rw [pollTurns]
      simp only [bind_M, xreadPoll_did, ht.p, ht.2.1]
      generalize hq : (turnAnswer s.p a d.answer s.env).1 = q at *
      cases q <;> simp only [seen] at hgo <;> simp only [ite_M, hgo.1, hgo.2, Bool.false_eq_true, if_false] <;> exact this
    · refine ⟨.ok (seen done (turnAnswer s.p a d.answer s.env).1), s.cfg, (turnAnswer s.p a d.answer s.env).2,
        [.xread a (turnAnswer s.p a d.answer s.env).1], hstep, fun t ht => ?_⟩
      rw [lift_R, pollTurns]
      simp only [bind_M, xreadPoll_did, ht.p, ht.2.1]
      generalize hq : (turnAnswer s.p a d.answer s.env).1 = q at *
      have hc := ht.1
      cases q with
      | byte v =>
        cases hd : done v
        · have hb : budget ≤ (d.tick - t0).toNat := by simpa [seen, hd] using hgo
          simp only [ite_M, hd, hb, Bool.false_eq_true, if_false, if_true, pure_M, seen, ← hc]; rfl
        · simp only [ite_M, hd, if_true, pure_M, seen, ← hc]; rfl
      | error =>
        have hb : budget ≤ (d.tick - t0).toNat := by simpa [seen] using hgo
        simp only [ite_M, hb, if_true, pure_M, seen, ← hc]; rfl

theorem timedPoll_alike (a : Addr) (done : Byte → Bool) (budget : Nat) {s : State} (h : BusHealthy s) :
    ActsAlike (liftM (timedPoll a done budget) : R Bool) s := by
  obtain ⟨r, c, e, xs, he, hr⟩ := pollTurns_alike a done (nextPoll s.env).1.t0 budget
    ((nextPoll s.env).1.first :: (nextPoll s.env).1.rest) (s := s.withEnv (nextPoll s.env).2)
    ((nextPoll_env s.env).healthy h)
  refine ⟨r, c, e, xs, he, fun t ht => ?_⟩
  have := hr (t.withEnv (nextPoll s.env).2) ⟨ht.1, rfl, ht.2.2⟩
  rw [lift_R] at this ⊢
  unfold timedPoll
  simp only [bind_M, takePoll, ht.2.1]
  exact this

theorem require_alike (ok : Bool) (x : Exc) (info : U16) {s : State} (h : BusHealthy s) : ActsAlike (require ok x info) s := by
  cases ok
  · exact .raise x info h
  · exact .pure () h

theorem imageCal_alike {s : State} (h : BusHealthy s) : ActsAlike imageCal s := by
  unfold imageCal
  refine .current (fun t ht => by simp only [ht.p]) ?_
  exact .bind (xwrite_alike _ _ h) fun _ _ h => .bind (timedPoll_alike _ _ _ h) fun _ _ h => require_alike _ _ _ h

theorem applyOption_alike (o : CfgOption) {s : State} (h : BusHealthy s) : ActsAlike (applyOption o) s := by
  cases o with
  | freq f =>
    show ActsAlike (applyFreq f) s
    unfold applyFreq
    split
    · exact .raise _ _ h
    · refine .current (fun t ht => by simp only [ht.p]) ?_
      refine .bind (xwriteAll_alike _ h) fun _ _ h => .bind (updateCfg_alike _ h) fun _ _ h => ?_
      split
      · exact imageCal_alike h
      · exact .pure () h
  | bitrate br =>
    show ActsAlike (applyBitrate br) s
    unfold applyBitrate
    split
    · exact .raise _ _ h
    · refine .current (fun t ht => by simp only [ht.p]) ?_
      exact .bind (xwriteAll_alike _ h) fun _ _ h => updateCfg_alike _ h
  | fdev fd =>
    show ActsAlike (applyFdev fd) s
    unfold applyFdev
    split
    · exact .raise _ _ h
    · refine .current (fun t ht => by simp only [ht.p]) ?_
      exact .bind (xwriteAll_alike _ h) fun _ _ h => updateCfg_alike _ h
  | rxbw hz =>
    show ActsAlike (applyRxbw hz) s
    unfold applyRxbw
    refine .current (fun t ht => by simp only [ht.p]) ?_
    split
    · exact .raise _ _ h
    · exact .bind (xwrite_alike _ _ h) fun _ _ h => updateCfg_alike _ h
  | afcbw hz =>
    show ActsAlike (applyAfcbw hz) s
    unfold applyAfcbw
    refine .current (fun t ht => by simp only [ht.p]) ?_
    split
    · exact .raise _ _ h
    · exact .bind (xwrite_alike _ _ h) fun _ _ h => updateCfg_alike _ h
  | preamble v =>
    show ActsAlike (applyPreamble v) s
    unfold applyPreamble
    refine .current (fun t ht => by simp only [ht.p]) ?_
    exact .bind (xwriteAll_alike _ h) fun _ _ h => updateCfg_alike _ h
  | sync b =>
    show ActsAlike (applySync b) s
    unfold applySync
    split
    · refine .current (fun t ht => by simp only [ht.p]) ?_
      exact .bind (xwriteAll_alike _ h) fun _ _ h => .bind (xread_alike _ h) fun _ _ h =>
        .bind (xwrite_alike _ _ h) fun _ _ h => updateCfg_alike _ h
    · exact .raise _ _ h
  | pktlen f l => exact updateCfg_alike _ h
  | rxcont f => exact updateCfg_alike _ h

/-- ApplyConfig (R189). -/
theorem applyOptions_alike (os : List CfgOption) : ∀ {s : State}, BusHealthy s → ActsAlike (applyOptions os) s := by
  induction os with
  | nil => exact fun h => .pure () h
  | cons o os ih => exact fun h => .bind (applyOption_alike o h) fun _ _ h => ih h

end Sys2Proof.Machine
end

