-- ==== Sys2Proof/Laws/PerInstr.lean ====
section
/-! SUPPORT. Statements made per instruction: one lemma for each constructor of `Instr`. -/

namespace Sys2Proof.Laws

/-- The bits a row of spec/opcode_table.json fixes, as (mask, value) of its leading bytes; a lone option's whole mask. -/
def rowBits : Instr → List (Byte × Byte)
  | .init _ => [(0xFF, 0x01)]
  | .configure _ => [(0xFF, 0x02)]
  | .write _ _ _ => [(0xFF, 0x03)]
  | .read _ _ => [(0xFF, 0x04)]
  | .close => [(0xFF, 0x05)]
  | .recv _ _ _ _ => [(0xFF, 0x06)]
  | .rxrssi => [(0xFF, 0x10)]
  | .rxlna => [(0xFF, 0x11)]
  | .rxafc => [(0xFF, 0x12)]
  | .rxmargin => [(0xFF, 0x13)]
  | .status => [(0xFF, 0x14)]
  | .vdec1 _ => [(0xFF, 0x20)]
  | .vdecall _ => [(0xFF, 0x21)]
  | .venc _ => [(0xFF, 0x22)]
  | .pdec _ _ _ => [(0xFF, 0x28)]
  | .gensync _ => [(0xFF, 0x29)]
  | .parchk _ _ => [(0xFF, 0x2A)]
  | .cfgFreq _ => [(0xFF, 0x00), (0xFF, 0x01)]
  | .cfgBitrate _ => [(0xFF, 0x00), (0xFF, 0x02)]
  | .cfgFdev _ => [(0xFF, 0x00), (0xFF, 0x04)]
  | .cfgRxbw _ => [(0xFF, 0x00), (0xFF, 0x08)]
  | .cfgAfcbw _ => [(0xFF, 0x00), (0xFF, 0x10)]
  | .cfgPreamble _ => [(0xFF, 0x00), (0xFF, 0x20)]
  | .cfgSync _ => [(0xFF, 0x00), (0xFF, 0x40)]
  | .cfgPktlen _ _ => [(0xFF, 0x00), (0xFF, 0x80)]
  | .cfgRxcont _ => [(0xFF, 0x01), (0xFF, 0x00)]
  | .cfgReserved _ _ => []
  | .evPreamble => [(0xFF, 0x80)]
  | .evDio0 => [(0xFF, 0x81)]
  | .evSafety _ => [(0xFF, 0x82)]
  | .evBg => [(0xFF, 0x83)]
  | .nReadable _ _ => [(0xFF, 0xC0)]
  | .nWritable => [(0xFF, 0xC1)]
  | .nDiag _ _ => [(0xFF, 0xC2)]
  | .rspOk _ => [(0xFF, 0x00)]
  | .rspNone _ => [(0xFF, 0x01)]
  | .rspExc _ _ => [(0x80, 0x80)]
  | .varintGroup _ => [(0x80, 0x00)]
  | .varintLast _ => [(0x80, 0x80)]
  | .pktV1Node _ _ _ _ _ _ => [(0x3F, 0x00), (0x3F, 0x3D)]
  | .pktV1Gw _ _ _ _ _ _ => [(0x3F, 0x3D), (0x3F, 0x00)]
  | .pktV2 _ _ _ _ _ _ _ _ _ => []
  | .pktTrailer _ _ _ => []
  | .syncword _ => [(0xFF, 0xAA), (0xFF, 0x2D), (0xC0, 0x00)]
  | .parity _ _ _ => []
  | .fifoframe _ => []

/-- The fixed bits of a row, byte by byte. -/
def showsBits : List (Byte × Byte) → List Byte → Prop
  | [], _ => True
  | _ :: _, [] => False
  | (m, v) :: row, b :: bs => b &&& m = v ∧ showsBits row bs

/-- What the rows without a fixed value show instead: a reserved mask bit (R109), a header that is not V1 (R93). -/
def showsKind : Instr → List Byte → Prop
  | .cfgReserved _ _, hi :: lo :: _ => u16 hi lo &&& 0xFE00 ≠ 0
  | .cfgReserved _ _, _ => False
  | .pktV2 _ _ _ _ _ _ _ _ _, b0 :: b1 :: _ => isV1 b0 b1 = false
  | .pktV2 _ _ _ _ _ _ _ _ _, _ => False
  | .pktV1Node _ _ _ _ _ _, b0 :: b1 :: _ => isV1 b0 b1 = true
  | .pktV1Node _ _ _ _ _ _, _ => False
  | .pktV1Gw _ _ _ _ _ _, b0 :: b1 :: _ => isV1 b0 b1 = true
  | .pktV1Gw _ _ _ _ _ _, _ => False
  | _, _ => True

/-- A well-formed instruction's bytes show its own row of the table: the code it is found by (30_encoding.md R90 to R107). -/
def RowCode.Statement (i : Instr) : Prop := i.wf = true → showsBits (rowBits i) (encode i) ∧ showsKind i (encode i)

/-! ### The bits of a header and of a mask -/

theorem u16_byteOf (m : U16) : u16 (byteOf m 1) (byteOf m 0) = m := by
  apply BitVec.eq_of_getLsbD_eq
  intro i hi
  rw [u16, BitVec.getLsbD_append]
  simp only [byteOf, BitVec.getLsbD_extractLsb']
  split
  · next h => simp [h]
  · next h => simp [show i - 8 < 8 by omega, show 8 + (i - 8) = i by omega]

theorem low_six (p : BitVec 2) (h : BitVec 6) : (p ++ h : BitVec (2 + 6)) &&& 0x3F = (0 : BitVec 2) ++ h := by
  revert p h; decide +kernel

/-- The V1 pattern looks at the low six bits of each of the first two bytes (R93). -/
theorem isV1_append (p q : BitVec 2) (h k : BitVec 6) :
    isV1 (p ++ h) (q ++ k) = ((h == 0 && k == 61) || (h == 61 && k == 0)) := by
  have zero : ∀ h : BitVec 6, (((0 : BitVec 2) ++ h : BitVec (2 + 6)) == (0 : Byte)) = (h == 0) := by decide
  have magic : ∀ h : BitVec 6, (((0 : BitVec 2) ++ h : BitVec (2 + 6)) == (61 : Byte)) = (h == 61) := by decide
  simp only [isV1, Config.v1Magic]
  rw [low_six, low_six, zero, zero, magic, magic]

theorem low_six_flags (w u : Bool) (h : BitVec 6) :
    (BitVec.ofBool w ++ BitVec.ofBool u ++ h : BitVec (1 + 1 + 6)) &&& 0x3F = (0 : BitVec 2) ++ h := by
  revert w u h; decide +kernel

theorem isV1_flags (p : BitVec 2) (w u : Bool) (h k : BitVec 6) :
    isV1 (p ++ h) (BitVec.ofBool w ++ BitVec.ofBool u ++ k) = ((h == 0 && k == 61) || (h == 61 && k == 0)) :=
  isV1_append p (BitVec.ofBool w ++ BitVec.ofBool u) h k

/-- A byte cut after its two top bits. -/
theorem split_top (b : Byte) : b.extractLsb' 6 2 ++ b.extractLsb' 0 6 = b := by revert b; decide +kernel

theorem byteOf_three_low (n : U32) : (byteOf n 3).extractLsb' 0 6 = n.extractLsb' 24 6 := by
  apply BitVec.eq_of_getLsbD_eq
  intro i hi
  simp only [byteOf, BitVec.getLsbD_extractLsb']
  simp [show i < 8 by omega, hi]

theorem header_low (a1 g a0 : Bool) (u : BitVec 3) (p : BitVec 2) :
    (p ++ BitVec.ofBool a1 ++ BitVec.ofBool g ++ BitVec.ofBool a0 ++ u : BitVec (2 + 1 + 1 + 1 + 3))
      = (p ++ (BitVec.ofBool a1 ++ BitVec.ofBool g ++ BitVec.ofBool a0 ++ u : BitVec (1 + 1 + 1 + 3)) : BitVec (2 + 6)) := by
  revert a1 g a0 u p; decide +kernel

/-- A well-formed V2 packet's first two bytes show no V1 pattern. -/
theorem isV1_v2 (p : BitVec 2) (a1 g a0 : Bool) (u : BitVec 3) (node : U32) (h : looksLikeV1 a1 g a0 u node = false) :
    isV1 (p ++ BitVec.ofBool a1 ++ BitVec.ofBool g ++ BitVec.ofBool a0 ++ u : BitVec (2 + 1 + 1 + 1 + 3)) (byteOf node 3)
      = false := by
  rw [header_low, ← split_top (byteOf node 3), isV1_append, byteOf_three_low]
  exact h

/-! ### The rows -/

theorem RowCode.init (cfg : CfgBody) : RowCode.Statement (.init cfg) := fun _ => ⟨⟨rfl, trivial⟩, trivial⟩
theorem RowCode.configure (cfg : CfgBody) : RowCode.Statement (.configure cfg) := fun _ => ⟨⟨rfl, trivial⟩, trivial⟩
theorem RowCode.write (hasSize : Bool) (size : Byte) (buf : List Byte) :
    RowCode.Statement (.write hasSize size buf) :=
  fun _ => ⟨⟨rfl, trivial⟩, trivial⟩
theorem RowCode.read (hasDst : Bool) (cap : Byte) : RowCode.Statement (.read hasDst cap) :=
  fun _ => ⟨⟨rfl, trivial⟩, trivial⟩
theorem RowCode.close : RowCode.Statement .close := fun _ => ⟨⟨rfl, trivial⟩, trivial⟩
theorem RowCode.recv (hasDst : Bool) (cap : Byte) (chk : Bool) (group : Byte) :
    RowCode.Statement (.recv hasDst cap chk group) :=
  fun _ => ⟨⟨rfl, trivial⟩, trivial⟩
theorem RowCode.rxrssi : RowCode.Statement .rxrssi := fun _ => ⟨⟨rfl, trivial⟩, trivial⟩
theorem RowCode.rxlna : RowCode.Statement .rxlna := fun _ => ⟨⟨rfl, trivial⟩, trivial⟩
theorem RowCode.rxafc : RowCode.Statement .rxafc := fun _ => ⟨⟨rfl, trivial⟩, trivial⟩
theorem RowCode.rxmargin : RowCode.Statement .rxmargin := fun _ => ⟨⟨rfl, trivial⟩, trivial⟩
theorem RowCode.status : RowCode.Statement .status := fun _ => ⟨⟨rfl, trivial⟩, trivial⟩
theorem RowCode.vdec1 (buf : List Byte) : RowCode.Statement (.vdec1 buf) := fun _ => ⟨⟨rfl, trivial⟩, trivial⟩
theorem RowCode.vdecall (buf : List Byte) : RowCode.Statement (.vdecall buf) := fun _ => ⟨⟨rfl, trivial⟩, trivial⟩
theorem RowCode.venc (value : U32) : RowCode.Statement (.venc value) := fun _ => ⟨⟨rfl, trivial⟩, trivial⟩
theorem RowCode.pdec (chk : Bool) (group : Byte) (buf : List Byte) : RowCode.Statement (.pdec chk group buf) :=
  fun _ => ⟨⟨rfl, trivial⟩, trivial⟩
theorem RowCode.gensync (group : Byte) : RowCode.Statement (.gensync group) := fun _ => ⟨⟨rfl, trivial⟩, trivial⟩
theorem RowCode.parchk (group byte0 : Byte) : RowCode.Statement (.parchk group byte0) :=
  fun _ => ⟨⟨rfl, trivial⟩, trivial⟩
theorem RowCode.cfgFreq (f : U32) : RowCode.Statement (.cfgFreq f) := fun _ =>
  ⟨by simp [rowBits, encode, cfgBytes, showsBits, cfgMask, bytes16, byteOf], trivial⟩
theorem RowCode.cfgBitrate (br : U32) : RowCode.Statement (.cfgBitrate br) := fun _ =>
  ⟨by simp [rowBits, encode, cfgBytes, showsBits, cfgMask, bytes16, byteOf], trivial⟩
theorem RowCode.cfgFdev (fd : U32) : RowCode.Statement (.cfgFdev fd) := fun _ =>
  ⟨by simp [rowBits, encode, cfgBytes, showsBits, cfgMask, bytes16, byteOf], trivial⟩
theorem RowCode.cfgRxbw (hz : U32) : RowCode.Statement (.cfgRxbw hz) := fun _ =>
  ⟨by simp [rowBits, encode, cfgBytes, showsBits, cfgMask, bytes16, byteOf], trivial⟩
theorem RowCode.cfgAfcbw (hz : U32) : RowCode.Statement (.cfgAfcbw hz) := fun _ =>
  ⟨by simp [rowBits, encode, cfgBytes, showsBits, cfgMask, bytes16, byteOf], trivial⟩
theorem RowCode.cfgPreamble (p : U16) : RowCode.Statement (.cfgPreamble p) := fun _ =>
  ⟨by simp [rowBits, encode, cfgBytes, showsBits, cfgMask, bytes16, byteOf], trivial⟩
theorem RowCode.cfgSync (bytes : List Byte) : RowCode.Statement (.cfgSync bytes) := fun _ =>
  ⟨by simp [rowBits, encode, cfgBytes, showsBits, cfgMask, bytes16, byteOf], trivial⟩
theorem RowCode.cfgPktlen (fixed : Bool) (len : Byte) : RowCode.Statement (.cfgPktlen fixed len) := fun _ =>
  ⟨by simp [rowBits, encode, cfgBytes, showsBits, cfgMask, bytes16, byteOf], trivial⟩
theorem RowCode.cfgRxcont (flag : Bool) : RowCode.Statement (.cfgRxcont flag) := fun _ =>
  ⟨by simp [rowBits, encode, cfgBytes, showsBits, cfgMask, bytes16, byteOf], trivial⟩
theorem RowCode.cfgReserved (mask : U16) (fields : List Byte) : RowCode.Statement (.cfgReserved mask fields) := fun h => ⟨trivial, by
  simpa [showsKind, encode, bytes16, u16_byteOf, Instr.wf, reservedMask] using h⟩
theorem RowCode.evPreamble : RowCode.Statement .evPreamble := fun _ => ⟨⟨rfl, trivial⟩, trivial⟩
theorem RowCode.evDio0 : RowCode.Statement .evDio0 := fun _ => ⟨⟨rfl, trivial⟩, trivial⟩
theorem RowCode.evSafety (h : U16) : RowCode.Statement (.evSafety h) := fun _ => ⟨⟨rfl, trivial⟩, trivial⟩
theorem RowCode.evBg : RowCode.Statement .evBg := fun _ => ⟨⟨rfl, trivial⟩, trivial⟩
theorem RowCode.nReadable (len : Byte) (ts : U32) : RowCode.Statement (.nReadable len ts) :=
  fun _ => ⟨⟨rfl, trivial⟩, trivial⟩
theorem RowCode.nWritable : RowCode.Statement .nWritable := fun _ => ⟨⟨rfl, trivial⟩, trivial⟩
theorem RowCode.nDiag (code : Byte) (value : U16) : RowCode.Statement (.nDiag code value) :=
  fun _ => ⟨⟨rfl, trivial⟩, trivial⟩
theorem RowCode.rspOk (result : List Byte) : RowCode.Statement (.rspOk result) := fun _ => ⟨⟨rfl, trivial⟩, trivial⟩
theorem RowCode.rspNone (tail : List Byte) : RowCode.Statement (.rspNone tail) := fun _ => ⟨⟨rfl, trivial⟩, trivial⟩
theorem RowCode.rspExc (code : Exc) (info : U16) : RowCode.Statement (.rspExc code info) := fun _ =>
  ⟨by cases code <;> exact ⟨rfl, trivial⟩, trivial⟩
theorem RowCode.varintGroup (g : BitVec 7) : RowCode.Statement (.varintGroup g) := fun _ =>
  ⟨⟨by revert g; decide, trivial⟩, trivial⟩
theorem RowCode.varintLast (g : BitVec 7) : RowCode.Statement (.varintLast g) := fun _ =>
  ⟨⟨by revert g; decide, trivial⟩, trivial⟩
theorem RowCode.pktV1Node (parity : BitVec 2) (wantAck unread trailer : Bool) (type : BitVec 7) (rest : List Byte) :
    RowCode.Statement (.pktV1Node parity wantAck unread trailer type rest) := fun _ =>
  ⟨⟨low_six parity 0, low_six_flags wantAck unread 61, trivial⟩,
    (isV1_flags parity wantAck unread 0 61).trans rfl⟩
theorem RowCode.pktV1Gw (parity : BitVec 2) (wantAck unread trailer : Bool) (type : BitVec 7) (rest : List Byte) :
    RowCode.Statement (.pktV1Gw parity wantAck unread trailer type rest) := fun _ =>
  ⟨⟨low_six parity 61, low_six_flags wantAck unread 0, trivial⟩,
    (isV1_flags parity wantAck unread 61 0).trans rfl⟩
theorem RowCode.pktV2 (parity : BitVec 2) (a1 fromGw a0 : Bool) (unread : BitVec 3) (node : U32) (trailer : Bool) (type : BitVec 7)
    (rest : List Byte) : RowCode.Statement (.pktV2 parity a1 fromGw a0 unread node trailer type rest) := fun h =>
  ⟨trivial, isV1_v2 parity a1 fromGw a0 unread node (by simp [Instr.wf] at h; exact h.2)⟩
theorem RowCode.pktTrailer (unread : BitVec 2) (margin : BitVec 6) (fei : Byte) :
    RowCode.Statement (.pktTrailer unread margin fei) :=
  fun _ => ⟨trivial, trivial⟩
theorem RowCode.syncword (group : BitVec 6) : RowCode.Statement (.syncword group) := fun _ =>
  ⟨⟨rfl, rfl, by revert group; decide, trivial⟩, trivial⟩
theorem RowCode.parity (p q : Bool) (unread : BitVec 6) : RowCode.Statement (.parity p q unread) :=
  fun _ => ⟨trivial, trivial⟩
theorem RowCode.fifoframe (payload : List Byte) : RowCode.Statement (.fifoframe payload) := fun _ => ⟨trivial, trivial⟩

end Sys2Proof.Laws
end

