-- ==== Sys2Proof/Laws/Varint.lean ====
section
/-! SUPPORT. The varint decoder in arithmetic: one byte, a run, a whole buffer, and the signed value of a code. -/

namespace Sys2Proof.Machine

/-- One byte into the accumulator: times 128 plus the group, modulo 2^32. -/
theorem vaccStep_toNat (a : U32) (b : Byte) : (vaccStep a b).toNat = (128 * a.toNat + b.toNat % 128) % 2 ^ 32 := by
  have h : (a <<< 7) &&& ((b &&& 0x7F).zeroExtend 32) = 0 := by
    ext i hi
    simp only [BitVec.getElem_and, BitVec.getElem_shiftLeft]
    by_cases h7 : i < 7
    · simp [h7]
    · have : (0x7F : Byte).getLsbD i = false := by
        by_cases h8 : i < 8
        · have : i = 7 := by omega
          subst this; rfl
        · exact BitVec.getLsbD_of_ge _ _ (by omega)
      have h2 : ((b &&& 0x7F).zeroExtend 32)[i] = false := by
        rw [← BitVec.getLsbD_eq_getElem]
        simp only [BitVec.truncate_eq_setWidth, BitVec.getLsbD_setWidth, BitVec.getLsbD_and, this]
        simp
      rw [h2]; simp
  have hb : (b &&& 0x7F).toNat = b.toNat % 128 := by
    rw [BitVec.toNat_and]
    exact Nat.and_two_pow_sub_one_eq_mod b.toNat 7
  unfold vaccStep
  rw [← BitVec.add_eq_or_of_and_eq_zero _ _ h]
  simp only [BitVec.toNat_add, BitVec.toNat_shiftLeft, BitVec.truncate_eq_setWidth, BitVec.toNat_setWidth, hb,
    Nat.shiftLeft_eq]
  omega

/-- A run into the accumulator. -/
theorem foldl_vaccStep_toNat (bs : List Byte) : ∀ a : U32,
    (bs.foldl vaccStep a).toNat = bs.foldl (fun a b => 128 * a + b.toNat % 128) a.toNat % 2 ^ 32 := by
  have hmod : ∀ (bs : List Byte) (m n : Nat), m % 2 ^ 32 = n % 2 ^ 32 →
      bs.foldl (fun a b => 128 * a + b.toNat % 128) m % 2 ^ 32 = bs.foldl (fun a b => 128 * a + b.toNat % 128) n % 2 ^ 32 := by
    intro bs
    induction bs with
    | nil => exact fun _ _ h => h
    | cons b bs ih => exact fun m n h => ih _ _ (by show (128 * m + _) % _ = (128 * n + _) % _; omega)
  induction bs with
  | nil => intro a; simp [Nat.mod_eq_of_lt a.isLt]
  | cons b bs ih =>
    intro a
    rw [List.foldl_cons, ih, List.foldl_cons]
    exact hmod _ _ _ (by rw [vaccStep_toNat]; omega)

/-- From an empty accumulator a run gives its code. -/
theorem foldl_vaccStep_zero (bs : List Byte) : bs.foldl vaccStep 0 = BitVec.ofNat 32 (varintCode bs) := by
  apply BitVec.eq_of_toNat_eq
  rw [foldl_vaccStep_toNat, BitVec.toNat_ofNat, varintCode]
  simp

/-- The decoder's signed value of a code is the arithmetic one. -/
theorem vvalue_eq (u : U32) : vvalue u = BitVec.ofInt 32 (varintValue u.toNat) := by
  have hb : u.getLsbD 0 = decide (u.toNat % 2 = 1) := by
    rw [BitVec.getLsbD, Nat.testBit_zero]
  have hx : (u >>> 1) ^^^ (0xFFFFFFFF : U32) = ~~~(u >>> 1) := by
    rw [← BitVec.xor_allOnes]; rfl
  have hs : (u >>> 1).toNat = u.toNat / 2 := by rw [BitVec.toNat_ushiftRight, Nat.shiftRight_eq_div_pow]
  apply BitVec.eq_of_toNat_eq
  have hu := u.isLt
  unfold vvalue varintValue
  rw [hx, hb]
  obtain h | h := Nat.mod_two_eq_zero_or_one u.toNat
  · rw [BitVec.toNat_ofInt]
    simp only [h, Nat.zero_ne_one, decide_false, Bool.false_eq_true, if_false, if_true, hs]
    omega
  · rw [BitVec.toNat_ofInt]
    simp only [h, decide_true, if_true, Nat.one_ne_zero, if_false, BitVec.toNat_not, hs]
    omega

/-- The decoder over a run that ends at its first terminator. -/
theorem vdec1From_found (pre post : List Byte) (z : Byte) (hz : z.getLsbD 7 = true) : ∀ (acc : U32) (cnt : Nat),
    (∀ x ∈ pre, unterminated x) →
    vdec1From acc cnt (pre ++ z :: post) =
      ⟨(pre ++ [z]).foldl vaccStep acc, cnt + pre.length + 1, some (vvalue ((pre ++ [z]).foldl vaccStep acc))⟩ := by
  induction pre with
  | nil => intro acc cnt _; simp [vdec1From, hz]
  | cons b pre ih =>
    intro acc cnt h
    have hb : b.getLsbD 7 = false := h b (List.mem_cons_self ..)
    simp only [List.cons_append, vdec1From, hb, Bool.false_eq_true, if_false, List.foldl_cons, List.length_cons]
    rw [ih _ _ fun x hx => h x (List.mem_cons_of_mem _ hx)]
    congr 1; omega

/-- The decoder over bytes without a terminator. -/
theorem vdec1From_none (buf : List Byte) : ∀ (acc : U32) (cnt : Nat), (∀ x ∈ buf, unterminated x) →
    vdec1From acc cnt buf = ⟨buf.foldl vaccStep acc, cnt + buf.length, none⟩ := by
  induction buf with
  | nil => intro acc cnt _; rfl
  | cons b bs ih =>
    intro acc cnt h
    have hb : b.getLsbD 7 = false := h b (List.mem_cons_self ..)
    simp only [vdec1From, hb, Bool.false_eq_true, if_false, List.foldl_cons, List.length_cons]
    rw [ih _ _ fun x hx => h x (List.mem_cons_of_mem _ hx)]
    congr 1; omega

/-- Every buffer either holds a terminator, with a run before it, or holds none. -/
theorem terminator_cases (buf : List Byte) :
    (∀ x ∈ buf, unterminated x) ∨
      ∃ pre z post, buf = pre ++ z :: post ∧ (∀ x ∈ pre, unterminated x) ∧ z.getLsbD 7 = true := by
  induction buf with
  | nil => exact .inl fun x hx => by cases hx
  | cons b bs ih =>
    by_cases hb : b.getLsbD 7 = true
    · exact .inr ⟨[], b, bs, rfl, (fun x hx => by cases hx), hb⟩
    · have hb' : unterminated b := Bool.eq_false_iff.2 hb
      obtain h | ⟨pre, z, post, rfl, h, hz⟩ := ih
      · refine .inl fun x hx => ?_
        obtain rfl | hx := List.mem_cons.1 hx
        · exact hb'
        · exact h x hx
      · refine .inr ⟨b :: pre, z, post, rfl, fun x hx => ?_, hz⟩
        obtain rfl | hx := List.mem_cons.1 hx
        · exact hb'
        · exact h x hx

/-- VDEC1's decoder on a buffer with a terminator: the value of its first run and the bytes of that run consumed. -/
theorem vdec1_found (pre post : List Byte) (z : Byte) (h : ∀ x ∈ pre, unterminated x) (hz : z.getLsbD 7 = true) :
    vdec1 (pre ++ z :: post) =
      ⟨BitVec.ofNat 32 (varintCode (pre ++ [z])), pre.length + 1,
        some (BitVec.ofInt 32 (varintValue (varintCode (pre ++ [z]))))⟩ := by
  rw [vdec1, vdec1From_found pre post z hz 0 0 h, foldl_vaccStep_zero, vvalue_eq, BitVec.toNat_ofNat]
  have : varintCode (pre ++ [z]) % 2 ^ 32 = varintCode (pre ++ [z]) := by simp [varintCode]
  rw [this, Nat.zero_add]

/-- VDEC1's decoder on a buffer without a terminator. -/
theorem vdec1_none (buf : List Byte) (h : ∀ x ∈ buf, unterminated x) :
    vdec1 buf = ⟨BitVec.ofNat 32 (varintCode buf), buf.length, none⟩ := by
  rw [vdec1, vdec1From_none buf 0 0 h, foldl_vaccStep_zero, Nat.zero_add]

/-- VDECALL's turns beyond the bytes there are change nothing. -/
theorem vdecAllFrom_fuel (k : Nat) : ∀ (acc : U32) (cnt : Nat) (buf : List Byte), buf.length ≤ k →
    vdecAllFrom k acc cnt buf = vdecAllFrom buf.length acc cnt buf := by
  induction k using Nat.strongRecOn with
  | _ k ih =>
    intro acc cnt buf hk
    match k, buf with
    | 0, [] => rfl
    | k + 1, [] => rfl
    | k + 1, b :: bs =>
      simp only [List.length_cons, vdecAllFrom]
      split
      · rfl
      · next v hv =>
        have hc : 1 ≤ (vdec1 (b :: bs)).consumed := by
          obtain h | ⟨pre, z, post, e, h, hz⟩ := terminator_cases (b :: bs)
          · rw [vdec1_none _ h] at hv; cases hv
          · rw [e, vdec1_found _ _ _ h hz]; simp [VDec.consumed]
        have hl : ((b :: bs).drop (vdec1 (b :: bs)).consumed).length ≤ bs.length := by
          rw [List.length_drop, List.length_cons]; omega
        have h1 := ih k (by omega) (vdec1 (b :: bs)).acc (vdec1 (b :: bs)).cnt
          ((b :: bs).drop (vdec1 (b :: bs)).consumed) (Nat.le_trans hl (by simpa using hk))
        have h2 := ih bs.length (by simp at hk; omega) (vdec1 (b :: bs)).acc (vdec1 (b :: bs)).cnt
          ((b :: bs).drop (vdec1 (b :: bs)).consumed) hl
        rw [h1, h2]

/-- VDECALL's decoder takes the first run and goes on with the rest. -/
theorem vdecAllFrom_found (acc : U32) (cnt : Nat) (pre post : List Byte) (z : Byte) (h : ∀ x ∈ pre, unterminated x)
    (hz : z.getLsbD 7 = true) :
    vdecAllFrom (pre ++ z :: post).length acc cnt (pre ++ z :: post) =
      let u := varintCode (pre ++ [z])
      let r := vdecAllFrom post.length (BitVec.ofNat 32 u) (pre.length + 1) post
      ⟨r.acc, r.cnt, BitVec.ofInt 32 (varintValue u) :: r.values⟩ := by
  have hd := vdec1_found pre post z h hz
  obtain ⟨b, bs, e⟩ : ∃ b bs, pre ++ z :: post = b :: bs := by cases pre <;> exact ⟨_, _, rfl⟩
  have hdrop : (pre ++ z :: post).drop (pre.length + 1) = post := by
    rw [show pre ++ z :: post = (pre ++ [z]) ++ post by simp, List.drop_left' (by simp)]
  rw [e] at hd hdrop ⊢
  simp only [List.length_cons, vdecAllFrom, hd, VDec.consumed, Option.isSome_some, if_true, hdrop]
  have hl : post.length ≤ bs.length := by
    have := congrArg List.length e
    simp at this; omega
  rw [vdecAllFrom_fuel _ _ _ _ hl]

/-- VDECALL's decoder over bytes without a terminator delivers nothing. -/
theorem vdecAllFrom_none (acc : U32) (cnt : Nat) (buf : List Byte) (h : ∀ x ∈ buf, unterminated x) :
    (vdecAllFrom buf.length acc cnt buf).values = [] := by
  cases buf with
  | nil => rfl
  | cons b bs =>
    simp only [List.length_cons, vdecAllFrom, vdec1_none _ h]

end Sys2Proof.Machine
end

