-- ==== Sys2Proof/Tests/Slice0.lean ====
section
/-! SUPPORT. The model's own tests. Expected results are the vectors and programs of spec/95_test_vectors.md and the
encodings of spec/30_encoding.md, written out by hand. -/

namespace Sys2Proof.Tests

open Sys2Proof.Machine

/-! ### The parameters and the reference transceiver of 95_test_vectors.md Part 3 -/

def bwRowsLow : List BwRow :=
  [⟨2600, 2, 7⟩, ⟨3100, 1, 7⟩, ⟨3900, 0, 7⟩, ⟨5200, 2, 6⟩, ⟨6300, 1, 6⟩, ⟨7800, 0, 6⟩, ⟨10400, 2, 5⟩, ⟨12500, 1, 5⟩,
   ⟨15600, 0, 5⟩, ⟨20800, 2, 4⟩, ⟨25000, 1, 4⟩]

def bwRowsHigh : List BwRow :=
  [⟨31300, 0, 4⟩, ⟨41700, 2, 3⟩, ⟨50000, 1, 3⟩, ⟨62500, 0, 3⟩, ⟨83300, 2, 2⟩, ⟨100000, 1, 2⟩, ⟨125000, 0, 2⟩,
   ⟨166700, 2, 1⟩, ⟨200000, 1, 1⟩, ⟨250000, 0, 1⟩]

def testXr : XrMap :=
  { fifo := 0x00, opmode := 0x01, bitrateMsb := 0x02, bitrateLsb := 0x03, fdevMsb := 0x04, fdevLsb := 0x05,
    frfMsb := 0x06, frfMid := 0x07, frfLsb := 0x08, lna := 0x0C, rxconfig := 0x0D, rssithresh := 0x10,
    rssivalue := 0x11, rxbw := 0x12, afcbw := 0x13, afcMsb := 0x1B, afcLsb := 0x1C, preambleMsb := 0x25,
    preambleLsb := 0x26, syncconfig := 0x27, syncvalue := 0x28, imagecal := 0x3B, irqflags1 := 0x3E, version := 0x42 }

def testParams : Params :=
  { xr := testXr, opmodeBase := 0x00, versionA := 0x12, versionB := 0x13, scratchAddr := 0x28, scratchPatA := 0xAA,
    scratchPatB := 0x55, initTable := [(0x10, 0xB4), (0x0C, 0x20), (0x27, 0x90)], bwTable := bwRowsLow ++ bwRowsHigh,
    lnaDb := #v[0, 0, 6, 12, 24, 36, 48, 48], restartValue := 0x40, imageCal := false, imagecalStart := 0x40,
    imagecalRunningMask := 0x20, calTimeoutMs := 10, modereadyMask := 0x80, lnaGainShift := 5, tSafetyMs := 2,
    bgRssiInit := 180, demodSnr := 10, maxPayload := 63 }

theorem test_params_wf : testParams.wf = true := by decide

/-- Reset with the test parameters and nothing attached: reads are scripted. -/
def fresh : State := { State.reset with params := some testParams }

/-- A reference transceiver. -/
def withChip (s : State) (regs : Memory) (fifo : List Byte) (script : List (Addr × Byte)) : State :=
  { s with env := { s.env with refx := some ⟨regs, fifo, script⟩ } }

/-- Scripted answers to the next reads. -/
def answering (s : State) (bs : List Byte) : State := { s with env := { s.env with answers := bs.map .byte } }

/-- The configuration body of program P1. -/
def cfgP1 : CfgBody :=
  { freq := some 434, bitrate := some 49230, fdev := some 45000, rxbw := some 100000, afcbw := some 100000,
    preamble := some 5, sync := some [0xAA, 0x2D, 6], pktlen := some (false, 0), rxcont := some true }

/-- The configuration registers at the end of P1. -/
def cfgRegsP1 : CfgRegs :=
  { freqV := true, freq := 434000000, frf := 0x6C8000, bitrateV := true, bitrate := 49230, brreg := 650, fdevV := true,
    fdev := 45000, fdevreg := 737, rxbwV := true, rxbw := 16, afcbwV := true, afcbw := 16, preambleV := true,
    preamble := 5, syncV := true, synclen := 3, sync := #v[0xAA, 0x2D, 6], pktlenV := true, fixed := false, fixlen := 0,
    rxcontV := true, rxcont := true }

/-- The end state of P1, as far as the block goes. -/
def running : State :=
  { fresh with
    ctl := { Ctl.reset with life := .ready, mode := .receive }
    trk := { Tracker.reset with bgRssi := 2880 }
    tmr := { Timers.reset with bgArmed := true, dioEn := true }
    cfg := cfgRegsP1 }

/-- Deliver a frame and take one step. -/
def deliver (f : Format) (bytes : List Byte) (s : State) : Host.Outcome State Fault Refusal :=
  step (pushItem s (.frame f bytes))

/-- A property of the next state. -/
def andThen (o : Host.Outcome State Fault Refusal) (p : State → Bool) : Bool :=
  match o with
  | .next t => p t
  | _ => false

/-- The bytes of the response just sent. -/
def lastResponse (t : State) : List Byte :=
  match t.io.trace.getLast? with
  | some (.respond r) => responseBytes r
  | _ => []

/-- The command is answered with these bytes. -/
def answers (bytes response : List Byte) (s : State) : Bool :=
  andThen (deliver .hostCommand bytes s) fun t => lastResponse t == response

/-- The bytes of the notifications sent. -/
def notes (t : State) : List (List Byte) :=
  t.io.trace.filterMap fun a => match a with
    | .notify n => some (notificationBytes n)
    | _ => none

/-! ### Decoding: one word per row, from the encoding tables -/

theorem test_decode_init :
    decode .hostCommand
      [0x01, 0x01, 0xFF, 0, 0, 1, 0xB2, 0, 0, 0xC0, 0x4E, 0, 0, 0xAF, 0xC8, 0, 1, 0x86, 0xA0, 0, 1, 0x86, 0xA0, 0, 5, 3,
       0xAA, 0x2D, 6, 0, 0, 1] = .ok (.init cfgP1) := by decide
theorem test_decode_configure :
    decode .hostCommand [0x02, 0x00, 0x0E, 0, 0, 0xC0, 0x4E, 0, 0x0F, 0x42, 0x22, 0, 1, 0x86, 0xA0]
      = .ok (.configure { bitrate := some 49230, fdev := some 999970, rxbw := some 100000 }) := by decide
theorem test_decode_write :
    decode .hostCommand [0x03, 0, 0, 6, 0xC8, 0, 0, 0, 0x2A, 5] = .ok (.write false 0 [0xC8, 0, 0, 0, 0x2A, 5]) := by decide
theorem test_decode_read : decode .hostCommand [0x04, 1, 0x0A] = .ok (.read true 10) := by decide
theorem test_decode_close : decode .hostCommand [0x05] = .ok .close := by decide
theorem test_decode_recv : decode .hostCommand [0x06, 0, 0, 1, 6] = .ok (.recv false 0 true 6) := by decide
theorem test_decode_rxrssi : decode .hostCommand [0x10] = .ok .rxrssi := by decide
theorem test_decode_rxlna : decode .hostCommand [0x11] = .ok .rxlna := by decide
theorem test_decode_rxafc : decode .hostCommand [0x12] = .ok .rxafc := by decide
theorem test_decode_rxmargin : decode .hostCommand [0x13] = .ok .rxmargin := by decide
theorem test_decode_status : decode .hostCommand [0x14] = .ok .status := by decide
theorem test_decode_vdec1 : decode .hostCommand [0x20, 3, 0xFE, 1, 0x80] = .ok (.vdec1 [0xFE, 1, 0x80]) := by decide
theorem test_decode_vdecall : decode .hostCommand [0x21, 2, 0x82, 0x0F] = .ok (.vdecall [0x82, 0x0F]) := by decide
theorem test_decode_venc : decode .hostCommand [0x22, 0, 0, 3, 0xE8] = .ok (.venc 1000) := by decide
theorem test_decode_pdec :
    decode .hostCommand [0x28, 1, 6, 3, 0xC0, 0x3D, 7] = .ok (.pdec true 6 [0xC0, 0x3D, 7]) := by decide
theorem test_decode_gensync : decode .hostCommand [0x29, 6] = .ok (.gensync 6) := by decide
theorem test_decode_parchk : decode .hostCommand [0x2A, 6, 0xC8] = .ok (.parchk 6 0xC8) := by decide
theorem test_decode_cfgFreq : decode .cfgOption [0, 0x01, 0, 0, 1, 0xB2] = .ok (.cfgFreq 434) := by decide
theorem test_decode_cfgBitrate : decode .cfgOption [0, 0x02, 0, 0, 0xC0, 0x4E] = .ok (.cfgBitrate 49230) := by decide
theorem test_decode_cfgFdev : decode .cfgOption [0, 0x04, 0, 0, 0xAF, 0xC8] = .ok (.cfgFdev 45000) := by decide
theorem test_decode_cfgRxbw : decode .cfgOption [0, 0x08, 0, 1, 0x86, 0xA0] = .ok (.cfgRxbw 100000) := by decide
theorem test_decode_cfgAfcbw : decode .cfgOption [0, 0x10, 0, 1, 0x86, 0xA0] = .ok (.cfgAfcbw 100000) := by decide
theorem test_decode_cfgPreamble : decode .cfgOption [0, 0x20, 0, 5] = .ok (.cfgPreamble 5) := by decide
theorem test_decode_cfgSync : decode .cfgOption [0, 0x40, 2, 0xAA, 0x2D] = .ok (.cfgSync [0xAA, 0x2D]) := by decide
theorem test_decode_cfgPktlen : decode .cfgOption [0, 0x80, 1, 32] = .ok (.cfgPktlen true 32) := by decide
theorem test_decode_cfgRxcont : decode .cfgOption [1, 0, 1] = .ok (.cfgRxcont true) := by decide
theorem test_decode_cfgReserved : decode .cfgOption [2, 0] = .ok (.cfgReserved 0x0200 []) := by decide
theorem test_decode_evPreamble : decode .event [0x80] = .ok .evPreamble := by decide
theorem test_decode_evDio0 : decode .event [0x81] = .ok .evDio0 := by decide
theorem test_decode_evSafety : decode .event [0x82, 1, 2] = .ok (.evSafety 0x0102) := by decide
theorem test_decode_evBg : decode .event [0x83] = .ok .evBg := by decide
theorem test_decode_nReadable :
    decode .notification [0xC0, 0x0B, 0, 0, 0x13, 0x88] = .ok (.nReadable 11 5000) := by decide
theorem test_decode_nWritable : decode .notification [0xC1] = .ok .nWritable := by decide
theorem test_decode_nDiag : decode .notification [0xC2, 3, 0, 2] = .ok (.nDiag 3 2) := by decide
theorem test_decode_rspOk : decode .response [0x00, 0x15, 0x13] = .ok (.rspOk [0x15, 0x13]) := by decide
theorem test_decode_rspNone : decode .response [0x01] = .ok (.rspNone []) := by decide
theorem test_decode_rspExc : decode .response [0x86, 0x00, 0xFF] = .ok (.rspExc .badArg 0xFF) := by decide
theorem test_decode_varintGroup : decode .varintByte [0x0F] = .ok (.varintGroup 15) := by decide
theorem test_decode_varintLast : decode .varintByte [0xD0] = .ok (.varintLast 80) := by decide
theorem test_decode_pktV1Node :
    decode .packetHeader [0xC0, 0x3D, 1, 0x84, 0x82] = .ok (.pktV1Node 3 false false false 1 [0x84, 0x82]) := by decide
theorem test_decode_pktV1Gw :
    decode .packetHeader [0x3D, 0x80, 0, 0x82] = .ok (.pktV1Gw 0 true false false 0 [0x82]) := by decide
theorem test_decode_pktV2 :
    decode .packetHeader [0xC8, 0x12, 0x34, 0x56, 0x78, 0x91, 0x82]
      = .ok (.pktV2 3 false false true 0 0x12345678 true 17 [0x82]) := by decide
theorem test_decode_pktTrailer : decode .packetTrailer [0x2A, 0xFE] = .ok (.pktTrailer 0 42 0xFE) := by decide
theorem test_decode_syncword : decode .syncWord [0xAA, 0x2D, 6] = .ok (.syncword 6) := by decide
theorem test_decode_parity : decode .byte0 [0x80] = .ok (.parity true false 0) := by decide
theorem test_decode_fifoframe : decode .fifoFrame [2, 0xC8, 5] = .ok (.fifoframe [0xC8, 5]) := by decide

/-! ### Ill-formed terms are refused, and ill-formed frames rejected by name (R109) -/

theorem test_wf_refuses_long_buffer : (Instr.vdec1 (List.replicate 256 0)).wf = false := by decide +kernel
theorem test_wf_refuses_long_sync : (Instr.init { sync := some (List.replicate 256 0) }).wf = false := by decide +kernel
theorem test_wf_refuses_clear_reserved : (Instr.cfgReserved 0x01FF []).wf = false := by decide
theorem test_wf_refuses_none_tail : (Instr.rspNone [1]).wf = false := by decide
theorem test_wf_refuses_long_packet : (Instr.pktV1Gw 0 false false false 0 (List.replicate 253 0)).wf = false := by decide +kernel
theorem test_wf_refuses_v1_lookalike :
    (Instr.pktV2 0 false false false 0 0x3D000001 false 5 []).wf = false := by decide
theorem test_decode_refuses_flag : decode .hostCommand [0x04, 2, 0] = .error .badFlag := by decide
theorem test_decode_refuses_reserved_mask : decode .hostCommand [0x02, 2, 0] = .error .reservedMaskBit := by decide
theorem test_decode_refuses_count : decode .hostCommand [0x20, 2, 0x80] = .error .wrongLength := by decide
theorem test_decode_refuses_opcode : decode .hostCommand [0x7F] = .error .unknownCode := by decide

/-! ### Host commands -/

/-- P1: a full configuration from reset (the response, the control state, the registers, the bus cost). -/
theorem test_init_p1 :
    andThen (exec (.init cfgP1) (withChip fresh [(0x42, 0x12)] [] [])) (fun t =>
      t.ctl == running.ctl && t.cfg == cfgRegsP1 && t.trk == running.trk && t.tmr == running.tmr &&
      t.io.trace.length == 31 && lastResponse t == [0x00]) = true := by decide +kernel
/-- P5 step 3: ten reads, no match. -/
theorem test_init_chip_not_found :
    andThen (exec (.init cfgP1) (withChip fresh [] [] [])) (fun t =>
      t.ctl.life == .failed && status0 t == 0x06 && status1 t == 0 && lastResponse t == [0x81, 0, 0] &&
      (t.io.trace.filter fun a => a == .xread 0x42 (.byte 0)).length == 10) = true := by decide +kernel
/-- 2.6, last row: the failing option stops the sequence, the one before it stays applied. -/
theorem test_configure_stops_at_bad_option :
    andThen (deliver .hostCommand [0x02, 0x00, 0x0E, 0, 0, 0xC0, 0x4E, 0, 0x0F, 0x42, 0x22, 0, 1, 0x86, 0xA0] running)
      (fun t => t.io.trace == [.xwrite 0x02 0x02, .xwrite 0x03 0x8A, .respond (.exc .badArg 2)]) = true := by decide
/-- 2.9: INIT in READY. -/
theorem test_init_refused_in_ready : answers [0x01, 0, 0] [0x87, 0, 1] running = true := by decide
/-- P3 step 1. -/
theorem test_write_p3 :
    andThen (exec (.write false 0 [0xC8, 0, 0, 0, 0x2A, 5])
        { running with env := { running.env with polls := [⟨0, ⟨.byte 0, 1⟩, [⟨.byte 0x80, 2⟩]⟩] } }) (fun t =>
      t.io.trace == [.xwrite 0x01 0x02, .xread 0x3E (.byte 0), .xread 0x3E (.byte 0x80),
        .burstWrite 0x00 [6, 0xC8, 0, 0, 0, 0x2A, 5], .xwrite 0x01 0x03, .respond (.ok [])] &&
      status0 t == 0x2D && status1 t == 0x13) = true := by decide
/-- P3 variant 1': the flag is never seen. -/
theorem test_write_timeout :
    andThen (exec (.write false 0 [1])
        { running with env := { running.env with polls := [⟨0xFFFFFFFF, ⟨.byte 0, 0⟩, [⟨.error, 99⟩]⟩] } }) (fun t =>
      t.ctl.mode == .fstx && !t.ctl.txbusy && lastResponse t == [0x83, 0, 0]) = true := by decide
/-- 2.9: an oversized read stays pending. -/
theorem test_read_oversize :
    answers [0x04, 1, 0x0A] [0x85, 0, 0x0B]
      { running with ctl := { running.ctl with rxPend := true, rxLen := 11 } } = true := by decide
/-- An empty packet issues no bulk transfer (R232). -/
theorem test_read_empty_packet :
    andThen (exec (.read false 0) { running with ctl := { running.ctl with rxPend := true, rxLen := 0 } }) (fun t =>
      t.io.trace == [.xwrite 0x01 0x05, .respond (.ok [0])] && !t.ctl.rxPend) = true := by decide
/-- P5 step 8. -/
theorem test_close :
    andThen (exec .close running) (fun t =>
      t.io.trace == [.xwrite 0x01 0x00, .cancelBackground, .respond (.ok [])] && status0 t == 0x03 && status1 t == 0x10)
      = true := by decide
/-- The state of P2 after step 3. -/
def pending : State :=
  { running with
    ctl := { running.ctl with rxPend := true, rxLen := 11, rxTs := 5000 }
    rx := { valid := true, rssi := 160, thresh := 180, lna := 6, afc := 0xFFFD } }
def packet11 : List Byte := [0xC8, 0x12, 0x34, 0x56, 0x78, 0x91, 0x82, 0x0F, 0xD0, 0x2A, 0xFE]
/-- P2 step 6. -/
theorem test_recv_p2 :
    answers [0x06, 0, 0, 1, 6]
      [0x00, 0x79, 0x11, 0x12, 0x34, 0x56, 0x78, 6, 3, 6, 2, 0, 0, 0, 1, 0, 0, 3, 0xE8, 0x2A, 0xFF, 0xFF, 0xFF, 0x00,
       0xFF, 0x60, 0x02, 0xFF, 0xFF, 0xFF, 0x48] (withChip pending [] packet11 []) = true := by decide
/-- P2 variant 6': consumed and dropped. -/
theorem test_recv_parity_drop :
    andThen (exec (.recv false 0 true 5) (answering pending packet11)) (fun t =>
      lastResponse t == [0x01] && !t.ctl.rxPend) = true := by decide
/-- P2 step 5. -/
theorem test_rxrssi : answers [0x10] [0x00, 0xFF, 0x60] pending = true := by decide
theorem test_rxlna : answers [0x11] [0x00, 0x06] pending = true := by decide
theorem test_rxafc : answers [0x12] [0x00, 0xFF, 0xFF, 0xFF, 0x48] pending = true := by decide
theorem test_rxmargin : answers [0x13] [0x00, 0x02] pending = true := by decide
/-- 2.8: NONE before any capture. -/
theorem test_rxafc_none : answers [0x12] [0x01] running = true := by decide
/-- R271: the upper boundary rounds down. -/
theorem test_rxmargin_boundary :
    answers [0x13] [0x00, 19] { pending with rx := { pending.rx with rssi := 125 } } = true := by decide
/-- P1 and 2.9. -/
theorem test_status_running : answers [0x14] [0x00, 0x15, 0x13] running = true := by decide
theorem test_status_reset : answers [0x14] [0x00, 0x00, 0x00] State.reset = true := by decide
/-- S4, and the wrap of R132. -/
theorem test_vdec1_int32_min : answers [0x20, 5, 0x0F, 0x7F, 0x7F, 0x7F, 0xFF] [0, 0x80, 0, 0, 0, 5] fresh = true := by decide
theorem test_vdec1_overlong : answers [0x20, 6, 1, 0, 0, 0, 0, 0x80] [0, 0, 0, 0, 0, 6] fresh = true := by decide
/-- 2.2. -/
theorem test_vdecall_truncated :
    answers [0x21, 5, 0x82, 0x0F, 0xD0, 0x81, 0x01] [0, 3, 0, 0, 0, 1, 0, 0, 3, 0xE8, 0xFF, 0xFF, 0xFF, 0xFF] fresh
      = true := by decide
theorem test_vdecall_overlong :
    answers [0x21, 7, 1, 0, 0, 0, 0, 0x80, 0x82] [0, 2, 0, 0, 0, 0, 0, 0, 0, 1] fresh = true := by decide
/-- 2.3. -/
theorem test_venc_1000 : answers [0x22, 0, 0, 3, 0xE8] [0, 2, 0x0F, 0xD0] fresh = true := by decide
theorem test_venc_boundaries :
    [venc 63, venc 64, venc (-65), venc 8192, venc (-1048577), venc 134217728, venc 0x80000000]
      = [[0xFE], [1, 0x80], [1, 0x81], [1, 0, 0x80], [1, 0, 0, 0x81], [1, 0, 0, 0, 0x80], [0x0F, 0x7F, 0x7F, 0x7F, 0xFF]]
      := by decide
/-- 2.5: the full V1 record, and a node id of six bytes. -/
theorem test_pdec_v1 :
    answers [0x28, 0, 0, 7, 0x00, 0xBD, 0x03, 0x0F, 0xD0, 0x82, 0x81]
      [0, 0x18, 3, 0, 0, 3, 0xE8, 3, 4, 5, 2, 0, 0, 0, 1, 0xFF, 0xFF, 0xFF, 0xFF, 0, 0, 0, 0, 0] fresh = true := by decide
theorem test_pdec_node_overlong :
    answers [0x28, 0, 0, 10, 0x00, 0x3D, 2, 1, 0, 0, 0, 0, 0x80, 0x82] [0x01] fresh = true := by decide
/-- 2.4. -/
theorem test_gensync_6 : answers [0x29, 6] [0, 0xAA, 0x2D, 6, 0xC0] fresh = true := by decide
theorem test_gensync_64 : answers [0x29, 64] [0x86, 0, 0xFF] fresh = true := by decide
theorem test_parchk_match : answers [0x2A, 3, 0xC8] [0, 1] fresh = true := by decide
theorem test_parchk_mismatch : answers [0x2A, 5, 0xC8] [0, 0] fresh = true := by decide

/-! ### Options (2.6) -/

/-- The bus writes of a step. -/
def busWrites (t : State) : List (Addr × Byte) :=
  t.io.trace.filterMap fun a => match a with
    | .xwrite r v => some (r, v)
    | _ => none

theorem test_cfgFreq_43 :
    andThen (exec (.cfgFreq 43) running) (fun t => busWrites t == [(6, 0x6B), (7, 0x80), (8, 0)]) = true := by decide
theorem test_cfgFreq_top :
    andThen (exec (.cfgFreq 1023999970) running) (fun t => lastResponse t == [0x86, 0, 0] && busWrites t == [])
      = true := by decide
theorem test_cfgBitrate_489 :
    andThen (exec (.cfgBitrate 489) running) (fun t => busWrites t == [(2, 0xFF), (3, 0xA0)]) = true := by decide
theorem test_cfgBitrate_488 : andThen (exec (.cfgBitrate 488) running) (fun t => lastResponse t == [0x86, 0, 1]) = true := by decide
theorem test_cfgFdev_31 :
    andThen (exec (.cfgFdev 31) running) (fun t => busWrites t == [(4, 0), (5, 1)]) = true := by decide
theorem test_cfgFdev_999969 :
    andThen (exec (.cfgFdev 999969) running) (fun t => busWrites t == [(4, 0x3F), (5, 0xFF)]) = true := by decide
theorem test_cfgRxbw_83301 :
    andThen (exec (.cfgRxbw 83301) running) (fun t => busWrites t == [(0x12, 0x0A)] && t.cfg.rxbw == 16) = true := by decide
theorem test_cfgRxbw_above : andThen (exec (.cfgRxbw 250001) running) (fun t => lastResponse t == [0x86, 0, 3]) = true := by decide
theorem test_cfgAfcbw_0 :
    andThen (exec (.cfgAfcbw 0) running) (fun t => busWrites t == [(0x13, 0x17)] && t.cfg.afcbw == 0) = true := by decide
theorem test_cfgPreamble :
    andThen (exec (.cfgPreamble 0x1234) running) (fun t => busWrites t == [(0x25, 0x12), (0x26, 0x34)]) = true := by decide
/-- The upper five bits come from the read. -/
theorem test_cfgSync_one :
    andThen (exec (.cfgSync [0x2D]) (answering running [0x97])) (fun t =>
      busWrites t == [(0x28, 0x2D), (0x27, 0x90)] && t.cfg.sync == #v[0x2D, 0x2D, 6]) = true := by decide
theorem test_cfgSync_four : andThen (exec (.cfgSync [1, 2, 3, 4]) running) (fun t => lastResponse t == [0x86, 0, 6]) = true := by decide
theorem test_cfgPktlen :
    andThen (exec (.cfgPktlen true 32) running) (fun t => fixedLength t && t.cfg.fixlen == 32 && busWrites t == []) = true := by decide
theorem test_cfgRxcont :
    andThen (exec (.cfgRxcont false) running) (fun t => !rxContinuous t && t.ctl.mode == .receive) = true := by decide
theorem test_cfgReserved : andThen (exec (.cfgReserved 0x0200 []) running) (fun t => lastResponse t == [0x86, 0, 0xFF]) = true := by decide

/-! ### Events -/

/-- P2 step 1. -/
theorem test_evPreamble :
    andThen (exec .evPreamble (answering running [160, 180, 0x40, 0xFF, 0xFD])) (fun t =>
      t.rx == pending.rx && t.tmr.safetyArmed && t.tmr.safetySeq == 1 && status0 t == 0x95 && status1 t == 0x17)
      = true := by decide
/-- Re-arming cancels the old timer (R222). -/
theorem test_evPreamble_rearms :
    andThen (exec .evPreamble
        (answering { running with tmr := { running.tmr with safetyArmed := true, safetyHandle := 4, safetySeq := 5 } }
          [160, 180, 0x40, 0xFF, 0xFD])) (fun t =>
      t.io.trace.drop 5 == [.cancelSafety 4, .armOneShot 2 5] && t.tmr.safetyHandle == 5 && t.tmr.safetySeq == 6)
      = true := by decide
/-- P2 step 3. -/
theorem test_evDio0_payload :
    andThen (exec .evDio0 { answering running [11] with env := { (answering running [11]).env with ticks := [5000] } })
      (fun t => notes t == [[0xC0, 0x0B, 0, 0, 0x13, 0x88]] && t.ctl.rxPend && t.ctl.rxLen == 11) = true := by decide
/-- P3 step 4. -/
theorem test_evDio0_sent :
    andThen (exec .evDio0 { running with ctl := { running.ctl with mode := .transmit, txbusy := true } }) (fun t =>
      notes t == [[0xC1]] && busWrites t == [(0x01, 0x05)] && !t.ctl.txbusy && t.ctl.mode == .receive) = true := by decide
/-- P4 step 4, and P2 step 4. -/
theorem test_evSafety_fires :
    andThen (exec (.evSafety 0) (answering { running with tmr := { running.tmr with safetyArmed := true } } [0xAE])) (fun t =>
      notes t == [[0xC2, 1, 0, 0xAE]] && busWrites t == [(0x0D, 0x40)] && !t.tmr.safetyArmed) = true := by decide
theorem test_evSafety_stale : andThen (exec (.evSafety 0) running) (fun t => t == running) = true := by decide
/-- P4 step 2. -/
theorem test_evBg_stuck_and_drift :
    andThen (exec .evBg
        (answering { running with trk := { bgRssi := 2870, lastAfc := 100, lastAfcV := true } } [170, 0, 0x64, 1])) (fun t =>
      t.trk.bgRssi == 2861 && busWrites t == [(0x10, 0xAE), (0x0D, 0x40), (0x01, 0x05)] &&
      notes t == [[0xC2, 2, 0, 0x64], [0xC2, 3, 0, 1]]) = true := by decide
/-- 2.7 ticks 4 and 6: samples outside the range are dropped; TXBUSY forgets the AFC sample. -/
theorem test_evBg_dropped_sample :
    andThen (exec .evBg (answering
        { running with ctl := { running.ctl with txbusy := true }, trk := { bgRssi := 2853, lastAfc := 1, lastAfcV := true } }
        [139])) (fun t => t.trk == { bgRssi := 2853, lastAfc := 1, lastAfcV := false } && busWrites t == []) = true := by decide

/-! ### Messages and wire rows -/

theorem test_nReadable : andThen (exec (.nReadable 11 5000) fresh) (fun t => notes t == [[0xC0, 0x0B, 0, 0, 0x13, 0x88]]) = true := by decide
theorem test_nWritable : andThen (exec .nWritable fresh) (fun t => notes t == [[0xC1]]) = true := by decide
theorem test_nDiag : andThen (exec (.nDiag 1 0xAE) fresh) (fun t => notes t == [[0xC2, 1, 0, 0xAE]]) = true := by decide
theorem test_rspOk : andThen (exec (.rspOk [0x15, 0x13]) fresh) (fun t => lastResponse t == [0, 0x15, 0x13]) = true := by decide
theorem test_rspNone : andThen (exec (.rspNone [0]) fresh) (fun t => lastResponse t == [1, 0]) = true := by decide
theorem test_rspExc : andThen (exec (.rspExc .busDead 1) fresh) (fun t => lastResponse t == [0x82, 0, 1]) = true := by decide
/-- 0x0F then 0xD0 is 1000 (2.1). -/
theorem test_varintGroup : andThen (exec (.varintGroup 15) fresh) (fun t => t.codec.vacc == 15 && t.codec.vcnt == 1 && !t.codec.vdone) = true := by decide
theorem test_varintLast :
    andThen (exec (.varintLast 80) { fresh with codec := { fresh.codec with vacc := 15, vcnt := 1, vdone := false } }) (fun t =>
      t.codec.vacc == 2000 && t.codec.vcnt == 2 && t.codec.vval == 1000 && t.codec.vdone) = true := by decide
/-- 2.5, seen through PK. -/
theorem test_pktV1Node :
    andThen (deliver .packetHeader [0x00, 0x3D, 0x81, 0x82, 0x3F, 0x80] fresh) (fun t =>
      packetBytes t.codec.pk == [0x20, 1, 0, 0, 0, 0, 3, 1, 3, 1, 0, 0, 0, 1, 0x3F, 0xFF, 0xFF, 0xC0, 0x00]) = true := by decide
theorem test_pktV1Gw :
    andThen (deliver .packetHeader [0x3D, 0x00, 0x85, 0x82, 0x14, 0x7F] fresh) (fun t =>
      packetBytes t.codec.pk == [0x26, 5, 0, 0, 0, 0, 3, 1, 3, 1, 0, 0, 0, 1, 0x14, 0, 0, 0x3F, 0x80]) = true := by decide
theorem test_pktV2 :
    andThen (deliver .packetHeader [0x22, 0, 0, 0, 0x2A, 5] fresh) (fun t =>
      packetBytes t.codec.pk == [0x13, 5, 0, 0, 0, 0x2A, 6, 0, 6, 0, 0, 0, 0, 0, 0]) = true := by decide
theorem test_pktTrailer :
    andThen (exec (.pktTrailer 3 42 0xFE) fresh) (fun t => t.codec.pk.rmargin == 42 && t.codec.pk.rfei == -256) = true := by decide
theorem test_syncword : andThen (exec (.syncword 6) fresh) (fun t => t.codec.sy == ⟨0xAA, 0x2D, 6, 0xC0⟩) = true := by decide
theorem test_parity : andThen (exec (.parity true false 0) fresh) (fun t => t.codec.sy.parity == 0x80) = true := by decide
/-- A FIFO frame runs as WRITE: refused outside READY with XR_FIFO untouched (20_memory.md R64), sent in READY. -/
theorem test_fifoframe_refused :
    andThen (exec (.fifoframe [1]) (withChip fresh [] [] [])) (fun t =>
      t.env.refx == some ⟨[], [], []⟩ && lastResponse t == [0x87, 0, 0]) = true := by decide
theorem test_fifoframe_sent :
    andThen (exec (.fifoframe [1])
        { running with env := { running.env with polls := [⟨0, ⟨.byte 0x80, 1⟩, []⟩] } }) (fun t =>
      t.ctl.txbusy && t.io.trace.any (· == .burstWrite 0 [1, 1]) && lastResponse t == [0]) = true := by decide

/-! ### The port (2.9) -/

theorem test_unknown_opcode : answers [0x7F] [0x86, 0, 0xFF] fresh = true := by decide
theorem test_not_ready_precedes_format : answers [0x03, 2, 0, 0] [0x87, 0, 0] fresh = true := by decide
theorem test_bad_flag_in_ready : answers [0x03, 2, 0, 0] [0x86, 0, 0xFF] running = true := by decide
theorem test_idle : step fresh = .next fresh := rfl
theorem test_block_reset :
    andThen (step { running with inbox := [.blockReset, .frame .hostCommand [0x14]] }) (fun t =>
      t == { fresh with inbox := [.frame .hostCommand [0x14]] }) = true := by decide

/-! ### Witnesses: concrete states and operands that meet the hypotheses of each statement, clause by clause, at the ends of
the ranges the clauses name -/

theorem test_witness_DecodeEncode :
    (Instr.write true 5 (List.replicate 255 0)).wf = true ∧ (Instr.cfgReserved 0x0200 []).wf = true ∧
    (Instr.pktV2 3 true true true 7 0xFFFFFFFF true 127 (List.replicate 249 0)).wf = true := by decide +kernel
theorem test_witness_EncodeDecode : decode .fifoFrame [1, 0xC8] = .ok (.fifoframe [0xC8]) := by decide
theorem test_witness_StepRunsDecoded :
    { running with inbox := [.frame .event [0x83], .blockReset] }.inbox = .frame .event [0x83] :: [.blockReset] ∧
    decode .event [0x83] = .ok .evBg := by decide
theorem test_witness_StepIdleOrReset :
    running.inbox = [] ∧ { running with inbox := [.blockReset] }.inbox = .blockReset :: [] := by decide
theorem test_witness_MalformedAnswered :
    { fresh with inbox := [.frame .hostCommand [3, 2, 0, 0]] }.inbox = .frame .hostCommand [3, 2, 0, 0] :: [] ∧
    decode .hostCommand [3, 2, 0, 0] = .error .badFlag ∧ decode .hostCommand [] = .error .emptyFrame ∧
    decode .hostCommand [0x7F] = .error .unknownCode := by decide
theorem test_witness_Vdec1Result :
    (∀ x ∈ [(0x01 : Byte), 0x7F], unterminated x) ∧ (0x80 : Byte).getLsbD 7 = true ∧
    ∀ x ∈ ([] : List Byte), unterminated x := by unfold unterminated; decide
theorem test_witness_VarintRoundTrips :
    (([1, 1000] : List U32).flatMap venc).length ≤ 255 ∧
    MinimalVarint [0x80] ∧ MinimalVarint [0x0F, 0x7F, 0x7F, 0x7F, 0xFF] :=
  ⟨by decide, ⟨[], 0x80, rfl, by unfold unterminated; decide, rfl, by decide, by decide⟩,
    ⟨[0x0F, 0x7F, 0x7F, 0x7F], 0xFF, rfl, by unfold unterminated; decide, rfl, by decide, by decide⟩⟩
theorem test_witness_VdecallResult :
    (∀ r ∈ [[(0x82 : Byte)], [0x0F, 0xD0]], ∃ pre z, r = pre ++ [z] ∧ (∀ x ∈ pre, unterminated x) ∧ z.getLsbD 7 = true) ∧
    ∀ x ∈ [(0x01 : Byte)], unterminated x := by
  unfold unterminated
  simp only [List.mem_cons, List.not_mem_nil, or_false, forall_eq_or_imp, forall_eq]
  exact ⟨⟨⟨[], 0x82, rfl, by simp, rfl⟩, ⟨[0x0F], 0xD0, rfl, by decide, rfl⟩⟩, by decide⟩
theorem test_witness_ParityFunction : (63 : Byte).toNat ≤ 63 ∧ (0 : Byte).toNat ≤ 63 := by decide
theorem test_witness_PdecNoResult :
    (true = true ∧ 63 < (64 : Byte).toNat) ∧ ¬(true = true ∧ 63 < (63 : Byte).toNat) ∧ [(0xC0 : Byte), 0].length < 3 ∧
    (0x00 : Byte) &&& 0xC0 ≠ groupParity 6 := by decide
theorem test_witness_PdecV2Result :
    (true = true → (6 : Byte).toNat ≤ 63 ∧ (0xC8 : Byte) &&& 0xC0 = groupParity 6) ∧
    ¬(((0xC8 : Byte) &&& 0x3F = 0 ∧ (0x12 : Byte) &&& 0x3F = 61) ∨ ((0xC8 : Byte) &&& 0x3F = 61 ∧ (0x12 : Byte) &&& 0x3F = 0)) ∧
    [(0x34 : Byte), 0x56].length < 3 ∧ (0x91 : Byte).getLsbD 7 = true ∧ [(0x82 : Byte)].length < 2 ∧
    2 ≤ [(0x2A : Byte), 0xFE].length := by decide
theorem test_witness_PdecV1GatewayResult :
    (true = true → (6 : Byte).toNat ≤ 63 ∧ (0xFD : Byte) &&& 0xC0 = groupParity 6) ∧ (0xFD : Byte) &&& 0x3F = 61 ∧
    (0x80 : Byte) &&& 0x3F = 0 := by decide
theorem test_witness_PdecV1NodeResult :
    (true = true → (6 : Byte).toNat ≤ 63 ∧ (0xC0 : Byte) &&& 0xC0 = groupParity 6) ∧ (0xC0 : Byte) &&& 0x3F = 0 ∧
    (0xBD : Byte) &&& 0x3F = 61 ∧
    ((0x81 : Byte).getLsbD 7 = true ∧ [(0x82 : Byte)].length < 2) ∧
    (¬((0x01 : Byte).getLsbD 7 = true) ∧ [(0x82 : Byte)].length ≤ 1) ∧
    (1 < [(0x01 : Byte), 0x02].length ∧ ∀ x ∈ [(0x01 : Byte), 0x02].take 2, x.getLsbD 7 = false) ∧
    [(1 : Byte), 0, 0, 0, 0x80, 0x82].take 6 = [1, 0, 0, 0] ++ 0x80 :: [0x82] ∧ [(1 : Byte), 0, 0, 0].length ≤ 4 ∧
    [(1 : Byte), 0, 0, 0, 0, 0x80].take 6 = [1, 0, 0, 0, 0] ++ 0x80 :: [] ∧ 5 ≤ [(1 : Byte), 0, 0, 0, 0].length := by decide
/-- The record of 30_encoding.md R104 written out by hand, with every presence flag set and with none. -/
theorem test_recordLayout :
    recordLayout
      { ver := true, isAck := false, fromGw := true, wantAck := true, type := 0x11, nodeV := true, node := 0x12345678,
        payOff := 6, payLen := 3, dataOff := 6, data := [1, 0xFFFFFFFF], trlV := true, rmargin := 42, rfei := 0xFFFFFF00,
        lqV := true, rssi := 0xFF60, margin := 7, fei := 0x0102 }
      = [0x7D, 0x11, 0x12, 0x34, 0x56, 0x78, 6, 3, 6, 2, 0, 0, 0, 1, 0xFF, 0xFF, 0xFF, 0xFF, 42, 0xFF, 0xFF, 0xFF, 0x00,
         0xFF, 0x60, 7, 0, 0, 1, 2] ∧
    recordLayout { Packet.zero with isAck := true, node := 9, rmargin := 9, rfei := 9, rssi := 9, margin := 9, fei := 9 }
      = [2, 0, 0, 0, 0, 0, 0, 0, 0, 0, 0, 0, 0, 0, 0] := by decide
theorem test_witness_PdecSound : packet11.length ≤ 255 := by decide
theorem test_witness_PacketRows :
    (Instr.pktV1Gw 0 true false true 5 [0x14, 0x7F]).format = .packetHeader ∧ 2 ≤ [(0x14 : Byte), 0x7F].length ∧
    [(0x82 : Byte)].length ≤ 1 ∧ (Instr.pktV2 3 false false true 0 0x12345678 true 17 [0x2A, 0xFE]).wf = true := by decide
theorem test_witness_CfgFreqResult :
    running.ctl.life = .ready ∧ running.p.imageCal = false ∧
    (((1 : U32).toNat * 10 ^ (8 - 1) < 100000000) ∧ 100000000 ≤ (1 : U32).toNat * 10 ^ 8) ∧
    100000000 ≤ (100000000 : U32).toNat * 10 ^ 0 ∧ (1023999969 : U32).toNat * 10 ^ 0 ≤ 1023999969 ∧
    1023999969 < (1023999970 : U32).toNat * 10 ^ 0 := by decide

/-- A part that calibrates, with the polls the environment will draw. -/
def calibrating (polls : List PollDraw) : State :=
  { running with params := some { testParams with imageCal := true }, env := { running.env with polls := polls } }

theorem test_witness_CfgFreqCalibrates :
    let done : Byte → Bool := fun v => v &&& testParams.imagecalRunningMask == 0
    let s := calibrating [⟨0, ⟨.byte 0x20, 1⟩, [⟨.byte 0, 2⟩]⟩]
    let t := calibrating [⟨0, ⟨.byte 0x20, 9⟩, [⟨.error, 10⟩]⟩]
    let acts := [Action.xwrite 0x06 0x6C, .xwrite 0x07 0x80, .xwrite 0x08 0x00, .xwrite 0x3B 0x40]
    s.ctl.life = .ready ∧ s.p.imageCal = true ∧ 434 * 10 ^ (6 - 1) < 100000000 ∧ 100000000 ≤ 434 * 10 ^ 6 ∧
    434 * 10 ^ 6 ≤ 1023999969 ∧ BusRun s.p s.env acts s.env ∧ BusRun t.p t.env acts t.env ∧
    PollSees s.p s.p.xr.imagecal done s.p.calTimeoutMs s.env [.byte 0x20, .byte 0] { s.env with polls := [] } ∧
    PollMisses t.p t.p.xr.imagecal done t.p.calTimeoutMs t.env [.byte 0x20, .error] { t.env with polls := [] } :=
  ⟨rfl, rfl, by decide, by decide, by decide, rfl, rfl,
    ⟨[⟨.byte 0x20, 1⟩], ⟨.byte 0, 2⟩, [], rfl, rfl, .cons ⟨rfl, by decide⟩ .nil, rfl⟩,
    ⟨[⟨.byte 0x20, 9⟩], ⟨.error, 10⟩, [], rfl, rfl, .cons ⟨rfl, by decide⟩ .nil, rfl, .inl (by decide)⟩⟩
theorem test_witness_CfgBitrateResult :
    running.ctl.life = .ready ∧ (488 : U32).toNat < 489 ∧ 32000000 < (32000001 : U32).toNat ∧ 489 ≤ (489 : U32).toNat ∧
    (32000000 : U32).toNat ≤ 32000000 := by decide
theorem test_witness_CfgFdevResult :
    running.ctl.life = .ready ∧ 999969 < (999970 : U32).toNat ∧ (999969 : U32).toNat ≤ 999969 := by decide
theorem test_witness_CfgBandwidthResult :
    running.ctl.life = .ready ∧ (∀ r ∈ running.p.bwTable, r.hz < (250001 : U32).toNat) ∧
    running.p.bwTable = [] ++ ⟨2600, 2, 7⟩ :: running.p.bwTable.tail ∧ (0 : U32).toNat ≤ 2600 ∧
    running.p.bwTable = running.p.bwTable.take 20 ++ ⟨250000, 0, 1⟩ :: [] ∧
    (∀ r ∈ running.p.bwTable.take 20, r.hz < (250000 : U32).toNat) ∧ (250000 : U32).toNat ≤ 250000 := by decide
theorem test_witness_BwLookupSmallest : testParams.wf = true := test_params_wf
theorem test_witness_CfgPlainResults : running.ctl.life = .ready := by decide
theorem test_witness_CfgSyncResult :
    running.ctl.life = .ready ∧ BusHealthy running ∧ ([] : List Byte).length = 0 ∧
    3 < [(1 : Byte), 2, 3, 4].length ∧ 1 ≤ [(1 : Byte)].length ∧ [(1 : Byte), 2, 3].length ≤ 3 := by unfold BusHealthy; decide
theorem test_witness_ConfigureSequence :
    running.ctl.life = .ready ∧ firstOption {} = none ∧
    firstOption { pktlen := some (true, 32), rxcont := some false } = some (.cfgPktlen true 32, { rxcont := some false }) ∧
    exec (.cfgPktlen true 32) running = .next (State.emit
      { running with cfg := { running.cfg with fixed := true, fixlen := 32 } } (.respond (.ok []))) ∧
    firstOption { bitrate := some 488 } = some (.cfgBitrate 488, {}) ∧
    exec (.cfgBitrate 488) running = .next (running.emit (.respond (.exc .badArg 1))) :=
  ⟨rfl, rfl, rfl, rfl, rfl, rfl⟩
theorem test_witness_ConfigureFrame : running.ctl.life = .ready ∧ BusHealthy running := by unfold BusHealthy; decide

/-- A state in which INIT is admitted, with the answers its reads will get. -/
def constructible (answers : List BusAnswer) : State := { fresh with env := { fresh.env with answers := answers } }

theorem test_witness_InitEmptyBody :
    let s := constructible [.error, .byte 0x13, .byte 0xAA, .byte 0x55]
    let e0 := (constructible [.byte 0xAA, .byte 0x55]).env
    s.ctl.life ≠ .ready ∧ initTableOk s.p = true ∧ [BusAnswer.error].length < 10 ∧
    (∀ r ∈ [BusAnswer.error], r ≠ .byte s.p.versionA ∧ r ≠ .byte s.p.versionB) ∧ (0x13 : Byte) = s.p.versionB ∧
    versionAnswers s.p 2 s.env = ([.error] ++ [.byte 0x13], e0) ∧
    BusRun s.p e0
      ([Action.xwrite s.p.scratchAddr s.p.scratchPatA, .xread s.p.scratchAddr (.byte s.p.scratchPatA),
        .xwrite s.p.scratchAddr s.p.scratchPatB, .xread s.p.scratchAddr (.byte s.p.scratchPatB)] ++
        s.p.initTable.map fun w => Action.xwrite w.1 w.2) (constructible []).env :=
  ⟨by decide, by decide, by decide, by decide, rfl, by decide, ⟨rfl, rfl, rfl⟩⟩
theorem test_witness_InitFailures_version :
    let s := constructible (List.replicate 9 (.byte 3) ++ [.error])
    s.ctl.life ≠ .ready ∧ versionAnswers s.p 10 s.env = (List.replicate 9 (.byte 3) ++ [.error], (constructible []).env) ∧
    ∀ r ∈ List.replicate 9 (BusAnswer.byte 3) ++ [.error], r ≠ .byte s.p.versionA ∧ r ≠ .byte s.p.versionB := by decide
theorem test_witness_InitFailures_scratch :
    let s := constructible [.byte 0x12, .byte 0xAA, .byte 0xAB]
    let t := constructible [.byte 0x12, .byte 0xAB]
    versionAnswers s.p 1 s.env = ([] ++ [.byte 0x12], (constructible [.byte 0xAA, .byte 0xAB]).env) ∧
    versionAnswers t.p 1 t.env = ([] ++ [.byte 0x12], (constructible [.byte 0xAB]).env) ∧
    (0x12 : Byte) = s.p.versionA ∧ (0xAB : Byte) ≠ s.p.scratchPatA ∧ (0xAB : Byte) ≠ s.p.scratchPatB ∧
    BusRun t.p (constructible [.byte 0xAB]).env [.xwrite t.p.scratchAddr t.p.scratchPatA, .xread t.p.scratchAddr (.byte 0xAB)]
      (constructible []).env ∧
    BusRun s.p (constructible [.byte 0xAA, .byte 0xAB]).env
      [.xwrite s.p.scratchAddr s.p.scratchPatA, .xread s.p.scratchAddr (.byte s.p.scratchPatA),
       .xwrite s.p.scratchAddr s.p.scratchPatB, .xread s.p.scratchAddr (.byte 0xAB)] (constructible []).env :=
  ⟨by decide, by decide, rfl, by decide, by decide, ⟨rfl, rfl⟩, ⟨rfl, rfl, rfl⟩⟩
theorem test_witness_InitOutcome :
    BusHealthy fresh ∧ initTableOk fresh.p = true ∧ fresh.ctl.life ≠ .ready := by unfold BusHealthy; decide

/-- A chip that answers as INIT expects. -/
def found : State := constructible [.byte 0x13, .byte 0xAA, .byte 0x55]

/-! The three cases of InitOutcome: the empty INIT fails, both succeed, the body's option fails. -/

theorem test_witness_InitOutcome_absent :
    andThen (exec (.init {}) (constructible (List.replicate 10 (.byte 3)))) (fun u => u.ctl.life == .failed) = true := by
  decide +kernel
theorem test_witness_InitOutcome_empty :
    andThen (exec (.init {}) found) (fun u => u.ctl.life == .ready && u.ctl.mode == .standby) = true := by decide +kernel
theorem test_witness_InitOutcome_options :
    andThen (exec (.init { bitrate := some 49230, rxcont := some true }) found) (fun t =>
      t.ctl.life == .ready && t.ctl.mode == .receive && t.cfg.bitrateV && t.cfg.brreg == 650) = true := by decide +kernel
theorem test_witness_InitOutcome_refused :
    andThen (exec (.init { bitrate := some 488 }) found) (fun t =>
      t.ctl.life == .failed && lastResponse t == [0x86, 0, 1]) = true := by decide +kernel
theorem test_witness_CloseResult : running.ctl.life = .ready := by decide
theorem test_witness_AdmissionRefused :
    isCommand (.init {}) = true ∧ admittedIn (.init {}) running.ctl.life = false ∧ isCommand (.cfgFreq 1) = true ∧
    admittedIn (.cfgFreq 1) fresh.ctl.life = false := by decide
theorem test_witness_SilentOutsideReady :
    fresh.ctl.life ≠ .ready ∧ (∀ c, Instr.gensync 6 ≠ .init c) ∧
    (Instr.gensync 6).format ≠ .notification ∧ (Instr.gensync 6).format ≠ .response ∧
    exec (.gensync 6) fresh = .next (State.emit
      { fresh with codec := { fresh.codec with sy := ⟨0xAA, 0x2D, 6, 0xC0⟩ } } (.respond (.ok [0xAA, 0x2D, 6, 0xC0]))) :=
  ⟨by decide, by simp, by decide, by decide, rfl⟩
theorem test_witness_EvPreambleResult :
    BusHealthy running ∧ running.ctl.life = .ready ∧ running.tmr.dioEn = true := by unfold BusHealthy; decide
theorem test_witness_EventsIgnored :
    fresh.ctl.life ≠ .ready ∧ fresh.tmr.dioEn = false ∧ fresh.tmr.safetyArmed = false ∧ fresh.tmr.bgArmed = false ∧
    (1 : U16) ≠ running.tmr.safetyHandle := by decide

/-- The running state with its safety timer pending. -/
def guarded : State := { running with tmr := { running.tmr with safetyArmed := true, safetyHandle := 4, safetySeq := 5 } }

theorem test_witness_EvSafetyFires :
    BusHealthy guarded ∧ guarded.ctl.life = .ready ∧ guarded.tmr.safetyArmed = true := by unfold BusHealthy; decide

/-- The running state in fixed-length mode. -/
def fixedLen : State := { running with cfg := { running.cfg with fixed := true, fixlen := 32 } }

theorem test_witness_EvDio0Arrived :
    BusHealthy fixedLen ∧ fixedLen.ctl.life = .ready ∧ fixedLen.tmr.dioEn = true ∧
    fixedLen.ctl.txbusy = false ∧ (fixedLen.cfg.pktlenV = true ∧ fixedLen.cfg.fixed = true) ∧
    running.tmr.dioEn = true ∧ running.ctl.txbusy = false ∧
    ¬(running.cfg.pktlenV = true ∧ running.cfg.fixed = true) := by unfold BusHealthy; decide

/-- The running state with a transmission in flight. -/
def sending : State := { running with ctl := { running.ctl with mode := .transmit, txbusy := true } }

theorem test_witness_EvDio0Sent :
    sending.ctl.life = .ready ∧ sending.tmr.dioEn = true ∧ sending.ctl.txbusy = true := by decide
theorem test_witness_ReadResult :
    BusHealthy pending ∧ pending.ctl.life = .ready ∧ running.ctl.rxPend = false ∧
    pending.ctl.rxPend = true ∧ (true = true ∧ (10 : Byte).toNat < pending.ctl.rxLen.toNat) ∧
    ¬(true = true ∧ (11 : Byte).toNat < pending.ctl.rxLen.toNat) := by unfold BusHealthy; decide
theorem test_witness_RecvResult :
    BusHealthy pending ∧ pending.ctl.life = .ready ∧ (true = true ∧ 63 < (64 : Byte).toNat) ∧
    ¬(true = true ∧ 63 < (63 : Byte).toNat) ∧ running.ctl.rxPend = false ∧ pending.ctl.rxPend = true ∧
    (true = true ∧ (10 : Byte).toNat < pending.ctl.rxLen.toNat) ∧
    ¬(true = true ∧ (11 : Byte).toNat < pending.ctl.rxLen.toNat) := by unfold BusHealthy; decide

/-- The running state with the polls the environment will draw. -/
def polling (polls : List PollDraw) : State := { running with env := { running.env with polls := polls } }

theorem test_witness_WriteCompletes :
    let s := polling [⟨0, ⟨.byte 0, 1⟩, [⟨.byte 0x80, 2⟩]⟩]
    s.ctl.life = .ready ∧ s.ctl.txbusy = false ∧ 0 < (63 : Byte).toNat ∧ (63 : Byte).toNat ≤ s.p.maxPayload ∧
    (63 : Byte).toNat ≤ (List.replicate 63 (0 : Byte)).length ∧
    BusRun s.p s.env [.xwrite s.p.xr.opmode (s.p.opmodeBase ||| 2)] s.env ∧
    PollSees s.p s.p.xr.irqflags1 (fun v => v &&& s.p.modereadyMask != 0) 100 s.env [.byte 0, .byte 0x80]
      { s.env with polls := [] } :=
  ⟨rfl, rfl, by decide, by decide, by decide, rfl,
    ⟨[⟨.byte 0, 1⟩], ⟨.byte 0x80, 2⟩, [], rfl, rfl, .cons ⟨rfl, by decide⟩ .nil, rfl⟩⟩
theorem test_witness_WriteStops :
    let s := polling [⟨0, ⟨.byte 0, 99⟩, [⟨.byte 0, 100⟩]⟩]
    s.ctl.life = .ready ∧ sending.ctl.txbusy = true ∧ s.ctl.txbusy = false ∧ s.p.maxPayload < (64 : Byte).toNat ∧
    [(1 : Byte)].length < (2 : Byte).toNat ∧ 0 < [(1 : Byte)].length ∧ [(1 : Byte)].length ≤ s.p.maxPayload ∧
    BusRun s.p s.env [.xwrite s.p.xr.opmode (s.p.opmodeBase ||| 2)] s.env ∧
    PollMisses s.p s.p.xr.irqflags1 (fun v => v &&& s.p.modereadyMask != 0) 100 s.env [.byte 0, .byte 0]
      { s.env with polls := [] } :=
  ⟨rfl, rfl, rfl, by decide, by decide, by decide, by decide, rfl,
    ⟨[⟨.byte 0, 99⟩], ⟨.byte 0, 100⟩, [], rfl, rfl, .cons ⟨rfl, by decide⟩ .nil, rfl, .inl (by decide)⟩⟩
theorem test_witness_PollDecides :
    let s := polling [⟨0, ⟨.error, 1⟩, [⟨.byte 0x80, 2⟩]⟩]
    let u := polling [⟨0, ⟨.error, 1⟩, [⟨.byte 0, 2⟩]⟩]
    PollSees s.p s.p.xr.irqflags1 (fun v => v &&& 0x80 != 0) 100 s.env [.error, .byte 0x80] { s.env with polls := [] } ∧
    PollMisses u.p u.p.xr.irqflags1 (fun v => v &&& 0x80 != 0) 100 u.env [.error, .byte 0] { u.env with polls := [] } :=
  ⟨⟨[⟨.error, 1⟩], ⟨.byte 0x80, 2⟩, [], rfl, rfl, .cons ⟨rfl, by decide⟩ .nil, rfl⟩,
    ⟨[⟨.error, 1⟩], ⟨.byte 0, 2⟩, [], rfl, rfl, .cons ⟨rfl, by decide⟩ .nil, rfl, .inr rfl⟩⟩
theorem test_witness_TelemetryResults :
    running.ctl.life = .ready ∧ running.rx.valid = false ∧ pending.ctl.life = .ready ∧ pending.rx.valid = true := by decide
theorem test_witness_EvBgResult :
    BusHealthy running ∧ running.ctl.life = .ready ∧ running.tmr.bgArmed = true := by unfold BusHealthy; decide
theorem test_witness_SmoothingRange :
    2240 ≤ (2240 : BitVec 12).toNat ∧ (3215 : BitVec 12).toNat ≤ 3215 ∧ plausible 140 = true ∧ plausible 200 = true := by
  decide
theorem test_witness_MemoryLaws :
    Memory.wf [(0, 7), (127, 1)] = true ∧ Memory.wf (memWrite [(0, 7)] 127 1) = true ∧
    ∀ a, memRead [(0, 7), (127, 1)] a = memRead (memWrite [(0, 7)] 127 1) a := ⟨by decide, by decide, fun _ => rfl⟩
theorem test_witness_CommandAnsweredOnce :
    isCommand (.recv false 0 true 6) = true ∧ isCommand (.cfgReserved 0x0200 []) = true ∧
    isCommand (.fifoframe [1]) = true ∧ BusHealthy pending ∧ initTableOk pending.p = true ∧ fifoApart pending.p = true := by
  unfold BusHealthy; decide
theorem test_witness_EventsBounded :
    (Instr.evSafety guarded.tmr.safetyHandle).format = .event ∧ BusHealthy guarded ∧ fifoApart guarded.p = true := by unfold BusHealthy; decide

/-- The state after P1 meets the invariants, with a timer pending too. -/
theorem test_inv_guarded : Inv guarded where
  lifecycle := by unfold LifecycleInv; decide
  mode := by unfold ModeInv; decide
  tracker := by unfold TrackerInv; decide
  handle := by unfold HandleInv; decide
  config := by unfold ConfigInv CfgRegs.Legal; decide
  memory := by intro x h; cases h
theorem test_witness_StepKeepsInvariants :
    let s := { guarded with inbox := [.frame .hostCommand [0x29, 6]] }
    ParamsOk s ∧ Inv s ∧ step s = .next (State.emit
      { guarded with codec := { guarded.codec with sy := ⟨0xAA, 0x2D, 6, 0xC0⟩ } } (.respond (.ok [0xAA, 0x2D, 6, 0xC0]))) :=
  ⟨test_params_wf, ⟨test_inv_guarded.lifecycle, test_inv_guarded.mode, test_inv_guarded.tracker, test_inv_guarded.handle,
    test_inv_guarded.config, test_inv_guarded.memory⟩, rfl⟩

end Sys2Proof.Tests
end

section
/-! PROOFS. 10_state.md: the two status bytes (R38) and the state after reset (R48). -/

namespace Sys2Proof.Machine

/-! ### Fields of a status byte -/

/-- A field above the bits in use is added at its weight. -/
theorem or_shiftLeft_toNat {x : Byte} {n : Nat} (y : Byte) (k : Nat) (hx : x.toNat = n) (hn : n < 2 ^ k)
    (hy : 2 ^ k * y.toNat < 256) : (x ||| y <<< k).toNat = n + 2 ^ k * y.toNat := by
  subst hx
  have hshift : (y <<< k).toNat = 2 ^ k * y.toNat := by
    rw [BitVec.toNat_shiftLeft, Nat.shiftLeft_eq, Nat.mul_comm, Nat.mod_eq_of_lt hy]
  rw [BitVec.toNat_or, hshift, Nat.or_comm, ← Nat.two_pow_add_eq_or_of_lt hn, Nat.add_comm]

theorem flagByte_toNat (b : Bool) : (flagByte b).toNat = b.toNat := by cases b <;> rfl

/-- A flag above the bits in use is added at its weight. -/
theorem or_flagBit_toNat {x : Byte} {n : Nat} (b : Bool) (k : Nat) (hx : x.toNat = n) (hn : n < 2 ^ k)
    (hk : k < 8) : (x ||| flagBit b k).toNat = n + 2 ^ k * b.toNat := by
  have hfit : 2 ^ k * (flagByte b).toNat < 256 := calc
    2 ^ k * (flagByte b).toNat ≤ 2 ^ k * 1 := Nat.mul_le_mul_left _ (flagByte_toNat b ▸ Bool.toNat_le b)
    _ < 2 ^ 8 := by rw [Nat.mul_one]; exact Nat.pow_lt_pow_right (by decide) hk
  rw [flagBit, or_shiftLeft_toNat _ k hx hn hfit, flagByte_toNat]

theorem flagBit_zero_toNat (b : Bool) : (flagBit b 0).toNat = b.toNat := by cases b <;> rfl

theorem lifeCode_toNat (l : Life) :
    (lifeCode l).toNat = match l with | .uninit => 0 | .ready => 1 | .failed => 2 | .closed => 3 := by
  cases l <;> rfl

theorem modeCode_toNat (m : Mode) :
    (modeCode m).toNat = match m with
      | .sleep => 0 | .standby => 1 | .fstx => 2 | .transmit => 3 | .fsrx => 4 | .receive => 5 := by
  cases m <;> rfl

theorem lifeCode_lt (l : Life) : (lifeCode l).toNat < 4 := by cases l <;> decide

theorem modeCode_lt (m : Mode) : (modeCode m).toNat < 6 := by cases m <;> decide

/-! ### The status bytes -/

theorem status0_toNat (s : State) : (status0 s).toNat =
    (lifeCode s.ctl.life).toNat + 4 * (modeCode s.ctl.mode).toNat + 32 * s.ctl.txbusy.toNat + 64 * s.ctl.rxPend.toNat +
      128 * s.tmr.safetyArmed.toNat := by
  have hlife := lifeCode_lt s.ctl.life
  have hmode := modeCode_lt s.ctl.mode
  have htx := Bool.toNat_le s.ctl.txbusy
  have hrx := Bool.toNat_le s.ctl.rxPend
  have upToMode := or_shiftLeft_toNat (modeCode s.ctl.mode) 2 rfl hlife (by omega)
  have upToTx := or_flagBit_toNat s.ctl.txbusy 5 upToMode (by omega) (by decide)
  have upToRx := or_flagBit_toNat s.ctl.rxPend 6 upToTx (by omega) (by decide)
  exact or_flagBit_toNat s.tmr.safetyArmed 7 upToRx (by omega) (by decide)

theorem status1_toNat (s : State) : (status1 s).toNat =
    s.tmr.bgArmed.toNat + 2 * s.tmr.dioEn.toNat + 4 * s.rx.valid.toNat + 8 * s.trk.lastAfcV.toNat +
      16 * (rxContinuous s).toNat + 32 * (fixedLength s).toNat := by
  have hbg := Bool.toNat_le s.tmr.bgArmed
  have hdio := Bool.toNat_le s.tmr.dioEn
  have hvalid := Bool.toNat_le s.rx.valid
  have hafc := Bool.toNat_le s.trk.lastAfcV
  have hcont := Bool.toNat_le (rxContinuous s)
  have upToDio := or_flagBit_toNat s.tmr.dioEn 1 (flagBit_zero_toNat s.tmr.bgArmed) (by omega) (by decide)
  have upToValid := or_flagBit_toNat s.rx.valid 2 upToDio (by omega) (by decide)
  have upToAfc := or_flagBit_toNat s.trk.lastAfcV 3 upToValid (by omega) (by decide)
  have upToCont := or_flagBit_toNat (rxContinuous s) 4 upToAfc (by omega) (by decide)
  exact or_flagBit_toNat (fixedLength s) 5 upToCont (by omega) (by decide)

/-- STATUS is admitted in every LIFE state, reads the two bytes and answers them. -/
theorem exec_status (s : State) : exec .status s = .next (s.emit (.respond (.ok [status0 s, status1 s]))) := by
  show execStatus s = _
  exact command_ok (by simp)

/-- Settles O51: the fields of each byte lie side by side, so the OR that packs them is their weighted sum. -/
theorem statusBytes : Obligations.StatusBytes := by
  unfold Obligations.StatusBytes
  intro s
  refine ⟨status0 s, status1 s, exec_status s, ?_, ?_⟩
  · have hbyte := status0_toNat s
    rw [lifeCode_toNat, modeCode_toNat] at hbyte
    exact hbyte
  · exact status1_toNat s

/-! ### The state after reset -/

/-- No configuration register holds a value after reset, so the legal ranges hold of none. -/
theorem CfgRegs.legal_reset : CfgRegs.reset.Legal := by simp [CfgRegs.Legal, CfgRegs.reset]

/-- Settles O59: LIFE is UNINIT with every activity flag 0, so the lifecycle invariant holds and the tracker's asks nothing;
MODE is SLEEP, no timer is pending, no configuration register is valid, and no reference transceiver is attached. -/
theorem resetMeetsInvariants : Obligations.ResetMeetsInvariants where
  lifecycle := by simp [LifecycleInv, Ctl.reset, Timers.reset]
  mode := by simp [ModeInv, Ctl.reset]
  tracker := by simp [TrackerInv, Ctl.reset]
  handle := by simp [HandleInv, Timers.reset]
  config := CfgRegs.legal_reset
  memory := by simp [MemoryInv, Env.reset]

/-- Settles O60: each claimed register is read from the reset value of its part of the state. -/
theorem resetValues : Obligations.ResetValues := by
  unfold Obligations.ResetValues
  simp [Ctl.reset, Timers.reset, RxMeta.reset, Tracker.reset, CfgRegs.reset, Codec.reset]

end Sys2Proof.Machine
end

section
/-! PROOFS. 20_memory.md: the register memory of the reference transceiver (R76, log 22). -/

namespace Sys2Proof.Machine

/-! ### The canonical form, entry by entry -/

/-- What the canonical form says of the first entry and of the rest. -/
theorem Memory.wf_cons (b : Nat) (w : Byte) (m : Memory) : Memory.wf ((b, w) :: m) = true ↔
    b < 128 ∧ w ≠ memDefault ∧ memAbove b m = true ∧ Memory.wf m = true := by
  simp [Memory.wf, and_assoc]

theorem memRead_cons_self (b : Nat) (w : Byte) (m : Memory) : memRead ((b, w) :: m) b = w := by simp [memRead]

theorem memRead_cons_of_ne {a b : Nat} (w : Byte) (m : Memory) (h : b ≠ a) :
    memRead ((b, w) :: m) a = memRead m a := by simp [memRead, h]

/-- The first entry holds the lowest address that does not read as the default. -/
theorem head_le_of_memRead_ne {a b : Nat} {w : Byte} {m : Memory} (hwf : Memory.wf ((b, w) :: m) = true)
    (hread : memRead ((b, w) :: m) a ≠ memDefault) : b ≤ a := by
  obtain ⟨_, _, habove, _⟩ := (Memory.wf_cons b w m).mp hwf
  by_contra hlt
  rw [memRead_cons_of_ne w m (by omega)] at hread
  exact hread (memRead_above m b habove a (by omega))

/-- A canonical memory with an entry reads other than the empty one. -/
theorem memRead_head_ne {b : Nat} {w : Byte} {m : Memory} (hwf : Memory.wf ((b, w) :: m) = true) :
    memRead ((b, w) :: m) b ≠ memDefault := by
  obtain ⟨_, hw, _, _⟩ := (Memory.wf_cons b w m).mp hwf
  rwa [memRead_cons_self]

/-! ### Extensionality -/

/-- Canonical memories that read alike have their first entry at the same address: no head is above an address the
other memory lists. -/
theorem head_eq_of_memRead_eq {b c : Nat} {w v : Byte} {m n : Memory} (hm : Memory.wf ((b, w) :: m) = true)
    (hn : Memory.wf ((c, v) :: n) = true) (h : ∀ a, memRead ((b, w) :: m) a = memRead ((c, v) :: n) a) : b = c :=
  Nat.le_antisymm (head_le_of_memRead_ne hm (h c ▸ memRead_head_ne hn))
    (head_le_of_memRead_ne hn (h b ▸ memRead_head_ne hm))

/-- Under heads at one address, memories that read alike have rests that read alike: up to that address the rests list
nothing, above it the heads are not read. -/
theorem memRead_tail_eq {b : Nat} {w v : Byte} {m n : Memory} (hm : memAbove b m = true) (hn : memAbove b n = true)
    (h : ∀ a, memRead ((b, w) :: m) a = memRead ((b, v) :: n) a) (a : Nat) : memRead m a = memRead n a := by
  rcases Nat.lt_or_ge b a with hlt | hge
  · have hba : b ≠ a := Nat.ne_of_lt hlt
    rw [← memRead_cons_of_ne w m hba, h a, memRead_cons_of_ne v n hba]
  · rw [memRead_above m b hm a hge, memRead_above n b hn a hge]

/-- Canonical memories that read alike at every address are equal. -/
theorem Memory.ext_of_wf (m n : Memory) (hm : Memory.wf m = true) (hn : Memory.wf n = true)
    (h : ∀ a, memRead m a = memRead n a) : m = n := by
  induction m generalizing n with
  | nil =>
    cases n with
    | nil => rfl
    | cons d n => exact absurd (h d.1).symm (memRead_head_ne hn)
  | cons c m ih =>
    cases n with
    | nil => exact absurd (h c.1) (memRead_head_ne hm)
    | cons d n =>
      obtain ⟨b, w⟩ := c
      obtain ⟨b', v⟩ := d
      obtain rfl : b = b' := head_eq_of_memRead_eq hm hn h
      obtain rfl : w = v := by simpa only [memRead_cons_self] using h b
      obtain ⟨_, _, hmAbove, hmRest⟩ := (Memory.wf_cons b w m).mp hm
      obtain ⟨_, _, hnAbove, hnRest⟩ := (Memory.wf_cons b w n).mp hn
      rw [ih n hmRest hnRest (memRead_tail_eq hmAbove hnAbove h)]

/-- Settles O55: read after write and the kept form are the memory's laws; equal reads fix the entries one by one, since the
first entry is at the lowest address that does not read as the default. -/
theorem memoryLaws : Obligations.MemoryLaws := by
  unfold Obligations.MemoryLaws
  exact ⟨fun m a b v hm => memRead_memWrite m hm a v b, fun m a v hm => wf_memWrite m hm a.toNat a.isLt v,
    Memory.ext_of_wf⟩

end Sys2Proof.Machine
end

section
/-! PROOFS. 30_encoding.md: the decoder and the encoder undo each other on every format (R90 to R109). -/

namespace Sys2Proof

open Sys2Proof.Laws

/-! ### Sequencing of the decoder -/

theorem dec_map_eq_ok {α β : Type} {f : α → β} {x : Dec α} {b : β} :
    Except.map f x = .ok b ↔ ∃ a, x = .ok a ∧ f a = b := by
  cases x <;> simp [Except.map]

theorem dec_bind_eq_ok {α β : Type} {x : Dec α} {f : α → Dec β} {b : β} :
    (x >>= f) = .ok b ↔ ∃ a, x = .ok a ∧ f a = .ok b := by
  cases x <;> simp [bind, Except.bind]

/-! ### Operands: what each reader accepts, and the bytes it accepts -/

theorem flagOf_eq_ok {b : Byte} {x : Bool} : flagOf b = .ok x ↔ b = flagByte x := by
  unfold flagOf
  split
  · next h => subst h; cases x <;> decide
  · next h0 =>
    split
    · next h => subst h; cases x <;> decide
    · next h1 => cases x <;> simpa [flagByte]

theorem toNat_eq_iff_ofNat {n : Byte} {k : Nat} : n.toNat = k ↔ k ≤ bufMax ∧ n = BitVec.ofNat 8 k := by
  unfold bufMax
  constructor
  · rintro rfl
    exact ⟨by omega, by simp⟩
  · rintro ⟨hk, rfl⟩
    simp; omega

theorem bufferOf_eq_ok {bs b : List Byte} : bufferOf bs = .ok b ↔ bufOk b = true ∧ bs = bufferBytes b := by
  cases bs with
  | nil => simp [bufferOf, bufferBytes]
  | cons n bs =>
    simp only [bufferOf, bufferBytes, bufOk, decide_eq_true_eq, List.cons.injEq, toNat_eq_iff_ofNat]
    constructor
    · intro h
      split at h
      · next hn => cases h; exact ⟨hn.1, hn.2, rfl⟩
      · cases h
    · rintro ⟨hb, hn, rfl⟩
      rw [if_pos ⟨hb, hn⟩]

theorem noMore_eq_ok {α : Type} {a x : α} {bs : List Byte} : noMore a bs = .ok x ↔ x = a ∧ bs = [] := by
  cases bs <;> simp [noMore, eq_comm]

/-! ### Byte order -/

theorem byteOf_append {w : Nat} (hi : Byte) (lo : BitVec w) (k : Nat) (hk : 8 * k = w) : byteOf (hi ++ lo) k = hi := by
  apply BitVec.eq_of_getLsbD_eq
  intro i hi
  simp [byteOf, BitVec.getLsbD_append, hi, hk]

theorem byteOf_append_low {w : Nat} (hi : Byte) (lo : BitVec w) (k : Nat) (hk : 8 * k + 8 ≤ w) :
    byteOf (hi ++ lo) k = byteOf lo k := by
  apply BitVec.eq_of_getLsbD_eq
  intro i hi
  simp [byteOf, BitVec.getLsbD_append, hi, show 8 * k + i < w by omega]

theorem u32_assoc (a b c d : Byte) : u32 a b c d = a ++ (b ++ (c ++ d : BitVec 16) : BitVec 24) := by
  rw [u32, BitVec.append_assoc, BitVec.append_assoc]
  rfl

theorem bytes16_u16 (a b : Byte) : bytes16 (u16 a b) = [a, b] := by
  have hlow : byteOf b 0 = b := by simp [byteOf]
  simp only [bytes16, u16]
  rw [byteOf_append a b 1 rfl, byteOf_append_low a b 0 (by decide), hlow]

theorem bytes32_u32 (a b c d : Byte) : bytes32 (u32 a b c d) = [a, b, c, d] := by
  have hlow : bytes16 (c ++ d) = [c, d] := bytes16_u16 c d
  simp only [bytes16, List.cons.injEq, and_true] at hlow
  rw [u32_assoc]
  simp only [bytes32]
  rw [byteOf_append a _ 3 rfl, byteOf_append_low a _ 2 (by decide), byteOf_append_low a _ 1 (by decide),
    byteOf_append_low a _ 0 (by decide), byteOf_append b _ 2 rfl, byteOf_append_low b _ 1 (by decide),
    byteOf_append_low b _ 0 (by decide), hlow.1, hlow.2]

theorem u32_byteOf (v : U32) : u32 (byteOf v 3) (byteOf v 2) (byteOf v 1) (byteOf v 0) = v := by
  apply BitVec.eq_of_getLsbD_eq
  intro i hi
  simp only [u32, byteOf, BitVec.getLsbD_append, BitVec.getLsbD_extractLsb']
  split
  · next h => simp [h]
  · split
    · next h h' => simp [h', show 8 + (i - 8) = i by omega]
    · split
      · next h h' h'' => simp [h'', show 16 + (i - 8 - 8) = i by omega]
      · next h h' h'' => simp [show i - 8 - 8 - 8 < 8 by omega, show 24 + (i - 8 - 8 - 8) = i by omega]

theorem u16_eq_iff {a b : Byte} {v : U16} : u16 a b = v ↔ [a, b] = bytes16 v := by
  constructor
  · rintro rfl; rw [bytes16_u16]
  · intro h
    simp only [bytes16, List.cons.injEq, and_true] at h
    rw [h.1, h.2, u16_byteOf]

theorem u32_eq_iff {a b c d : Byte} {v : U32} : u32 a b c d = v ↔ [a, b, c, d] = bytes32 v := by
  constructor
  · rintro rfl; rw [bytes32_u32]
  · intro h
    simp only [bytes32, List.cons.injEq, and_true] at h
    obtain ⟨rfl, rfl, rfl, rfl⟩ := h
    exact u32_byteOf v

/-! ### Fields of a configuration body -/

/-- A reader of a field takes exactly the bytes its writer puts, from the front, for the values that have an encoding. -/
def Reads {α : Type} (take : List Byte → Dec (α × List Byte)) (fits : α → Prop) (put : α → List Byte) : Prop :=
  ∀ bs a r, take bs = .ok (a, r) ↔ fits a ∧ bs = put a ++ r

/-! The readers of the fields R105 lists. -/

theorem takeU32_reads : Reads takeU32 (fun _ => True) bytes32 := by
  intro bs v r
  unfold takeU32
  split
  · next a b c d r' =>
    simp only [Except.ok.injEq, Prod.mk.injEq, u32_eq_iff, true_and]
    simp [bytes32, and_assoc]
  · next hne =>
    simp only [reduceCtorEq, true_and, false_iff]
    exact fun h => hne _ _ _ _ _ h

theorem takeU16_reads : Reads takeU16 (fun _ => True) bytes16 := by
  intro bs v r
  unfold takeU16
  split
  · next a b r' =>
    simp only [Except.ok.injEq, Prod.mk.injEq, u16_eq_iff, true_and]
    simp [bytes16, and_assoc]
  · next hne =>
    simp only [reduceCtorEq, true_and, false_iff]
    exact fun h => hne _ _ _ h

theorem takeCounted_reads : Reads takeCounted (fun b => bufOk b = true) bufferBytes := by
  intro bs b r
  cases bs with
  | nil => simp [takeCounted, bufferBytes]
  | cons n bs =>
    simp only [takeCounted, bufferBytes, bufOk, decide_eq_true_eq, List.cons_append, List.cons.injEq]
    rw [← and_assoc, ← toNat_eq_iff_ofNat]
    constructor
    · intro h
      split at h
      · next hn =>
        cases h
        exact ⟨by simp [hn], (List.take_append_drop _ _).symm⟩
      · cases h
    · rintro ⟨hn, rfl⟩
      simp [hn]

theorem takePktlen_reads : Reads takePktlen (fun _ => True) (fun x => [flagByte x.1, x.2]) := by
  intro bs x r
  obtain ⟨f, l⟩ := x
  unfold takePktlen
  split
  · next f' l' r' => cases f <;> simp [dec_map_eq_ok, flagOf_eq_ok]
  · next hne =>
    simp only [reduceCtorEq, true_and, false_iff]
    exact fun h => hne _ _ _ h

theorem takeFlag_reads : Reads takeFlag (fun _ => True) (fun x => [flagByte x]) := by
  intro bs x r
  cases bs with
  | nil => simp [takeFlag]
  | cons f bs => cases x <;> simp [takeFlag, dec_map_eq_ok, flagOf_eq_ok]

/-- An option's field is read exactly where its mask bit is set. -/
theorem optField_eq_ok {α : Type} {take : List Byte → Dec (α × List Byte)} {fits : α → Prop} {put : α → List Byte}
    (h : Reads take fits put) {present : Bool} {bs r : List Byte} {o : Option α} :
    optField present take bs = .ok (o, r) ↔
      present = o.isSome ∧ (∀ a, o = some a → fits a) ∧ bs = fieldBytes put o ++ r := by
  unfold optField
  cases present <;> cases o with
  | none => simp [fieldBytes, dec_map_eq_ok]
  | some a => simp [fieldBytes, dec_map_eq_ok, h _ _ _]

/-- The bytes of a body after its mask (R105). -/
def cfgFields (c : CfgBody) : List Byte :=
  fieldBytes bytes32 c.freq ++ (fieldBytes bytes32 c.bitrate ++ (fieldBytes bytes32 c.fdev ++
  (fieldBytes bytes32 c.rxbw ++ (fieldBytes bytes32 c.afcbw ++ (fieldBytes bytes16 c.preamble ++
  (fieldBytes bufferBytes c.sync ++ (fieldBytes (fun x => [flagByte x.1, x.2]) c.pktlen ++
  fieldBytes (fun x => [flagByte x]) c.rxcont)))))))

theorem cfgBytes_eq (c : CfgBody) : cfgBytes c = bytes16 (cfgMask c) ++ cfgFields c := by
  simp only [cfgBytes, cfgFields, List.append_assoc]

theorem CfgBody.wf_iff (c : CfgBody) : c.wf = true ↔ ∀ s, c.sync = some s → bufOk s = true := by
  unfold CfgBody.wf
  cases c.sync <;> simp

/-- Each of the nine option bits of a mask says whether the body holds the option (R105). -/
def MaskShows (m : U16) (c : CfgBody) : Prop :=
  m.getLsbD 0 = c.freq.isSome ∧ m.getLsbD 1 = c.bitrate.isSome ∧ m.getLsbD 2 = c.fdev.isSome ∧
  m.getLsbD 3 = c.rxbw.isSome ∧ m.getLsbD 4 = c.afcbw.isSome ∧ m.getLsbD 5 = c.preamble.isSome ∧
  m.getLsbD 6 = c.sync.isSome ∧ m.getLsbD 7 = c.pktlen.isSome ∧ m.getLsbD 8 = c.rxcont.isSome

theorem cfgFieldsOf_eq_ok {m : U16} {bs : List Byte} {c : CfgBody} :
    cfgFieldsOf m bs = .ok c ↔ c.wf = true ∧ MaskShows m c ∧ bs = cfgFields c := by
  unfold cfgFieldsOf
  simp only [dec_bind_eq_ok, Prod.exists, noMore_eq_ok, optField_eq_ok takeU32_reads, optField_eq_ok takeU16_reads,
    optField_eq_ok takeCounted_reads, optField_eq_ok takePktlen_reads, optField_eq_ok takeFlag_reads, CfgBody.wf_iff]
  constructor
  · rintro ⟨_, _, ⟨h0, -, rfl⟩, _, _, ⟨h1, -, rfl⟩, _, _, ⟨h2, -, rfl⟩, _, _, ⟨h3, -, rfl⟩, _, _,
      ⟨h4, -, rfl⟩, _, _, ⟨h5, -, rfl⟩, _, _, ⟨h6, hs, rfl⟩, _, _, ⟨h7, -, rfl⟩, _, _, ⟨h8, -, rfl⟩, rfl, rfl⟩
    exact ⟨hs, ⟨h0, h1, h2, h3, h4, h5, h6, h7, h8⟩, by simp [cfgFields]⟩
  · rintro ⟨hs, ⟨h0, h1, h2, h3, h4, h5, h6, h7, h8⟩, rfl⟩
    have fits {α : Type} {o : Option α} : ∀ a, o = some a → True := fun _ _ => trivial
    exact ⟨_, _, ⟨h0, fits, rfl⟩, _, _, ⟨h1, fits, rfl⟩, _, _, ⟨h2, fits, rfl⟩, _, _, ⟨h3, fits, rfl⟩,
      _, _, ⟨h4, fits, rfl⟩, _, _, ⟨h5, fits, rfl⟩, _, _, ⟨h6, hs, rfl⟩, _, _, ⟨h7, fits, rfl⟩,
      _, _, ⟨h8, fits, (List.append_nil _).symm⟩, rfl, rfl⟩

theorem cfgMask_shows (c : CfgBody) : cfgMask c &&& 0xFE00 = 0 ∧ MaskShows (cfgMask c) c := by
  unfold cfgMask MaskShows
  generalize c.freq.isSome = b0, c.bitrate.isSome = b1, c.fdev.isSome = b2, c.rxbw.isSome = b3, c.afcbw.isSome = b4,
    c.preamble.isSome = b5, c.sync.isSome = b6, c.pktlen.isSome = b7, c.rxcont.isSome = b8
  revert b0 b1 b2 b3 b4 b5 b6 b7 b8
  decide

/-- Bits 15:9 of a mask without reserved bits are clear. -/
theorem getLsbD_high_of_unreserved {m : U16} (h : m &&& 0xFE00 = 0) {i : Nat} (hi : 9 ≤ i) (hi' : i < 16) :
    m.getLsbD i = false := by
  have hset : (0xFE00 : U16).getLsbD i = true := by interval_cases i <;> rfl
  have hbit : (m &&& 0xFE00).getLsbD i = false := by rw [h]; exact BitVec.getLsbD_zero
  rwa [BitVec.getLsbD_and, hset, Bool.and_true] at hbit

/-- The nine option bits and the seven reserved ones fix a mask. -/
theorem eq_of_maskShows {m n : U16} {c : CfgBody} (hm : m &&& 0xFE00 = 0) (hn : n &&& 0xFE00 = 0) (h : MaskShows m c)
    (h' : MaskShows n c) : m = n := by
  obtain ⟨h0, h1, h2, h3, h4, h5, h6, h7, h8⟩ := h
  obtain ⟨h0', h1', h2', h3', h4', h5', h6', h7', h8'⟩ := h'
  apply BitVec.eq_of_getLsbD_eq
  intro i hi
  obtain hlow | hhigh := Nat.lt_or_ge i 9
  · interval_cases i
    · rw [h0, h0']
    · rw [h1, h1']
    · rw [h2, h2']
    · rw [h3, h3']
    · rw [h4, h4']
    · rw [h5, h5']
    · rw [h6, h6']
    · rw [h7, h7']
    · rw [h8, h8']
  · rw [getLsbD_high_of_unreserved hm hhigh hi, getLsbD_high_of_unreserved hn hhigh hi]

theorem maskShows_iff {m : U16} {c : CfgBody} : m &&& 0xFE00 = 0 ∧ MaskShows m c ↔ m = cfgMask c := by
  obtain ⟨hres, hshows⟩ := cfgMask_shows c
  exact ⟨fun h => eq_of_maskShows h.1 hres h.2 hshows, fun h => h ▸ ⟨hres, hshows⟩⟩

theorem cfgBodyOf_eq_ok {bs : List Byte} {c : CfgBody} : cfgBodyOf bs = .ok c ↔ c.wf = true ∧ bs = cfgBytes c := by
  have hread : ∀ (hi lo : Byte) (r : List Byte),
      hi :: lo :: r = cfgBytes c ↔ u16 hi lo = cfgMask c ∧ r = cfgFields c := by
    intro hi lo r
    rw [cfgBytes_eq, u16_eq_iff]
    simp [bytes16, and_assoc]
  unfold cfgBodyOf
  split
  · next hi lo r =>
    rw [hread, ← maskShows_iff]
    split
    · next hm => rw [cfgFieldsOf_eq_ok, and_iff_right hm]
    · next hm =>
      simp only [reduceCtorEq, false_iff]
      exact fun ⟨_, ⟨hm', _⟩, _⟩ => hm hm'
  · next hne =>
    simp only [reduceCtorEq, false_iff, not_and]
    exact fun _ h => hne _ _ _ (h.trans (cfgBytes_eq c))

/-! ### Host commands -/

/-- What the decoder must answer for a frame on a port: the well-formed instruction of that port whose encoding it is. -/
def Encodes (f : Format) (i : Instr) (bs : List Byte) : Prop := i.wf = true ∧ i.format = f ∧ encode i = bs

theorem flagOf_flagByte (b : Bool) : flagOf (flagByte b) = .ok b := flagOf_eq_ok.2 rfl

theorem bufferOf_bufferBytes {b : List Byte} (h : bufOk b = true) : bufferOf (bufferBytes b) = .ok b :=
  bufferOf_eq_ok.2 ⟨h, rfl⟩

theorem cfgBodyOf_cfgBytes {c : CfgBody} (h : c.wf = true) : cfgBodyOf (cfgBytes c) = .ok c :=
  cfgBodyOf_eq_ok.2 ⟨h, rfl⟩

theorem hostOf_of_encodes {i : Instr} {op : Byte} {bs : List Byte} (h : Encodes .hostCommand i (op :: bs)) :
    hostOf op bs = .ok i := by
  obtain ⟨hw, hf, he⟩ := h
  cases i with
  | init c => cases he; exact dec_map_eq_ok.2 ⟨c, cfgBodyOf_cfgBytes hw, rfl⟩
  | configure c => cases he; exact dec_map_eq_ok.2 ⟨c, cfgBodyOf_cfgBytes hw, rfl⟩
  | write h size b =>
    cases he
    exact dec_bind_eq_ok.2 ⟨h, flagOf_flagByte h, dec_bind_eq_ok.2 ⟨b, bufferOf_bufferBytes hw, rfl⟩⟩
  | read h cap => cases he; exact dec_bind_eq_ok.2 ⟨h, flagOf_flagByte h, rfl⟩
  | recv h cap c group =>
    cases he
    exact dec_bind_eq_ok.2 ⟨h, flagOf_flagByte h, dec_bind_eq_ok.2 ⟨c, flagOf_flagByte c, rfl⟩⟩
  | vdec1 b => cases he; exact dec_map_eq_ok.2 ⟨b, bufferOf_bufferBytes hw, rfl⟩
  | vdecall b => cases he; exact dec_map_eq_ok.2 ⟨b, bufferOf_bufferBytes hw, rfl⟩
  | venc v => cases he; exact congrArg (fun v => Except.ok (Instr.venc v)) (u32_byteOf v)
  | pdec c group b =>
    cases he
    exact dec_bind_eq_ok.2 ⟨c, flagOf_flagByte c, dec_bind_eq_ok.2 ⟨b, bufferOf_bufferBytes hw, rfl⟩⟩
  | close | rxrssi | rxlna | rxafc | rxmargin | status | gensync | parchk => cases he; rfl
  | _ => cases hf

theorem encodes_of_hostOf {i : Instr} {op : Byte} {bs : List Byte} (h : hostOf op bs = .ok i) :
    Encodes .hostCommand i (op :: bs) := by
  have code : ∀ n : Byte, op.toNat = n.toNat → op = n := fun _ => BitVec.eq_of_toNat_eq
  unfold hostOf at h
  split at h
  case h_1 hop =>
    obtain ⟨c, hc, rfl⟩ := dec_map_eq_ok.1 h
    obtain ⟨hw, rfl⟩ := cfgBodyOf_eq_ok.1 hc
    exact ⟨hw, rfl, congrArg (· :: _) (code opInit hop).symm⟩
  case h_2 hop =>
    obtain ⟨c, hc, rfl⟩ := dec_map_eq_ok.1 h
    obtain ⟨hw, rfl⟩ := cfgBodyOf_eq_ok.1 hc
    exact ⟨hw, rfl, congrArg (· :: _) (code opConfigure hop).symm⟩
  case h_3 hop =>
    split at h
    · obtain ⟨f, hf, h⟩ := dec_bind_eq_ok.1 h
      obtain ⟨b, hb, h⟩ := dec_bind_eq_ok.1 h
      cases h
      obtain ⟨hw, rfl⟩ := bufferOf_eq_ok.1 hb
      exact ⟨hw, rfl, by rw [code opWrite hop, flagOf_eq_ok.1 hf]; rfl⟩
    · cases h
  case h_4 hop =>
    split at h
    · obtain ⟨f, hf, h⟩ := dec_bind_eq_ok.1 h
      cases h
      exact ⟨rfl, rfl, by rw [code opRead hop, flagOf_eq_ok.1 hf]; rfl⟩
    · cases h
  case h_6 hop =>
    split at h
    · obtain ⟨f, hf, h⟩ := dec_bind_eq_ok.1 h
      obtain ⟨c, hc, h⟩ := dec_bind_eq_ok.1 h
      cases h
      exact ⟨rfl, rfl, by rw [code opRecv hop, flagOf_eq_ok.1 hf, flagOf_eq_ok.1 hc]; rfl⟩
    · cases h
  case h_12 hop =>
    obtain ⟨b, hb, rfl⟩ := dec_map_eq_ok.1 h
    obtain ⟨hw, rfl⟩ := bufferOf_eq_ok.1 hb
    exact ⟨hw, rfl, congrArg (· :: _) (code opVdec1 hop).symm⟩
  case h_13 hop =>
    obtain ⟨b, hb, rfl⟩ := dec_map_eq_ok.1 h
    obtain ⟨hw, rfl⟩ := bufferOf_eq_ok.1 hb
    exact ⟨hw, rfl, congrArg (· :: _) (code opVdecall hop).symm⟩
  case h_14 hop =>
    split at h
    · cases h
      exact ⟨rfl, rfl, by rw [code opVenc hop]; exact congrArg (_ :: ·) (bytes32_u32 ..)⟩
    · cases h
  case h_15 hop =>
    split at h
    · obtain ⟨c, hc, h⟩ := dec_bind_eq_ok.1 h
      obtain ⟨b, hb, h⟩ := dec_bind_eq_ok.1 h
      cases h
      obtain ⟨hw, rfl⟩ := bufferOf_eq_ok.1 hb
      exact ⟨hw, rfl, by rw [code opPdec hop, flagOf_eq_ok.1 hc]; rfl⟩
    · cases h
  case h_16 hop =>
    split at h
    · cases h; exact ⟨rfl, rfl, by rw [code opGensync hop]; rfl⟩
    · cases h
  case h_17 hop =>
    split at h
    · cases h; exact ⟨rfl, rfl, by rw [code opParchk hop]; rfl⟩
    · cases h
  case h_18 => cases h
  case' h_5 hop => have hcode := code opClose hop
  case' h_7 hop => have hcode := code opRxrssi hop
  case' h_8 hop => have hcode := code opRxlna hop
  case' h_9 hop => have hcode := code opRxafc hop
  case' h_10 hop => have hcode := code opRxmargin hop
  case' h_11 hop => have hcode := code opStatus hop
  all_goals
    obtain ⟨rfl, rfl⟩ := noMore_eq_ok.1 h
    exact ⟨rfl, rfl, congrArg (· :: _) hcode.symm⟩

/-! ### Options given alone -/

theorem encodes_of_onlyOption {c : CfgBody} {i : Instr} (hw : c.wf = true) (h : onlyOption c = .ok i) :
    Encodes .cfgOption i (cfgBytes c) := by
  unfold onlyOption at h
  split at h
  case h_7 => cases h; exact ⟨hw, rfl, rfl⟩
  case h_10 => cases h
  all_goals cases h; exact ⟨rfl, rfl, rfl⟩

theorem optionOf_cons (hi lo : Byte) (bs : List Byte) :
    optionOf (hi :: lo :: bs) =
      if u16 hi lo &&& 0xFE00 = 0 then cfgBodyOf (hi :: lo :: bs) >>= onlyOption else .ok (.cfgReserved (u16 hi lo) bs) := by
  simp only [optionOf, cfgBodyOf]
  split <;> rfl

theorem encodes_of_optionOf {bs : List Byte} {i : Instr} (h : optionOf bs = .ok i) : Encodes .cfgOption i bs := by
  match bs with
  | [] | [_] => cases h
  | hi :: lo :: bs =>
    rw [optionOf_cons] at h
    split at h
    · obtain ⟨c, hc, h⟩ := dec_bind_eq_ok.1 h
      obtain ⟨hw, hbs⟩ := cfgBodyOf_eq_ok.1 hc
      exact hbs ▸ encodes_of_onlyOption hw h
    · next hm =>
      cases h
      exact ⟨bne_iff_ne.2 hm, rfl, congrArg (· ++ bs) (bytes16_u16 hi lo)⟩

/-- A body without reserved bits that holds one option is read as that option's row. -/
theorem optionOf_cfgBytes {c : CfgBody} {i : Instr} (hw : c.wf = true) (h : onlyOption c = .ok i) :
    optionOf (cfgBytes c) = .ok i := by
  have hbody : cfgBodyOf (byteOf (cfgMask c) 1 :: byteOf (cfgMask c) 0 :: cfgFields c) = .ok c :=
    cfgBodyOf_eq_ok.2 ⟨hw, (cfgBytes_eq c).symm⟩
  rw [cfgBytes_eq]
  show optionOf (byteOf (cfgMask c) 1 :: byteOf (cfgMask c) 0 :: cfgFields c) = _
  rw [optionOf_cons, u16_byteOf, if_pos (cfgMask_shows c).1]
  exact dec_bind_eq_ok.2 ⟨c, hbody, h⟩

theorem optionOf_of_encodes {bs : List Byte} {i : Instr} (h : Encodes .cfgOption i bs) : optionOf bs = .ok i := by
  obtain ⟨hw, hf, rfl⟩ := h
  cases i with
  | cfgFreq | cfgBitrate | cfgFdev | cfgRxbw | cfgAfcbw | cfgPreamble | cfgPktlen | cfgRxcont =>
    exact optionOf_cfgBytes rfl rfl
  | cfgSync b => exact optionOf_cfgBytes hw rfl
  | cfgReserved mask fields =>
    have hm : mask &&& 0xFE00 ≠ 0 := bne_iff_ne.1 hw
    show optionOf (byteOf mask 1 :: byteOf mask 0 :: fields) = _
    rw [optionOf_cons, u16_byteOf, if_neg hm]
  | _ => cases hf

/-! ### Events, notifications and responses -/

theorem encodes_of_eventOf {code : Byte} {bs : List Byte} {i : Instr} (h : eventOf code bs = .ok i) :
    Encodes .event i (code :: bs) := by
  have is : ∀ n : Byte, code.toNat = n.toNat → code = n := fun _ => BitVec.eq_of_toNat_eq
  unfold eventOf at h
  split at h
  case h_1 hc =>
    obtain ⟨rfl, rfl⟩ := noMore_eq_ok.1 h
    exact ⟨rfl, rfl, congrArg (· :: _) (is 0x80 hc).symm⟩
  case h_2 hc =>
    obtain ⟨rfl, rfl⟩ := noMore_eq_ok.1 h
    exact ⟨rfl, rfl, congrArg (· :: _) (is 0x81 hc).symm⟩
  case h_3 hc =>
    split at h
    · cases h; exact ⟨rfl, rfl, by rw [is 0x82 hc]; exact congrArg (_ :: ·) (bytes16_u16 ..)⟩
    · cases h
  case h_4 hc =>
    obtain ⟨rfl, rfl⟩ := noMore_eq_ok.1 h
    exact ⟨rfl, rfl, congrArg (· :: _) (is 0x83 hc).symm⟩
  case h_5 => cases h

theorem eventOf_of_encodes {code : Byte} {bs : List Byte} {i : Instr} (h : Encodes .event i (code :: bs)) :
    eventOf code bs = .ok i := by
  obtain ⟨hw, hf, he⟩ := h
  cases i with
  | evPreamble | evDio0 | evBg => cases he; rfl
  | evSafety v => cases he; exact congrArg (fun v => Except.ok (Instr.evSafety v)) (u16_byteOf v)
  | _ => cases hf

theorem encodes_of_notificationOf {code : Byte} {bs : List Byte} {i : Instr} (h : notificationOf code bs = .ok i) :
    Encodes .notification i (code :: bs) := by
  have is : ∀ n : Byte, code.toNat = n.toNat → code = n := fun _ => BitVec.eq_of_toNat_eq
  unfold notificationOf at h
  split at h
  case h_1 hc =>
    split at h
    · next len _ _ _ _ =>
      cases h
      exact ⟨rfl, rfl, by rw [is 0xC0 hc]; exact congrArg (0xC0 :: len :: ·) (bytes32_u32 ..)⟩
    · cases h
  case h_2 hc =>
    obtain ⟨rfl, rfl⟩ := noMore_eq_ok.1 h
    exact ⟨rfl, rfl, congrArg (· :: _) (is 0xC1 hc).symm⟩
  case h_3 hc =>
    split at h
    · next k _ _ =>
      cases h
      exact ⟨rfl, rfl, by rw [is 0xC2 hc]; exact congrArg (0xC2 :: k :: ·) (bytes16_u16 ..)⟩
    · cases h
  case h_4 => cases h

theorem notificationOf_of_encodes {code : Byte} {bs : List Byte} {i : Instr} (h : Encodes .notification i (code :: bs)) :
    notificationOf code bs = .ok i := by
  obtain ⟨hw, hf, he⟩ := h
  cases i with
  | nReadable len ts => cases he; exact congrArg (fun v => Except.ok (Instr.nReadable len v)) (u32_byteOf ts)
  | nWritable => cases he; rfl
  | nDiag k v => cases he; exact congrArg (fun v => Except.ok (Instr.nDiag k v)) (u16_byteOf v)
  | _ => cases hf

theorem excOf_eq_ok {c : Byte} {e : Exc} : excOf c = .ok e ↔ c = excCode e := by
  constructor
  · intro h
    unfold excOf at h
    split at h
    case h_8 => cases h
    all_goals
      next hc => cases h; exact BitVec.eq_of_toNat_eq hc
  · rintro rfl
    cases e <;> rfl

/-- The status byte of an exception response is the code under bit 7 (R103). -/
theorem status_of_excCode {status : Byte} {e : Exc} (h7 : status.getLsbD 7 = true) (h : status &&& 0x7F = excCode e) :
    status = 0x80 ||| excCode e := by
  have split7 : ∀ b : Byte, b.getLsbD 7 = true → b = 0x80 ||| (b &&& 0x7F) := by decide
  rw [← h]
  exact split7 status h7

theorem encodes_of_responseOf {status : Byte} {bs : List Byte} {i : Instr} (h : responseOf status bs = .ok i) :
    Encodes .response i (status :: bs) := by
  unfold responseOf at h
  split at h
  · next h0 => cases h; subst h0; exact ⟨rfl, rfl, rfl⟩
  · split at h
    · next h1 =>
      subst h1
      split at h
      · next hbs => cases h; exact ⟨by simpa [Instr.wf] using hbs, rfl, rfl⟩
      · cases h
    · split at h
      · next h7 =>
        split at h
        · obtain ⟨e, he, h⟩ := dec_bind_eq_ok.1 h
          cases h
          refine ⟨rfl, rfl, ?_⟩
          rw [status_of_excCode h7 (excOf_eq_ok.1 he)]
          exact congrArg (_ :: ·) (bytes16_u16 ..)
        · cases h
      · cases h

theorem responseOf_of_encodes {status : Byte} {bs : List Byte} {i : Instr} (h : Encodes .response i (status :: bs)) :
    responseOf status bs = .ok i := by
  obtain ⟨hw, hf, he⟩ := h
  cases i with
  | rspOk => cases he; rfl
  | rspNone tail =>
    cases he
    exact if_pos (by simpa [Instr.wf] using hw)
  | rspExc e info =>
    cases he
    have hinfo := u16_byteOf info
    cases e <;> exact congrArg (fun v => Except.ok (Instr.rspExc _ v)) hinfo
  | _ => cases hf

/-! ### Bits of a wire byte -/

/-- A byte cut after its top bit. -/
theorem split_bit7 : ∀ b : Byte, (BitVec.ofBool (b.getLsbD 7) ++ b.extractLsb' 0 7 : BitVec (1 + 7)) = b := by decide

theorem bit7_append : ∀ (x : Bool) (g : BitVec 7), (BitVec.ofBool x ++ g : BitVec (1 + 7)).getLsbD 7 = x := by decide

theorem low_seven_append : ∀ (x : Bool) (g : BitVec 7),
    (BitVec.ofBool x ++ g : BitVec (1 + 7)).extractLsb' 0 7 = g := by decide

/-- A byte cut after each of its two top bits. -/
theorem split_bits76 : ∀ b : Byte,
    (BitVec.ofBool (b.getLsbD 7) ++ BitVec.ofBool (b.getLsbD 6) ++ b.extractLsb' 0 6 : BitVec (1 + 1 + 6)) = b := by
  decide

theorem bit7_flags : ∀ (x y : Bool) (g : BitVec 6),
    (BitVec.ofBool x ++ BitVec.ofBool y ++ g : BitVec (1 + 1 + 6)).getLsbD 7 = x := by decide

theorem bit6_flags : ∀ (x y : Bool) (g : BitVec 6),
    (BitVec.ofBool x ++ BitVec.ofBool y ++ g : BitVec (1 + 1 + 6)).getLsbD 6 = y := by decide

theorem low_six_of_flags : ∀ (x y : Bool) (g : BitVec 6),
    (BitVec.ofBool x ++ BitVec.ofBool y ++ g : BitVec (1 + 1 + 6)).extractLsb' 0 6 = g := by decide

theorem top_two_append : ∀ (p : BitVec 2) (h : BitVec 6), (p ++ h : BitVec (2 + 6)).extractLsb' 6 2 = p := by decide

theorem low_six_append : ∀ (p : BitVec 2) (h : BitVec 6), (p ++ h : BitVec (2 + 6)).extractLsb' 0 6 = h := by decide

/-- Masking the low six bits and cutting them out test alike. -/
theorem low_six_eq_zero : ∀ b : Byte, b &&& 0x3F = 0 ↔ b.extractLsb' 0 6 = 0 := by decide

/-- The first byte of a V2 header, field by field. -/
theorem split_v2 : ∀ b : Byte,
    (b.extractLsb' 6 2 ++ BitVec.ofBool (b.getLsbD 5) ++ BitVec.ofBool (b.getLsbD 4) ++ BitVec.ofBool (b.getLsbD 3) ++
      b.extractLsb' 0 3 : BitVec (2 + 1 + 1 + 1 + 3)) = b := by decide

/-- The first byte of a V2 packet (R95). -/
def v2Byte0 (p : BitVec 2) (a1 g a0 : Bool) (u : BitVec 3) : Byte :=
  (p ++ BitVec.ofBool a1 ++ BitVec.ofBool g ++ BitVec.ofBool a0 ++ u : BitVec (2 + 1 + 1 + 1 + 3))

theorem v2Byte0_fields : ∀ (p : BitVec 2) (a1 g a0 : Bool) (u : BitVec 3),
    (v2Byte0 p a1 g a0 u).extractLsb' 6 2 = p ∧ (v2Byte0 p a1 g a0 u).getLsbD 5 = a1 ∧
    (v2Byte0 p a1 g a0 u).getLsbD 4 = g ∧ (v2Byte0 p a1 g a0 u).getLsbD 3 = a0 ∧
    (v2Byte0 p a1 g a0 u).extractLsb' 0 3 = u := by decide

/-! ### Packets -/

/-- The V1 pattern of two bytes, on their low six bits (R93). -/
theorem isV1_eq (b0 b1 : Byte) :
    isV1 b0 b1 = ((b0.extractLsb' 0 6 == 0 && b1.extractLsb' 0 6 == 61) ||
      (b0.extractLsb' 0 6 == 61 && b1.extractLsb' 0 6 == 0)) := by
  conv_lhs => rw [← split_top b0, ← split_top b1]
  exact isV1_append _ _ _ _

/-- A V2 packet's first two bytes show the V1 pattern exactly where its fields do (R93, R110). -/
theorem isV1_v2Byte0 (p : BitVec 2) (a1 g a0 : Bool) (u : BitVec 3) (node : U32) :
    isV1 (v2Byte0 p a1 g a0 u) (byteOf node 3) = looksLikeV1 a1 g a0 u node := by
  rw [v2Byte0, header_low, ← split_top (byteOf node 3), isV1_append, byteOf_three_low]
  rfl

/-- Three bytes are the V1 header of their fields. -/
theorem v1Header_of_bytes {b0 b1 : Byte} {h0 h1 : BitVec 6} (b2 : Byte) (h : b0.extractLsb' 0 6 = h0)
    (h' : b1.extractLsb' 0 6 = h1) :
    v1Header h0 h1 (b0.extractLsb' 6 2) (b1.getLsbD 7) (b1.getLsbD 6) (b2.getLsbD 7) (b2.extractLsb' 0 7) =
      [b0, b1, b2] := by
  subst h h'
  rw [v1Header, split_top, split_bits76, split_bit7]

theorem encodes_of_packetOf {bs : List Byte} {i : Instr} (h : packetOf bs = .ok i) : Encodes .packetHeader i bs := by
  unfold packetOf at h
  split at h
  · cases h
  next hlen =>
  match bs with
  | [] | [_] | [_, _] => cases h
  | b0 :: b1 :: b2 :: rest =>
    have hfit : rest.length + 3 ≤ bufMax := Nat.not_lt.1 hlen
    simp only at h
    split at h
    · next hv1 =>
      rw [isV1_eq] at hv1
      simp only [Bool.or_eq_true, Bool.and_eq_true, beq_iff_eq] at hv1
      split at h
      · next hzero =>
        rw [low_six_eq_zero] at hzero
        have hmagic : b1.extractLsb' 0 6 = 61 := by simpa [hzero] using hv1
        cases h
        exact ⟨decide_eq_true hfit, rfl, congrArg (· ++ rest) (v1Header_of_bytes b2 hzero hmagic)⟩
      · next hzero =>
        rw [low_six_eq_zero] at hzero
        obtain ⟨hmagic, hlow⟩ := hv1.resolve_left fun h => hzero h.1
        cases h
        exact ⟨decide_eq_true hfit, rfl, congrArg (· ++ rest) (v1Header_of_bytes b2 hmagic hlow)⟩
    · next hv1 =>
      split at h
      · next b3 b4 b5 rest =>
        cases h
        have hnode := bytes32_u32 b1 b2 b3 b4
        have hb1 : byteOf (u32 b1 b2 b3 b4) 3 = b1 := by
          simp only [bytes32, List.cons.injEq] at hnode; exact hnode.1
        have hlooks := isV1_v2Byte0 (b0.extractLsb' 6 2) (b0.getLsbD 5) (b0.getLsbD 4) (b0.getLsbD 3) (b0.extractLsb' 0 3)
          (u32 b1 b2 b3 b4)
        rw [v2Byte0, split_v2, hb1, Bool.eq_false_iff.2 hv1] at hlooks
        refine ⟨?_, rfl, ?_⟩
        · simp only [Instr.wf, ← hlooks, Bool.not_false, Bool.and_true, decide_eq_true_eq]
          exact hfit
        · simp only [encode, split_v2, hnode, split_bit7]
          rfl
      · cases h

/-- The low six bits of a V1 packet's first byte are its header's. -/
theorem low_six_append_eq_zero (p : BitVec 2) (h : BitVec 6) : (p ++ h : BitVec (2 + 6)) &&& 0x3F = 0 ↔ h = 0 := by
  rw [low_six_eq_zero, low_six_append]

/-- The decoder on a V1 header: its low six bits tell the node's packet from the gateway's (R94). -/
theorem packetOf_v1Header {h0 h1 : BitVec 6} (p : BitVec 2) (w u i : Bool) (t : BitVec 7) {rest : List Byte}
    (hpat : (h0 == 0 && h1 == 61 || h0 == 61 && h1 == 0) = true) (hfit : rest.length + 3 ≤ bufMax) :
    packetOf (v1Header h0 h1 p w u i t ++ rest) =
      .ok (if h0 = 0 then .pktV1Node p w u i t rest else .pktV1Gw p w u i t rest) := by
  have hlen : ¬255 < rest.length + 3 := Nat.not_lt.2 hfit
  have hlow := low_six_append_eq_zero p h0
  simp only [packetOf, v1Header, List.cons_append, List.nil_append, List.length_cons]
  rw [if_neg hlen, if_pos ((isV1_flags p w u h0 h1).trans hpat), top_two_append, bit7_flags, bit6_flags, bit7_append,
    low_seven_append]
  by_cases hzero : h0 = 0
  · rw [if_pos (hlow.2 hzero), if_pos hzero]
  · rw [if_neg (mt hlow.1 hzero), if_neg hzero]

theorem packetOf_of_encodes {bs : List Byte} {i : Instr} (h : Encodes .packetHeader i bs) : packetOf bs = .ok i := by
  obtain ⟨hw, hf, rfl⟩ := h
  cases i with
  | pktV1Node p w u tr t rest => exact packetOf_v1Header p w u tr t rfl (of_decide_eq_true hw)
  | pktV1Gw p w u tr t rest => exact packetOf_v1Header p w u tr t rfl (of_decide_eq_true hw)
  | pktV2 p a1 g a0 u node tr t rest =>
    simp only [Instr.wf, Bool.and_eq_true, decide_eq_true_eq, Bool.not_eq_true'] at hw
    obtain ⟨hfit, hlooks⟩ := hw
    have hlen : ¬255 < rest.length + 6 := Nat.not_lt.2 hfit
    have hv1 : ¬isV1 (v2Byte0 p a1 g a0 u) (byteOf node 3) = true := by rw [isV1_v2Byte0, hlooks]; decide
    obtain ⟨hp, ha1, hg, ha0, hu⟩ := v2Byte0_fields p a1 g a0 u
    show packetOf (v2Byte0 p a1 g a0 u :: bytes32 node ++ (BitVec.ofBool tr ++ t : BitVec (1 + 7)) :: rest) = _
    simp only [packetOf, bytes32, List.cons_append, List.nil_append, List.length_cons]
    rw [if_neg hlen, if_neg hv1, hp, ha1, hg, ha0, hu, u32_byteOf, bit7_append, low_seven_append]
  | _ => cases hf

/-! ### The other wire formats -/

theorem encodes_of_syncWordOf {a b g : Byte} {i : Instr} (h : syncWordOf a b g = .ok i) :
    Encodes .syncWord i [a, b, g] := by
  have low : ∀ g : Byte, g &&& 0xC0 = 0 → ((0 : BitVec 2) ++ g.extractLsb' 0 6 : BitVec (2 + 6)) = g := by decide
  unfold syncWordOf at h
  split at h
  · next hw =>
    obtain ⟨rfl, rfl, hg⟩ := hw
    cases h
    exact ⟨rfl, rfl, by rw [encode, low g hg]⟩
  · cases h

theorem syncWordOf_encode (g : BitVec 6) :
    syncWordOf Config.syncA Config.syncB ((0 : BitVec 2) ++ g : BitVec (2 + 6)) = .ok (.syncword g) := by
  have high : ∀ g : BitVec 6, ((0 : BitVec 2) ++ g : BitVec (2 + 6)) &&& 0xC0 = (0 : Byte) := by decide
  rw [syncWordOf, if_pos ⟨rfl, rfl, high g⟩, low_six_append]

/-! ### Every format -/

theorem encodes_of_decode {f : Format} {bs : List Byte} {i : Instr} (h : decode f bs = .ok i) : Encodes f i bs := by
  unfold decode at h
  split at h
  case h_1 => exact encodes_of_packetOf h
  case h_2 =>
    obtain ⟨b, hb, rfl⟩ := dec_map_eq_ok.1 h
    obtain ⟨hw, rfl⟩ := bufferOf_eq_ok.1 hb
    exact ⟨hw, rfl, rfl⟩
  case h_3 => exact encodes_of_optionOf h
  case h_4 => cases h
  case h_5 => exact encodes_of_hostOf h
  case h_6 => exact encodes_of_eventOf h
  case h_7 => exact encodes_of_notificationOf h
  case h_8 => exact encodes_of_responseOf h
  case h_9 b =>
    have hb := split_bit7 b
    split at h
    · next h7 => cases h; exact ⟨rfl, rfl, by rw [h7] at hb; rw [encode, hb]⟩
    · next h7 => cases h; exact ⟨rfl, rfl, by rw [Bool.eq_false_iff.2 h7] at hb; rw [encode, hb]⟩
  case h_10 => cases h; exact ⟨rfl, rfl, by rw [encode, split_top]⟩
  case h_11 => exact encodes_of_syncWordOf h
  case h_12 => cases h; exact ⟨rfl, rfl, by rw [encode, split_bits76]⟩
  case h_13 => cases h

theorem decode_encode (i : Instr) (hw : i.wf = true) : decode i.format (encode i) = .ok i := by
  have henc : Encodes i.format i (encode i) := ⟨hw, rfl, rfl⟩
  cases i with
  | pktV1Node | pktV1Gw | pktV2 => exact packetOf_of_encodes henc
  | fifoframe b => exact dec_map_eq_ok.2 ⟨b, bufferOf_bufferBytes hw, rfl⟩
  | cfgFreq | cfgBitrate | cfgFdev | cfgRxbw | cfgAfcbw | cfgPreamble | cfgSync | cfgPktlen | cfgRxcont | cfgReserved =>
    exact optionOf_of_encodes henc
  | evPreamble | evDio0 | evSafety | evBg => exact eventOf_of_encodes henc
  | nReadable | nWritable | nDiag => exact notificationOf_of_encodes henc
  | rspOk | rspNone | rspExc => exact responseOf_of_encodes henc
  | varintGroup g =>
    show Except.ok (if _ then _ else _) = _
    rw [bit7_append, low_seven_append]; rfl
  | varintLast g =>
    show Except.ok (if _ then _ else _) = _
    rw [bit7_append, low_seven_append]; rfl
  | pktTrailer u m f =>
    show Except.ok (Instr.pktTrailer _ _ _) = _
    rw [top_two_append, low_six_append]
  | syncword g => exact syncWordOf_encode g
  | parity p q u =>
    show Except.ok (Instr.parity _ _ _) = _
    rw [bit7_flags, bit6_flags, low_six_of_flags]
  | _ => exact hostOf_of_encodes henc

/-- Settles O1, port by port: each reader takes exactly what the writer of its field puts. -/
theorem decodeEncode : Obligations.DecodeEncode := decode_encode

/-- Settles O2: what each port accepts is the encoding of what it answers. -/
theorem encodeDecode : Obligations.EncodeDecode := fun _ _ _ => encodes_of_decode

end Sys2Proof
end

section
/-! PROOFS. 30_encoding.md: what a step makes of a frame, and the rows without a bus access (R90 to R109). -/

namespace Sys2Proof.Machine

/-! ### Sample frames -/

/-- Settles O3: the decoder, evaluated on each of the fifteen frames. -/
theorem sampleWords : Obligations.SampleWords := by
  unfold Obligations.SampleWords
  decide

/-! ### A step and the frame it takes -/

theorem fetch_frame {s : State} {f : Format} {bytes : List Byte} {rest : List Item}
    (h : s.inbox = .frame f bytes :: rest) : fetch s = fetchFrame f bytes := by rw [fetch, h]

theorem afterFetch_eq {s : State} {x : Item} {rest : List Item} (h : s.inbox = x :: rest) :
    afterFetch s = { s with inbox := rest } := by rw [afterFetch, h, List.tail_cons]

/-- Settles O4: the fetch reads the first item with the decoder of its format. -/
theorem stepRunsDecoded : Obligations.StepRunsDecoded := by
  intro s f bytes rest i hbox hdec
  have hfetch : fetch s = .instr i := by rw [fetch_frame hbox, fetchFrame, hdec]
  rw [step, hfetch, afterFetch_eq hbox]

/-! ### Admission -/

/-- A command whose first act is its admission check: its body, or E_NOT_READY with the LIFE code (60_exceptions.md R285,
R287). -/
theorem command_admission (c : CmdClass) (body : R Response) (s : State) :
    command (do checkAdmission c; body) s =
      if admits c s.ctl.life then command body s
      else .next (s.emit (.respond (.exc .notReady (lifeInfo s.ctl.life)))) := by
  cases h : admits c s.ctl.life <;> simp [command, admit_run, h]

/-! ### Host frames that do not decode -/

theorem lifeInfo_eq (l : Life) :
    lifeInfo l = match l with | .uninit => 0 | .ready => 1 | .failed => 2 | .closed => 3 := by cases l <;> rfl

/-- The opcode of a frame is one of a command that this LIFE state refuses (60_exceptions.md R287). -/
def opcodeRefused (l : Life) : List Byte → Bool
  | [] => false
  | op :: _ =>
    match cmdClass op with
    | some c => !admits c l
    | none => false

/-- The refused opcodes by their numbers: INIT in READY, the radio commands elsewhere (30_encoding.md R104). -/
theorem opcodeRefused_cons (l : Life) (op : Byte) (bs : List Byte) : opcodeRefused l (op :: bs) =
    ((op == 0x01 && l == .ready) ||
      (op ∈ ([0x02, 0x03, 0x04, 0x05, 0x06, 0x10, 0x11, 0x12, 0x13] : List Byte) && l != .ready)) := by
  show (match cmdClass op with | some c => !admits c l | none => false) = _
  cases l <;> revert op <;> decide

/-- Opcode, admission, format: the answer to a host frame that does not decode (30_encoding.md R109, 60_exceptions.md
R285). -/
theorem execMalformed_eq (frame : List Byte) (s : State) : execMalformed frame s = .next (s.emit (.respond
    (if opcodeRefused s.ctl.life frame then .exc .notReady (lifeInfo s.ctl.life) else .exc .badArg badArgInfo))) := by
  unfold execMalformed malformed opcodeRefused
  cases frame with
  | nil => rfl
  | cons op bs =>
    cases hc : cmdClass op with
    | none => simp only [hc]; rfl
    | some c =>
      simp only [hc, command_admission]
      cases admits c s.ctl.life <;> rfl

/-- Settles O6: the fetch finds a host frame that does not decode, and that is answered by its opcode. -/
theorem malformedAnswered : Obligations.MalformedAnswered := by
  intro s frame rest e hbox hdec
  have hfetch : fetch s = .malformed frame := by rw [fetch_frame hbox, fetchFrame, hdec]; rfl
  rw [step, hfetch, afterFetch_eq hbox]
  simp only [execMalformed_eq, lifeInfo_eq]
  cases frame with
  | nil => rfl
  | cons op bs => rw [opcodeRefused_cons]; rfl

/-! ### Varint bytes -/

/-- One byte through the datapath, in arithmetic (30_encoding.md R91, 40_varint.md R131). -/
theorem handler_takeVarintByte (b : Byte) (s : State) :
    let old : Nat := if s.codec.vdone then 0 else s.codec.vacc.toNat
    let u : Nat := (128 * old + b.toNat % 128) % 2 ^ 32
    handler (takeVarintByte b) s = .next { s with codec := { s.codec with
      vacc := BitVec.ofNat 32 u, vcnt := BitVec.ofNat 9 ((if s.codec.vdone then 0 else s.codec.vcnt.toNat) + 1),
      vdone := b.getLsbD 7,
      vval := if b.getLsbD 7 then BitVec.ofInt 32 (varintValue u) else s.codec.vval } } := by
  intro old u
  have hacc : (vaccStep (if s.codec.vdone then 0 else s.codec.vacc) b).toNat = u := by
    rw [vaccStep_toNat, apply_ite BitVec.toNat]; rfl
  refine handler_ok ?_
  rw [← hacc, ← vvalue_eq]
  simp only [takeVarintByte, bind_M, current_M, setDecoder_M, BitVec.ofNat_toNat, BitVec.setWidth_eq]
  cases b.getLsbD 7 <;> rfl

/-- A group as the byte without its terminator bit, and as the byte with it. -/
theorem group_byte : ∀ g : BitVec 7, (g.zeroExtend 8).toNat % 128 = g.toNat ∧ (g.zeroExtend 8).getLsbD 7 = false := by
  decide

theorem last_byte : ∀ g : BitVec 7,
    (0x80 ||| g.zeroExtend 8 : Byte).toNat % 128 = g.toNat ∧ (0x80 ||| g.zeroExtend 8 : Byte).getLsbD 7 = true := by
  decide

/-- Settles O12: both rows are the datapath's step, on the byte without and with its terminator bit. -/
theorem varintByteRows : Obligations.VarintByteRows := by
  intro s g
  constructor
  · obtain ⟨hg, h7⟩ := group_byte g
    refine (handler_takeVarintByte (g.zeroExtend 8) s).trans ?_
    simp only [hg, h7, Bool.false_eq_true, if_false]
  · obtain ⟨hg, h7⟩ := last_byte g
    refine (handler_takeVarintByte (0x80 ||| g.zeroExtend 8) s).trans ?_
    simp only [hg, h7, if_true]

/-! ### Trailer, sync word and parity byte -/

/-- The trailer's frequency byte counts units of 128 Hz (41_packet_codec.md R158). -/
theorem trailerFei_eq (f : Byte) : trailerFei f = BitVec.ofInt 32 (128 * f.toInt) := by revert f; decide

theorem parityBits (p q : Bool) : flagBit p 7 ||| flagBit q 6 = BitVec.ofBool p ++ BitVec.ofBool q ++ (0 : BitVec 6) := by
  cases p <;> cases q <;> rfl

/-- Settles O22: each row sets one part of PK or SY, to the value its bits stand for. -/
theorem signalRows : Obligations.SignalRows := by
  refine ⟨fun s u m f => ?_, fun s g => rfl, fun s p q u => ?_⟩
  · rw [← trailerFei_eq]
    have hmargin : (u ++ m : BitVec (2 + 6)).extractLsb' 0 6 = m := low_six_append u m
    show execPktTrailer u m f s = _
    unfold execPktTrailer
    refine handler_ok ?_
    simp only [bind_M, current_M, setPacket_M, withTrailer, if_true, hmargin]
  · rw [← parityBits]
    rfl

/-! ### The reserved option and the messages -/

/-- Settles O31: admission comes first, and where it passes the body is refused. -/
theorem cfgReservedRefused : Obligations.CfgReservedRefused := by
  intro s m fields
  refine (command_admission .radio (raise .badArg badArgInfo) s).trans ?_
  cases s.ctl.life <;> rfl

/-- Settles O54: each row is one action. -/
theorem messageRows : Obligations.MessageRows := fun _ =>
  ⟨fun _ _ => rfl, rfl, fun _ _ => rfl, fun _ => rfl, fun _ => rfl, fun _ _ => rfl⟩

end Sys2Proof.Machine
end

section
/-! PROOFS. 30_encoding.md R94, R95: the packet rows and the records they leave. -/

namespace Sys2Proof.Machine

/-! ### The datapath after a packet -/

/-- What a packet and its decode leave in the datapath (log 14). -/
def Codec.took (c : Codec) (buf : List Byte) (d : PDecode) : Codec :=
  { c with buf := buf, vacc := d.acc, vcnt := BitVec.ofNat 9 d.cnt, vdone := true, pk := d.pk.getD c.pk }

theorem takePacket_M (buf : List Byte) (s : State) :
    takePacket buf s = .ok ((), { s with codec := s.codec.took buf (decodePacket false 0 buf) }) := by
  simp only [takePacket, bind_M, setBuf_M, decodeInto_M]
  rfl

/-- PDEC without a check accepts every group operand and answers what the decode gives (41_packet_codec.md R150). -/
theorem execPdec_unchecked (buf : List Byte) (s : State) : ∃ r, execPdec false 0 buf s =
    .next (State.emit { s with codec := s.codec.took buf (decodePacket false 0 buf) } (.respond r)) := by
  unfold execPdec
  generalize decodePacket false 0 buf = d
  cases hd : d.pk with
  | none => exact ⟨.noResult [], command_ok (by simp [chkGroupOk, decodeInto_M, hd, Codec.took])⟩
  | some pk => exact ⟨.ok (packetBytes pk), command_ok (by simp [chkGroupOk, decodeInto_M, hd, Codec.took])⟩

/-- A packet row is its own bytes handed to the codec. -/
theorem exec_packetRow {i : Instr} (hf : i.format = .packetHeader) (s : State) :
    exec i s = .next { s with codec := s.codec.took (encode i) (decodePacket false 0 (encode i)) } := by
  cases i with
  | pktV1Node | pktV1Gw | pktV2 => exact handler_ok (takePacket_M _ s)
  | _ => cases hf

/-! ### The fields of the record -/

/-- Two records agree on what the header and the node say. -/
def Packet.SameHeader (pk pk' : Packet) : Prop :=
  pk'.ver = pk.ver ∧ pk'.fromGw = pk.fromGw ∧ pk'.isAck = pk.isAck ∧ pk'.wantAck = pk.wantAck ∧
  pk'.type = pk.type ∧ pk'.nodeV = pk.nodeV ∧ pk'.node = pk.node

/-- The data region and the trailer leave the header's fields alone (41_packet_codec.md R157, R158). -/
theorem finishPacket_pk (pk : Packet) (buf : List Byte) (dataOff e : Nat) (trailer : Bool) (acc : U32) (cnt : Nat) :
    ∃ pk', (finishPacket pk buf dataOff e trailer acc cnt).pk = some pk' ∧ pk.SameHeader pk' ∧ pk'.trlV = trailer := by
  cases trailer <;> exact ⟨_, rfl, ⟨rfl, rfl, rfl, rfl, rfl, rfl, rfl⟩, rfl⟩

/-- A V1 packet that has room for its trailer, and is a gateway's or too short for a node: its record (41_packet_codec.md
R152, R154). -/
theorem decodeV1_pk (h0 h1 : BitVec 6) (p : BitVec 2) (w u tr : Bool) (t : BitVec 7) (rest : List Byte)
    (hroom : tr = true → 2 ≤ rest.length) (hnode : h0 = 0 → payloadEnd tr (rest.length + 3) - 3 ≤ 1) :
    ∃ pk, (decodeV1 (v1Header h0 h1 p w u tr t ++ rest)).pk = some pk ∧ pk.ver = false ∧ pk.fromGw = (h0 != 0) ∧
      pk.isAck = (h0 != 0) ∧ pk.wantAck = w ∧ pk.type = t ∧ pk.nodeV = false ∧ pk.trlV = tr := by
  have hlow : ((p ++ h0 : BitVec (2 + 6)) &&& 0x3F != (0 : Byte)) = (h0 != 0) := by
    rw [Bool.eq_iff_iff, bne_iff_ne, bne_iff_ne]
    exact not_congr (low_six_append_eq_zero p h0)
  have hshort : ¬(tr = true ∧ rest.length + 3 < 5) := fun ⟨h, hl⟩ => by have := hroom h; omega
  have hplain : ¬((!(h0 != 0)) = true ∧ 1 < payloadEnd tr (rest.length + 3) - 3) := fun ⟨h, hl⟩ => by
    have := hnode (by simpa using h); omega
  have hw : (BitVec.ofBool w ++ BitVec.ofBool u ++ h1 : BitVec (1 + 1 + 6)).getLsbD 7 = w := bit7_flags w u h1
  have htr : (BitVec.ofBool tr ++ t : BitVec (1 + 7)).getLsbD 7 = tr := bit7_append tr t
  have ht : (BitVec.ofBool tr ++ t : BitVec (1 + 7)).extractLsb' 0 7 = t := low_seven_append tr t
  simp only [decodeV1, v1Header, at', List.cons_append, List.nil_append, List.length_cons, List.getD_cons_zero,
    List.getD_cons_succ, hlow, hw, htr, ht, if_neg hshort, if_neg hplain]
  obtain ⟨pk, hpk, ⟨hver, hgw, hack, hwant, htype, hnodeV, -⟩, htrl⟩ := finishPacket_pk _ _ _ _ tr _ _
  exact ⟨pk, hpk, hver, hgw, hack, hwant, htype, hnodeV, htrl⟩

/-- A V2 packet that has room for its trailer: its record (41_packet_codec.md R155, R156). -/
theorem decodeV2_pk (p : BitVec 2) (a1 g a0 : Bool) (u : BitVec 3) (node : U32) (tr : Bool) (t : BitVec 7)
    (rest : List Byte) (hroom : tr = true → 2 ≤ rest.length) :
    ∃ pk, (decodeV2 (encode (.pktV2 p a1 g a0 u node tr t rest))).pk = some pk ∧ pk.ver = true ∧ pk.fromGw = g ∧
      pk.isAck = (a1 && !a0) ∧ pk.wantAck = (!a1 && a0) ∧ pk.type = t ∧ pk.nodeV = true ∧ pk.node = node ∧
      pk.trlV = tr := by
  have hflags : ∀ (p : BitVec 2) (a1 g a0 : Bool) (u : BitVec 3),
      (v2Byte0 p a1 g a0 u &&& 0x28 == 0x20) = (a1 && !a0) ∧ (v2Byte0 p a1 g a0 u &&& 0x10 != 0) = g ∧
      (v2Byte0 p a1 g a0 u &&& 0x28 == 0x08) = (!a1 && a0) := by decide
  obtain ⟨hisAck, hfrom, hwantAck⟩ := hflags p a1 g a0 u
  have hlong : ¬rest.length + 6 < 6 := by omega
  have hshort : ¬(tr = true ∧ rest.length + 6 < 8) := fun ⟨h, hl⟩ => by have := hroom h; omega
  have htr : (BitVec.ofBool tr ++ t : BitVec (1 + 7)).getLsbD 7 = tr := bit7_append tr t
  have ht : (BitVec.ofBool tr ++ t : BitVec (1 + 7)).extractLsb' 0 7 = t := low_seven_append tr t
  show ∃ pk, (decodeV2 (v2Byte0 p a1 g a0 u :: bytes32 node ++
    (BitVec.ofBool tr ++ t : BitVec (1 + 7)) :: rest)).pk = _ ∧ _
  simp only [decodeV2, bytes32, at', List.cons_append, List.nil_append, List.length_cons, List.getD_cons_zero,
    List.getD_cons_succ, hisAck, hfrom, hwantAck, htr, ht, u32_byteOf, if_neg hlong, if_neg hshort]
  obtain ⟨pk, hpk, ⟨hver, hgw, hack, hwant, htype, hnodeV, hnode⟩, htrl⟩ := finishPacket_pk _ _ _ _ tr _ _
  exact ⟨pk, hpk, hver, hgw, hack, hwant, htype, hnodeV, hnode, htrl⟩

/-- Without a check a packet's version alone picks its decoder (41_packet_codec.md R150, R151). -/
theorem decodePacket_v1Header (h0 h1 : BitVec 6) (p : BitVec 2) (w u tr : Bool) (t : BitVec 7) (rest : List Byte)
    (hpat : (h0 == 0 && h1 == 61 || h0 == 61 && h1 == 0) = true) :
    decodePacket false 0 (v1Header h0 h1 p w u tr t ++ rest) = decodeV1 (v1Header h0 h1 p w u tr t ++ rest) := by
  have hlong : ¬(v1Header h0 h1 p w u tr t ++ rest).length < 3 := by simp [v1Header]
  rw [decodePacket, if_neg hlong, if_neg (by simp), decodeVersioned]
  exact if_pos ((Laws.isV1_flags p w u h0 h1).trans hpat)

theorem decodePacket_v2 {p : BitVec 2} {a1 g a0 : Bool} {u : BitVec 3} {node : U32} {tr : Bool} {t : BitVec 7}
    {rest : List Byte} (hwf : (Instr.pktV2 p a1 g a0 u node tr t rest).wf = true) :
    decodePacket false 0 (encode (.pktV2 p a1 g a0 u node tr t rest)) =
      decodeV2 (encode (.pktV2 p a1 g a0 u node tr t rest)) := by
  have hlong : ¬(encode (.pktV2 p a1 g a0 u node tr t rest)).length < 3 := by simp [encode, bytes32]
  have hlooks : looksLikeV1 a1 g a0 u node = false := by simp [Instr.wf] at hwf; exact hwf.2
  have hv1 : ¬isV1 (v2Byte0 p a1 g a0 u) (byteOf node 3) = true := by rw [isV1_v2Byte0, hlooks]; decide
  rw [decodePacket, if_neg hlong, if_neg (by simp), decodeVersioned]
  exact if_neg hv1

/-- A packet row whose decode has a result leaves that record. -/
theorem exec_packetRow_pk {i : Instr} {pk : Packet} (hf : i.format = .packetHeader)
    (h : (decodePacket false 0 (encode i)).pk = some pk) (s : State) :
    ∃ c : Codec, exec i s = .next { s with codec := c } ∧ c.pk = pk :=
  ⟨_, exec_packetRow hf s, by rw [Codec.took, h]; rfl⟩

/-- Settles O21: a packet row hands its bytes to the same decoder as PDEC without a check, and the decoder of its version
reads the fields its header was written from. -/
theorem packetRows : Obligations.PacketRows := by
  refine ⟨fun s i hf => ?_, fun s p w u tr t rest hroom => ?_, fun s p w u t rest hlen => ?_,
    fun s p a1 gw a0 u node tr t rest hwf hroom => ?_⟩
  · obtain ⟨r, hr⟩ := execPdec_unchecked (encode i) s
    exact ⟨_, r, hr, exec_packetRow hf s⟩
  · obtain ⟨pk, hpk, hfields⟩ := decodeV1_pk 61 0 p w u tr t rest hroom (fun h => absurd h (by decide))
    rw [← decodePacket_v1Header 61 0 p w u tr t rest rfl] at hpk
    obtain ⟨c, hc, rfl⟩ := exec_packetRow_pk (i := .pktV1Gw p w u tr t rest) rfl hpk s
    exact ⟨c, hc, hfields⟩
  · obtain ⟨pk, hpk, hfields⟩ := decodeV1_pk 0 61 p w u false t rest nofun (fun _ => by simp [payloadEnd]; omega)
    rw [← decodePacket_v1Header 0 61 p w u false t rest rfl] at hpk
    obtain ⟨c, hc, rfl⟩ := exec_packetRow_pk (i := .pktV1Node p w u false t rest) rfl hpk s
    exact ⟨c, hc, hfields⟩
  · obtain ⟨pk, hpk, hfields⟩ := decodeV2_pk p a1 gw a0 u node tr t rest hroom
    rw [← decodePacket_v2 hwf] at hpk
    obtain ⟨c, hc, rfl⟩ := exec_packetRow_pk (i := .pktV2 p a1 gw a0 u node tr t rest) rfl hpk s
    exact ⟨c, hc, hfields⟩

end Sys2Proof.Machine
end

section
/-! PROOFS. 30_encoding.md R103, 20_memory.md R64: every command is answered once; XR_FIFO moves in READ and WRITE only. -/

namespace Sys2Proof.Machine

/-! ### Actions within a budget of transfers on XR_FIFO -/

/-- No action is an answer, and where no other name is XR_FIFO at most `w` of them append to it and `r` remove from it
(20_memory.md R64). -/
def Within (p : Params) (w r : Nat) (acts : List Action) : Prop :=
  (∀ a ∈ acts, a.isResponse = false) ∧
  (fifoApart p = true → acts.countP (Action.writesFifo p) ≤ w ∧ acts.countP (Action.readsFifo p) ≤ r)

theorem Within.nil (p : Params) : Within p 0 0 [] := ⟨by simp, fun _ => ⟨Nat.le_refl _, Nat.le_refl _⟩⟩

theorem Within.append {p : Params} {w r w' r' : Nat} {xs ys : List Action} (h : Within p w r xs) (h' : Within p w' r' ys) :
    Within p (w + w') (r + r') (xs ++ ys) := by
  obtain ⟨hresp, hfifo⟩ := h
  obtain ⟨hresp', hfifo'⟩ := h'
  refine ⟨fun a ha => (List.mem_append.1 ha).elim (hresp a) (hresp' a), fun hp => ?_⟩
  rw [List.countP_append, List.countP_append]
  exact ⟨Nat.add_le_add (hfifo hp).1 (hfifo' hp).1, Nat.add_le_add (hfifo hp).2 (hfifo' hp).2⟩

theorem Within.mono {p : Params} {w r w' r' : Nat} {xs : List Action} (h : Within p w r xs) (hw : w ≤ w') (hr : r ≤ r') :
    Within p w' r' xs :=
  ⟨h.1, fun hp => ⟨Nat.le_trans (h.2 hp).1 hw, Nat.le_trans (h.2 hp).2 hr⟩⟩

/-- One action, with its own cost. -/
theorem Within.single {p : Params} {w r : Nat} {x : Action} (hx : x.isResponse = false)
    (hfifo : fifoApart p = true → (x.writesFifo p).toNat ≤ w ∧ (x.readsFifo p).toNat ≤ r) : Within p w r [x] := by
  refine ⟨by simpa using hx, fun hp => ?_⟩
  have hone : ∀ f : Action → Bool, [x].countP f = (f x).toNat := fun f => by cases h : f x <;> simp [h]
  rw [hone, hone]
  exact hfifo hp

/-- The address is not XR_FIFO, where no other name is. -/
def Apart (p : Params) (a : Addr) : Prop := fifoApart p = true → a ≠ p.xr.fifo

theorem Within.xread {p : Params} {a : Addr} (h : Apart p a) (v : BusAnswer) : Within p 0 0 [.xread a v] :=
  .single rfl fun hp => by simp [Action.writesFifo, Action.readsFifo, h hp]

theorem Within.xwrite {p : Params} {a : Addr} (h : Apart p a) (v : Byte) : Within p 0 0 [.xwrite a v] :=
  .single rfl fun hp => by simp [Action.writesFifo, Action.readsFifo, h hp]

/-! ### Which addresses are apart from XR_FIFO -/

theorem fifoApart_iff (p : Params) : fifoApart p = true ↔
    p.xr.all.Nodup ∧ p.xr.syncvalue + 1 ≠ p.xr.fifo ∧ p.xr.syncvalue + 2 ≠ p.xr.fifo ∧
      p.scratchAddr ≠ p.xr.fifo ∧ ∀ w ∈ p.initTable, w.1 ≠ p.xr.fifo := by
  simp [fifoApart, and_assoc]

/-- Every other register name. -/
theorem Apart.name {p : Params} {a : Addr} (h : a ∈ p.xr.all.tail) : Apart p a := by
  intro hp ha
  obtain ⟨hnodup, -⟩ := (fifoApart_iff p).1 hp
  exact (List.nodup_cons.1 hnodup).1 (ha ▸ h)

theorem Apart.scratch (p : Params) : Apart p p.scratchAddr := fun hp => by
  obtain ⟨-, -, -, h, -⟩ := (fifoApart_iff p).1 hp
  exact h

theorem Apart.initTable {p : Params} {w : Addr × Byte} (h : w ∈ p.initTable) : Apart p w.1 := fun hp => by
  obtain ⟨-, -, -, -, htable⟩ := (fifoApart_iff p).1 hp
  exact htable w h

/-- The offsets of XR_SYNCVALUE that SYNC writes. -/
theorem Apart.syncWrites {p : Params} {b : List Byte} (hb : syncCountOk b.length = true) :
    ∀ w ∈ syncWrites p.xr.syncvalue b, Apart p w.1 := by
  have hbase : Apart p p.xr.syncvalue := .name (by simp [XrMap.all])
  have hone : Apart p (p.xr.syncvalue + 1) := fun hp => by
    obtain ⟨-, h, -⟩ := (fifoApart_iff p).1 hp
    exact h
  have htwo : Apart p (p.xr.syncvalue + 1 + 1) := fun hp => by
    obtain ⟨-, -, h, -⟩ := (fifoApart_iff p).1 hp
    rw [BitVec.add_assoc]
    exact h
  match b with
  | [] => simp [Machine.syncWrites]
  | [_] => simpa [Machine.syncWrites] using hbase
  | [_, _] => simpa [Machine.syncWrites] using ⟨hbase, hone⟩
  | [_, _, _] => simpa [Machine.syncWrites] using ⟨hbase, hone, htwo⟩
  | _ :: _ :: _ :: _ :: _ => simp [syncCountOk] at hb; omega

/-! ### Operations that complete within a budget -/

/-- The state `t` is reached from `s` by actions within the budget; the bus is healthy still, the parameters are the same. -/
structure Reached (p : Params) (w r : Nat) (s t : State) : Prop where
  trace : ∃ acts, t.io.trace = s.io.trace ++ acts ∧ Within p w r acts
  healthy : BusHealthy t
  params : t.p = p

theorem Reached.refl {p : Params} {s : State} (h : BusHealthy s) (hp : s.p = p) : Reached p 0 0 s s :=
  ⟨⟨[], by simp, .nil p⟩, h, hp⟩

theorem Reached.trans {p : Params} {w r w' r' : Nat} {s t u : State} (h : Reached p w r s t) (h' : Reached p w' r' t u) :
    Reached p (w + w') (r + r') s u := by
  obtain ⟨xs, hx, hxs⟩ := h.trace
  obtain ⟨ys, hy, hys⟩ := h'.trace
  exact ⟨⟨xs ++ ys, by rw [hy, hx, List.append_assoc], hxs.append hys⟩, h'.healthy, h'.params⟩

theorem Reached.mono {p : Params} {w r w' r' : Nat} {s t : State} (h : Reached p w r s t) (hw : w ≤ w') (hr : r ≤ r') :
    Reached p w' r' s t := by
  obtain ⟨xs, hx, hxs⟩ := h.trace
  exact ⟨⟨xs, hx, hxs.mono hw hr⟩, h.healthy, h.params⟩

theorem Reached.did {p : Params} {w r : Nat} {s : State} {l : List Addr} {e : Env} {xs : List Action} (h : BusHealthy s)
    (hp : s.p = p) (he : EnvStep l s.env e) (hx : Within p w r xs) : Reached p w r s (s.did e xs) :=
  ⟨⟨xs, Io.ran_trace _ _, hx⟩, he.healthy h, hp⟩

/-- The operation completes on a healthy bus, within the budget, and its result is as `Q` says. -/
def Runs {α : Type} (p : Params) (w r : Nat) (Q : α → Prop) (m : M α) : Prop :=
  ∀ s, BusHealthy s → s.p = p → ∃ a t, m s = .ok (a, t) ∧ Q a ∧ Reached p w r s t

/-- What a command's part may end in: a result as `Q` says, or an exception other than E_NOT_READY. -/
def NotRefused {α : Type} (Q : α → Prop) : Except Raised α → Prop
  | .ok a => Q a
  | .error e => e.code ≠ .notReady

/-- A part of a command after its admission check completes within the budget. -/
def Answers {α : Type} (p : Params) (w r : Nat) (Q : α → Prop) (m : R α) : Prop := Runs p w r (NotRefused Q) m.run

section
variable {α β : Type} {p : Params} {w r w' r' : Nat} {Q : α → Prop} {Q' : β → Prop}

theorem Runs.mono {m : M α} (h : Runs p w r Q m) (hw : w ≤ w') (hr : r ≤ r') : Runs p w' r' Q m := fun s hs hp => by
  obtain ⟨a, t, hm, ha, ht⟩ := h s hs hp
  exact ⟨a, t, hm, ha, ht.mono hw hr⟩

theorem Runs.pure {a : α} (ha : Q a) : Runs p 0 0 Q (pure a : M α) := fun s hs hp => ⟨a, s, rfl, ha, .refl hs hp⟩

theorem Runs.bind {m : M α} {f : α → M β} (h : Runs p w r Q m) (hf : ∀ a, Q a → Runs p w' r' Q' (f a)) :
    Runs p (w + w') (r + r') Q' (m >>= f) := fun s hs hp => by
  obtain ⟨a, t, hm, ha, ht⟩ := h s hs hp
  obtain ⟨b, u, hu, hb, hr⟩ := hf a ha t ht.healthy ht.params
  exact ⟨b, u, by rw [bind_M, hm]; exact hu, hb, ht.trans hr⟩

/-- A first part without transfers on XR_FIFO. -/
theorem Runs.andThen {m : M α} {f : α → M β} (h : Runs p 0 0 Q m) (hf : ∀ a, Q a → Runs p w r Q' (f a)) :
    Runs p w r Q' (m >>= f) := by
  have := h.bind hf
  rwa [Nat.zero_add, Nat.zero_add] at this

theorem Answers.mono {m : R α} (h : Answers p w r Q m) (hw : w ≤ w') (hr : r ≤ r') : Answers p w' r' Q m :=
  Runs.mono h hw hr

theorem Answers.pure {a : α} (ha : Q a) : Answers p 0 0 Q (pure a : R α) := Runs.pure (Q := NotRefused Q) ha

theorem Answers.raise {e : Exc} {info : U16} (he : e ≠ .notReady) : Answers p 0 0 Q (raise e info : R α) :=
  fun s hs hp => ⟨_, s, rfl, he, .refl hs hp⟩

theorem Answers.bind {m : R α} {f : α → R β} (h : Answers p w r Q m) (hf : ∀ a, Q a → Answers p w' r' Q' (f a)) :
    Answers p (w + w') (r + r') Q' (m >>= f) := by
  refine Runs.bind (Q := NotRefused Q) h fun x hx => ?_
  cases x with
  | ok a => exact hf a hx
  | error e => exact (Runs.pure (Q := NotRefused Q') (a := .error e) hx).mono (Nat.zero_le _) (Nat.zero_le _)

theorem Answers.andThen {m : R α} {f : α → R β} (h : Answers p 0 0 Q m) (hf : ∀ a, Q a → Answers p w r Q' (f a)) :
    Answers p w r Q' (m >>= f) := by
  have := h.bind hf
  rwa [Nat.zero_add, Nat.zero_add] at this

/-- The rest is without transfers on XR_FIFO. -/
theorem Answers.andQuiet {m : R α} {f : α → R β} (h : Answers p w r Q m) (hf : ∀ a, Q a → Answers p 0 0 Q' (f a)) :
    Answers p w r Q' (m >>= f) := h.bind hf

theorem Runs.lift {m : M α} (h : Runs p w r Q m) : Answers p w r Q (liftM m : R α) := fun s hs hp => by
  obtain ⟨a, t, hm, ha, ht⟩ := h s hs hp
  exact ⟨.ok a, t, by rw [lift_R, hm], ha, ht⟩

theorem Answers.require {ok : Bool} {e : Exc} {info : U16} (he : e ≠ .notReady) :
    Answers p 0 0 (fun _ => True) (require ok e info) := by
  cases ok
  · exact .raise he
  · exact .pure trivial

end

/-! ### The primitives -/

section
variable {p : Params}

/-- An operation that changes registers of the block alone. -/
theorem Runs.silent {α : Type} {Q : α → Prop} {m : M α} (g : State → State)
    (hm : ∀ s, ∃ a, m s = .ok (a, g s) ∧ Q a)
    (hg : ∀ s, (g s).io.trace = s.io.trace ∧ (g s).env = s.env ∧ (g s).params = s.params) : Runs p 0 0 Q m :=
  fun s hs hp => by
    obtain ⟨a, ha, hQ⟩ := hm s
    obtain ⟨htrace, henv, hparams⟩ := hg s
    refine ⟨a, g s, ha, hQ, ⟨⟨[], by simp [htrace], .nil p⟩, ?_, ?_⟩⟩
    · rw [BusHealthy, henv]; exact hs
    · rw [State.p, hparams]; exact hp

theorem update_runs {g : State → State}
    (hg : ∀ s, (g s).io.trace = s.io.trace ∧ (g s).env = s.env ∧ (g s).params = s.params := by
      exact fun _ => ⟨rfl, rfl, rfl⟩) :
    Runs p 0 0 (fun _ => True) (update g) := .silent g (fun _ => ⟨(), rfl, trivial⟩) hg

theorem current_runs : Runs p 0 0 (fun s => s.p = p) current := fun s hs hp => ⟨s, s, rfl, hp, .refl hs hp⟩

theorem emit_runs {x : Action} (hx : x.isResponse = false := by rfl)
    (hfifo : x.writesFifo p = false ∧ x.readsFifo p = false := by exact ⟨rfl, rfl⟩) :
    Runs p 0 0 (fun _ => True) (emit x) := fun s hs hp =>
  ⟨(), s.emit x, rfl, trivial, ⟨[x], rfl, .single hx fun _ => by simp [hfifo]⟩, hs, hp⟩

theorem xread_runs {a : Addr} (h : Apart p a) : Runs p 0 0 (fun _ => True) (xread a) := fun s hs hp => by
  obtain ⟨v, e, hread, hrun, -⟩ := xread_did a s hs
  exact ⟨v, _, hread, trivial, .did hs hp hrun.env (.xread h _)⟩

theorem xwrite_runs {a : Addr} {v : Byte} (h : Apart p a) : Runs p 0 0 (fun _ => True) (xwrite a v) := fun s hs hp =>
  ⟨(), _, xwrite_did a v s, trivial, .did hs hp (writeEffect_env ..) (.xwrite h _)⟩

theorem xwriteAll_runs {ws : List (Addr × Byte)} (h : ∀ x ∈ ws, Apart p x.1) :
    Runs p 0 0 (fun _ => True) (xwriteAll ws) := by
  induction ws with
  | nil => exact .pure trivial
  | cons x ws ih =>
    exact (xwrite_runs (h x (by simp))).andThen fun _ _ => ih fun y hy => h y (by simp [hy])

/-- One bulk read of XR_FIFO. -/
theorem fifoRead_runs (n : Nat) : Runs p 0 1 (fun _ => True) (xburstRead p.xr.fifo n) := fun s hs hp => by
  obtain ⟨bs, e, hread, hrun, -, -⟩ := xburstRead_did p.xr.fifo n s hs
  exact ⟨bs, _, hread, trivial, .did hs hp hrun.env (.single rfl fun _ => by simp [Action.writesFifo, Action.readsFifo])⟩

/-- One bulk write of XR_FIFO. -/
theorem fifoWrite_runs (bs : List Byte) : Runs p 1 0 (fun _ => True) (xburstWrite p.xr.fifo bs) := fun s hs hp =>
  ⟨(), _, xburstWrite_did _ bs s, trivial,
    .did hs hp (writeMany_env ..) (.single rfl fun _ => by simp [Action.writesFifo, Action.readsFifo])⟩

theorem setMode_runs (m : Mode) : Runs p 0 0 (fun _ => True) (setMode m) :=
  current_runs.andThen fun s hs => by
    subst hs
    exact (xwrite_runs (.name (by simp [XrMap.all]))).andThen fun _ _ => update_runs

theorem receiveIfContinuous_runs : Runs p 0 0 (fun _ => True) receiveIfContinuous :=
  current_runs.andThen fun s _ => by
    split
    · exact setMode_runs _
    · exact .pure trivial

theorem cancelSafety_runs : Runs p 0 0 (fun _ => True) cancelSafety :=
  current_runs.andThen fun s _ => by
    split
    · exact Runs.andThen emit_runs fun _ _ => update_runs
    · exact .pure trivial

/-! ### Polls -/

theorem xreadPoll_runs {a : Addr} (h : Apart p a) (d : BusAnswer) : Runs p 0 0 (fun _ => True) (xreadPoll a d) :=
  fun s hs hp => ⟨_, _, xreadPoll_did a d s, trivial, .did hs hp (turnAnswer_env ..) (.xread h _)⟩

theorem pollTurns_runs {a : Addr} (h : Apart p a) (done : Byte → Bool) (t0 : U32) (budget : Nat) (ds : List PollRead) :
    Runs p 0 0 (fun _ => True) (pollTurns a done t0 budget ds) := by
  induction ds with
  | nil => exact .pure trivial
  | cons d ds ih =>
    refine (xreadPoll_runs h d.answer).andThen fun r _ => ?_
    cases r with
    | byte v =>
      show Runs p 0 0 _ (if done v then _ else _)
      split
      · exact .pure trivial
      · split
        · exact .pure trivial
        · exact ih
    | error =>
      show Runs p 0 0 _ (if _ then _ else _)
      split
      · exact .pure trivial
      · exact ih

theorem takePoll_runs : Runs p 0 0 (fun _ => True) takePoll := fun s hs hp =>
  ⟨_, s.withEnv (nextPoll s.env).2, rfl, trivial,
    ⟨[], (List.append_nil _).symm, .nil p⟩, (nextPoll_env s.env).healthy hs, hp⟩

theorem timedPoll_runs {a : Addr} (h : Apart p a) (done : Byte → Bool) (budget : Nat) :
    Runs p 0 0 (fun _ => True) (timedPoll a done budget) :=
  takePoll_runs.andThen fun _ _ => pollTurns_runs h _ _ _ _

theorem waitModeReady_answers : Answers p 0 0 (fun _ => True) waitModeReady :=
  current_runs.lift.andThen fun s hs => by
    subst hs
    exact (timedPoll_runs (.name (by simp [XrMap.all])) _ _).lift.andThen fun _ _ => .require (by decide)

theorem xreadVersion_runs {a : Addr} (h : Apart p a) : Runs p 0 0 (fun _ => True) (xreadVersion a) := fun s hs hp => by
  have hdid : ∀ (r : BusAnswer) (e : Env), afterPollRead s a r e = s.did e [.xread a r] := fun r e => by cases r <;> rfl
  exact ⟨_, _, rfl, trivial, by rw [hdid]; exact .did hs hp (readAnswer_env ..) (.xread h _)⟩

/-! ### Options -/

theorem updateCfg_runs (f : CfgRegs → CfgRegs) : Runs p 0 0 (fun _ => True) (updateCfg f) :=
  update_runs

theorem imageCal_answers : Answers p 0 0 (fun _ => True) imageCal :=
  current_runs.lift.andThen fun s hs => by
    subst hs
    have hcal : Apart s.p s.p.xr.imagecal := .name (by simp [XrMap.all])
    exact (xwrite_runs hcal).lift.andThen fun _ _ => (timedPoll_runs hcal _ _).lift.andThen fun _ _ => .require (by decide)

/-- Writes of other names, then configuration registers. -/
theorem writeThenConfigure_answers {ws : List (Addr × Byte)} {f : CfgRegs → CfgRegs}
    (h : ∀ x ∈ ws, x.1 ∈ p.xr.all.tail) :
    Answers p 0 0 (fun _ => True) (do xwriteAll ws; updateCfg f : R Unit) :=
  (xwriteAll_runs fun x hx => .name (h x hx)).lift.andThen fun _ _ => (updateCfg_runs f).lift

theorem applyOption_answers (o : CfgOption) : Answers p 0 0 (fun _ => True) (applyOption o) := by
  cases o with
  | freq f =>
    show Answers p 0 0 _ (applyFreq f)
    unfold applyFreq
    split
    · exact .raise (by decide)
    · refine current_runs.lift.andThen fun s hs => ?_
      subst hs
      refine (xwriteAll_runs fun x hx => .name ?_).lift.andThen fun _ _ => (updateCfg_runs _).lift.andThen fun _ _ => ?_
      · simp only [List.mem_cons, List.not_mem_nil, or_false] at hx
        rcases hx with rfl | rfl | rfl <;> simp [XrMap.all]
      · split
        · exact imageCal_answers
        · exact .pure trivial
  | bitrate br =>
    show Answers p 0 0 _ (applyBitrate br)
    unfold applyBitrate
    split
    · exact .raise (by decide)
    · refine current_runs.lift.andThen fun s hs => ?_
      subst hs
      exact writeThenConfigure_answers (by simp [XrMap.all])
  | fdev fd =>
    show Answers p 0 0 _ (applyFdev fd)
    unfold applyFdev
    split
    · exact .raise (by decide)
    · refine current_runs.lift.andThen fun s hs => ?_
      subst hs
      exact writeThenConfigure_answers (by simp [XrMap.all])
  | rxbw hz =>
    refine current_runs.lift.andThen fun s hs => ?_
    subst hs
    split
    · exact .raise (by decide)
    · exact (xwrite_runs (.name (by simp [XrMap.all]))).lift.andThen fun _ _ => (updateCfg_runs _).lift
  | afcbw hz =>
    refine current_runs.lift.andThen fun s hs => ?_
    subst hs
    split
    · exact .raise (by decide)
    · exact (xwrite_runs (.name (by simp [XrMap.all]))).lift.andThen fun _ _ => (updateCfg_runs _).lift
  | preamble v =>
    refine current_runs.lift.andThen fun s hs => ?_
    subst hs
    exact writeThenConfigure_answers (by simp [XrMap.all])
  | sync b =>
    show Answers p 0 0 _ (applySync b)
    unfold applySync
    split
    · next hb =>
      refine current_runs.lift.andThen fun s hs => ?_
      subst hs
      have hconfig : Apart s.p s.p.xr.syncconfig := .name (by simp [XrMap.all])
      exact (xwriteAll_runs (.syncWrites hb)).lift.andThen fun _ _ => (xread_runs hconfig).lift.andThen fun _ _ =>
        (xwrite_runs hconfig).lift.andThen fun _ _ => (updateCfg_runs _).lift
    · exact .raise (by decide)
  | pktlen f l => exact (updateCfg_runs _).lift
  | rxcont f => exact (updateCfg_runs _).lift

theorem applyOptions_answers (os : List CfgOption) : Answers p 0 0 (fun _ => True) (applyOptions os) := by
  induction os with
  | nil => exact .pure trivial
  | cons o os ih => exact (applyOption_answers o).andThen fun _ _ => ih

/-! ### Construction -/

theorem resetPulse_runs : Runs p 0 0 (fun _ => True) resetPulse := by
  have pin : ∀ level, Runs p 0 0 (fun _ => True) (pinReset level) := fun level =>
    Runs.andThen update_runs fun _ _ => emit_runs
  have pause : ∀ ms, Runs p 0 0 (fun _ => True) (wait ms) := fun ms => emit_runs
  exact (pin false).andThen fun _ _ => (pause _).andThen fun _ _ => (pin true).andThen fun _ _ =>
    (pause _).andThen fun _ _ => update_runs

theorem versionTries_answers (k : Nat) : ∀ last, Answers p 0 0 (fun _ => True) (versionTries k last) := by
  induction k with
  | zero => exact fun last => .raise (by decide)
  | succ k ih =>
    intro last
    refine current_runs.lift.andThen fun s hs => ?_
    subst hs
    refine (xreadVersion_runs (.name (by simp [XrMap.all]))).lift.andThen fun v _ => ?_
    split
    · exact .pure trivial
    · exact (emit_runs : Runs s.p 0 0 _ (wait _)).lift.andThen fun _ _ => ih v

theorem scratchPattern_answers (pat : Byte) (info : U16) : Answers p 0 0 (fun _ => True) (scratchPattern pat info) :=
  current_runs.lift.andThen fun s hs => by
    subst hs
    exact (xwrite_runs (.scratch _)).lift.andThen fun _ _ => (xread_runs (.scratch _)).lift.andThen fun _ _ =>
      .require (by decide)

theorem scratchVerify_answers : Answers p 0 0 (fun _ => True) scratchVerify :=
  current_runs.lift.andThen fun _ _ => (scratchPattern_answers _ _).andThen fun _ _ => scratchPattern_answers _ _

theorem writeInitTable_runs (htable : initTableOk p = true) : Runs p 0 0 (fun _ => True) writeInitTable :=
  current_runs.andThen fun s hs => by
    subst hs
    rw [if_pos htable]
    exact xwriteAll_runs fun x hx => .initTable hx

theorem constructChip_answers (htable : initTableOk p = true) (os : List CfgOption) :
    Answers p 0 0 (fun _ => True) (constructChip os) :=
  resetPulse_runs.lift.andThen fun _ _ => (versionTries_answers _ _).andThen fun _ _ =>
    scratchVerify_answers.andThen fun _ _ => (writeInitTable_runs htable).lift.andThen fun _ _ => applyOptions_answers os

/-- What a failed construction leaves differs in registers of the block only. -/
theorem orFail_answers {m : R Unit} (h : Answers p 0 0 (fun _ => True) m) : Answers p 0 0 (fun _ => True) (orFail m) :=
  fun s hs hp => by
    obtain ⟨x, t, hm, hx, ht⟩ := h s hs hp
    cases x with
    | ok a => exact ⟨.ok a, t, by show orFail m s = _; simp only [orFail, ExceptT.mk, hm], hx, ht⟩
    | error e =>
      exact ⟨.error e, constructFailed t, by show orFail m s = _; simp only [orFail, ExceptT.mk, hm], hx,
        ⟨ht.trace, ht.healthy, ht.params⟩⟩

theorem startServices_runs : Runs p 0 0 (fun _ => True) startServices :=
  Runs.andThen update_runs fun _ _ => Runs.andThen emit_runs fun _ _ =>
    update_runs

/-! ### Packets -/

theorem setBuf_runs (b : List Byte) : Runs p 0 0 (fun _ => True) (setBuf b) := update_runs

theorem setDecoder_runs (acc : U32) (cnt : Nat) (done : Bool) (v : Option U32) :
    Runs p 0 0 (fun _ => True) (setDecoder acc cnt done v) := update_runs

theorem decodeInto_runs (d : PDecode) : Runs p 0 0 (fun _ => True) (decodeInto d) :=
  .silent _ (fun s => ⟨_, decodeInto_M d s, trivial⟩) fun _ => ⟨rfl, rfl, rfl⟩

theorem pullPacket_runs : Runs p 0 1 (fun _ => True) pullPacket :=
  current_runs.andThen fun s hs => by
    subst hs
    split
    · exact (Runs.pure trivial).mono (Nat.le_refl _) (Nat.zero_le _)
    · exact fifoRead_runs _

theorem readPacket_answers (hasDst : Bool) (cap : Byte) : Answers p 0 1 (fun _ => True) (readPacket hasDst cap) :=
  current_runs.lift.andThen fun s _ => by
    split
    · exact (Answers.pure trivial).mono (Nat.le_refl _) (Nat.zero_le _)
    · split
      · exact (Answers.raise (by decide)).mono (Nat.le_refl _) (Nat.zero_le _)
      · exact pullPacket_runs.lift.andQuiet fun bytes _ => (setBuf_runs bytes).lift.andThen fun _ _ =>
          (Runs.lift update_runs).andThen fun _ _ => receiveIfContinuous_runs.lift.andThen fun _ _ =>
            .pure trivial

theorem writeFrame_runs (payload : List Byte) : Runs p 1 0 (fun _ => True) (writeFrame payload) :=
  current_runs.andThen fun s hs => by
    subst hs
    exact fifoWrite_runs _

theorem transmit_answers (payload : List Byte) : Answers p 1 0 (fun _ => True) (transmit payload) :=
  (setMode_runs _).lift.andThen fun _ _ => waitModeReady_answers.andThen fun _ _ =>
    (writeFrame_runs payload).lift.andQuiet fun _ _ => (Runs.lift update_runs).andThen fun _ _ =>
      (setMode_runs _).lift

end

/-! ### Commands -/

/-- The answer is no exception, as that of every command that does not raise. -/
def PlainAnswer (x : Response) : Prop := ∀ e info, x ≠ .exc e info

theorem PlainAnswer.ok (bs : List Byte) : PlainAnswer (.ok bs) := fun _ _ h => nomatch h

theorem PlainAnswer.noResult (bs : List Byte) : PlainAnswer (.noResult bs) := fun _ _ h => nomatch h

/-- The outcome answers the host once, after the actions of the operation, with E_NOT_READY exactly where the command is not
admitted (30_encoding.md R103, 60_exceptions.md R285, R287). -/
def AnsweredOnce (c : CmdClass) (w r : Nat) (s : State) (o : Host.Outcome State Fault Refusal) : Prop :=
  ∃ (t : State) (acts : List Action) (x : Response), o = .next t ∧ t.io.trace = s.io.trace ++ acts ++ [.respond x] ∧
    Within s.p w r acts ∧ ((∃ n, x = .exc .notReady n) ↔ admits c s.ctl.life = false)

/-- A command whose body, after the admission check, completes within a budget. -/
theorem answeredOnce_of_body {c : CmdClass} {w r : Nat} {s : State} {body : R Response} (hs : BusHealthy s)
    (h : Answers s.p w r PlainAnswer body) : AnsweredOnce c w r s (command (do checkAdmission c; body) s) := by
  rw [command_admission]
  cases hc : admits c s.ctl.life with
  | false =>
    refine ⟨_, [], .exc .notReady (lifeInfo s.ctl.life), rfl, by simp, ?_, by simp [hc]⟩
    exact (Within.nil s.p).mono (Nat.zero_le _) (Nat.zero_le _)
  | true =>
    obtain ⟨x, t, hbody, hx, ht⟩ := h s hs rfl
    obtain ⟨acts, htrace, hacts⟩ := ht.trace
    cases x with
    | ok a =>
      refine ⟨_, acts, a, command_ok hbody, by simp [htrace], hacts, ?_⟩
      simp only [hc, Bool.true_eq_false, iff_false, not_exists]
      exact fun n => hx _ n
    | error e =>
      refine ⟨_, acts, .exc e.code e.info, command_raised hbody, by simp [htrace], hacts, ?_⟩
      simp only [hc, Bool.true_eq_false, iff_false, not_exists]
      exact fun n hn => hx (Response.exc.inj hn).1

/-- How R287 admits a row: INIT, the radio commands with the rows that run as one, and the rest. -/
def rowClass : Instr → CmdClass
  | .init _ => .construct
  | i => if radioOnly i then .radio else .always

theorem admittedIn_eq (i : Instr) (l : Life) : admittedIn i l = admits (rowClass i) l := by
  cases i <;> rfl

section
variable {s : State} (hs : BusHealthy s)
include hs

theorem configureWith_answered (os : List CfgOption) : AnsweredOnce .radio 0 0 s (command (configureWith os) s) :=
  answeredOnce_of_body hs ((applyOptions_answers os).andThen fun _ _ => .pure (.ok _))

theorem execInit_answered (htable : initTableOk s.p = true) (cfg : CfgBody) :
    AnsweredOnce .construct 0 0 s (execInit cfg s) :=
  answeredOnce_of_body hs <|
    (Runs.lift update_runs).andThen fun _ _ => (orFail_answers (constructChip_answers htable _)).andThen fun _ _ =>
      startServices_runs.lift.andThen fun _ _ => receiveIfContinuous_runs.lift.andThen fun _ _ => .pure (.ok _)

theorem writeCommand_answered (hasSize : Bool) (size : Byte) (buf : List Byte) :
    AnsweredOnce .radio 1 0 s (command (writeCommand hasSize size buf) s) :=
  answeredOnce_of_body hs <|
    current_runs.lift.andThen fun _ _ => (Answers.require (by decide)).andThen fun _ _ =>
      (Answers.require (by decide)).andThen fun _ _ => (transmit_answers _).andQuiet fun _ _ => .pure (.ok _)

theorem execRead_answered (hasDst : Bool) (cap : Byte) : AnsweredOnce .radio 0 1 s (execRead hasDst cap s) :=
  answeredOnce_of_body hs <| (readPacket_answers hasDst cap).andQuiet fun bytes _ => by
    cases bytes with
    | none => exact .pure (.noResult _)
    | some bytes => exact .pure (.ok _)

theorem execRecv_answered (hasDst : Bool) (cap : Byte) (chk : Bool) (group : Byte) :
    AnsweredOnce .radio 0 1 s (execRecv hasDst cap chk group s) :=
  answeredOnce_of_body hs <| (Answers.require (by decide)).andThen fun _ _ =>
    (readPacket_answers hasDst cap).andQuiet fun bytes _ => by
      cases bytes with
      | none => exact .pure (.noResult _)
      | some bytes =>
        refine (decodeInto_runs _).lift.andThen fun pk _ => ?_
        cases pk with
        | none => exact .pure (.noResult _)
        | some pk =>
          exact current_runs.lift.andThen fun _ _ => (Runs.lift update_runs).andThen fun _ _ => .pure (.ok _)

theorem execClose_answered : AnsweredOnce .radio 0 0 s (execClose s) :=
  answeredOnce_of_body hs <| (setMode_runs _).lift.andThen fun _ _ => cancelSafety_runs.lift.andThen fun _ _ =>
    (Runs.lift emit_runs).andThen fun _ _ => (Runs.lift update_runs).andThen fun _ _ => .pure (.ok _)

theorem telemetry_answered (f : State → List Byte) : AnsweredOnce .radio 0 0 s (command (telemetry f) s) :=
  answeredOnce_of_body hs <| current_runs.lift.andThen fun t _ => by
    split
    · exact .pure (.ok _)
    · exact .pure (.noResult _)

theorem execStatus_answered : AnsweredOnce .always 0 0 s (execStatus s) :=
  answeredOnce_of_body hs <| current_runs.lift.andThen fun _ _ => .pure (.ok _)

theorem execVdec1_answered (buf : List Byte) : AnsweredOnce .always 0 0 s (execVdec1 buf s) :=
  answeredOnce_of_body hs <| (setBuf_runs buf).lift.andThen fun _ _ => (setDecoder_runs _ _ _ _).lift.andThen fun _ _ => by
    split
    · exact .pure (.ok _)
    · exact .pure (.noResult _)

theorem execVdecall_answered (buf : List Byte) : AnsweredOnce .always 0 0 s (execVdecall buf s) :=
  answeredOnce_of_body hs <| (setBuf_runs buf).lift.andThen fun _ _ => (setDecoder_runs _ _ _ _).lift.andThen fun _ _ =>
    .pure (.ok _)

theorem execVenc_answered (v : U32) : AnsweredOnce .always 0 0 s (execVenc v s) :=
  answeredOnce_of_body hs (.pure (.ok _))

theorem execPdec_answered (chk : Bool) (group : Byte) (buf : List Byte) :
    AnsweredOnce .always 0 0 s (execPdec chk group buf s) :=
  answeredOnce_of_body hs <| (Answers.require (by decide)).andThen fun _ _ => (setBuf_runs buf).lift.andThen fun _ _ =>
    (decodeInto_runs _).lift.andThen fun pk _ => by
      cases pk with
      | none => exact .pure (.noResult _)
      | some pk => exact .pure (.ok _)

theorem execGensync_answered (group : Byte) : AnsweredOnce .always 0 0 s (execGensync group s) :=
  answeredOnce_of_body hs <| (Answers.require (by decide)).andThen fun _ _ =>
    (Runs.lift update_runs).andThen fun _ _ => .pure (.ok _)

theorem execParchk_answered (group byte0 : Byte) : AnsweredOnce .always 0 0 s (execParchk group byte0 s) :=
  answeredOnce_of_body hs <| (Answers.require (by decide)).andThen fun _ _ => .pure (.ok _)

theorem execCfgReserved_answered (mask : U16) (fields : List Byte) :
    AnsweredOnce .radio 0 0 s (execCfgReserved mask fields s) :=
  answeredOnce_of_body hs (.raise (by decide))

/-- Every command, with the transfers on XR_FIFO that WRITE and READ are allowed. -/
theorem exec_answeredOnce (htable : initTableOk s.p = true) {i : Instr} (hi : isCommand i = true) :
    AnsweredOnce (rowClass i) (if isWrite i then 1 else 0) (if isRead i then 1 else 0) s (exec i s) := by
  cases i with
  | init cfg => exact execInit_answered hs htable cfg
  | configure cfg => exact configureWith_answered hs _
  | write hasSize size buf => exact writeCommand_answered hs hasSize size buf
  | read hasDst cap => exact execRead_answered hs hasDst cap
  | close => exact execClose_answered hs
  | recv hasDst cap chk group => exact execRecv_answered hs hasDst cap chk group
  | rxrssi | rxlna | rxafc | rxmargin => exact telemetry_answered hs _
  | status => exact execStatus_answered hs
  | vdec1 buf => exact execVdec1_answered hs buf
  | vdecall buf => exact execVdecall_answered hs buf
  | venc v => exact execVenc_answered hs v
  | pdec chk group buf => exact execPdec_answered hs chk group buf
  | gensync group => exact execGensync_answered hs group
  | parchk group byte0 => exact execParchk_answered hs group byte0
  | cfgFreq | cfgBitrate | cfgFdev | cfgRxbw | cfgAfcbw | cfgPreamble | cfgSync | cfgPktlen | cfgRxcont =>
    exact configureWith_answered hs _
  | cfgReserved mask fields => exact execCfgReserved_answered hs mask fields
  | fifoframe payload => exact writeCommand_answered hs false 0 payload
  | _ => cases hi

end

/-- Settles O56: every command is an admission check and a body, and each body completes on a healthy bus without an answer
of its own and within the budget of its row on XR_FIFO. -/
theorem commandAnsweredOnce : Obligations.CommandAnsweredOnce := by
  intro s i hi hs htable
  obtain ⟨t, acts, r, hexec, htrace, ⟨hresp, hfifo⟩, hready⟩ := exec_answeredOnce hs htable hi
  exact ⟨t, acts, r, hexec, htrace, hresp, by rw [admittedIn_eq]; exact hready, hfifo⟩

end Sys2Proof.Machine
end

section
/-! PROOFS. 40_varint.md: VDEC1, VDECALL, VENC and the laws of their round trip (R131 to R136). -/

namespace Sys2Proof.Machine

/-! ### The three commands -/

/-- What VDEC1 and VDECALL leave in the datapath (log 14, log 16). -/
def Codec.decoded (c : Codec) (buf : List Byte) (acc : U32) (cnt : Nat) (value : Option U32) : Codec :=
  { c with buf := buf, vacc := acc, vcnt := BitVec.ofNat 9 cnt, vdone := true, vval := value.getD c.vval }

theorem exec_vdec1_some {buf : List Byte} {acc v : U32} {cnt : Nat} (h : vdec1 buf = ⟨acc, cnt, some v⟩) (s : State) :
    exec (.vdec1 buf) s = .next (State.emit { s with codec := s.codec.decoded buf acc cnt (some v) }
      (.respond (.ok (bytes32 v ++ [BitVec.ofNat 8 cnt])))) := by
  show execVdec1 buf s = _
  exact command_ok (by simp [h, VDec.consumed, Codec.decoded])

theorem exec_vdec1_none {buf : List Byte} {acc : U32} {cnt : Nat} (h : vdec1 buf = ⟨acc, cnt, none⟩) (s : State) :
    exec (.vdec1 buf) s = .next (State.emit { s with codec := s.codec.decoded buf acc cnt none }
      (.respond (.noResult [0]))) := by
  show execVdec1 buf s = _
  exact command_ok (by simp [h, VDec.consumed, Codec.decoded])

theorem exec_vdecall (buf : List Byte) (s : State) :
    exec (.vdecall buf) s = .next (State.emit
      { s with codec := s.codec.decoded buf (vdecAll buf).acc (vdecAll buf).cnt (vdecAll buf).values.getLast? }
      (.respond (.ok (BitVec.ofNat 8 (vdecAll buf).values.length :: (vdecAll buf).values.flatMap bytes32)))) := by
  show execVdecall buf s = _
  exact command_ok (by simp [Codec.decoded])

theorem exec_venc (v : U32) (s : State) :
    exec (.venc v) s = .next (s.emit (.respond (.ok (BitVec.ofNat 8 (venc v).length :: venc v)))) := by
  show execVenc v s = _
  exact command_ok (by simp [bufferBytes])

/-- Settles O7: the loop stops at the first terminator, or passes every byte where there is none. -/
theorem vdec1Result : Obligations.Vdec1Result :=
  ⟨fun s pre post z hpre hz => exec_vdec1_some (vdec1_found pre post z hpre hz) s,
    fun s buf hbuf => exec_vdec1_none (vdec1_none buf hbuf) s⟩

/-! ### Runs -/

/-- A run: the bytes of one value, the last of them its only terminator (30_encoding.md R90). -/
inductive VarintRun : List Byte → Prop
  | last {z : Byte} (hz : z.getLsbD 7 = true) : VarintRun [z]
  | group {b : Byte} {r : List Byte} (hb : unterminated b) (hr : VarintRun r) : VarintRun (b :: r)

theorem varintRun_iff {r : List Byte} :
    VarintRun r ↔ ∃ pre z, r = pre ++ [z] ∧ (∀ x ∈ pre, unterminated x) ∧ z.getLsbD 7 = true := by
  constructor
  · intro h
    induction h with
    | @last z hz => exact ⟨[], z, rfl, by simp, hz⟩
    | @group b r hb _ ih =>
      obtain ⟨pre, z, rfl, hpre, hz⟩ := ih
      exact ⟨b :: pre, z, rfl, List.forall_mem_cons.2 ⟨hb, hpre⟩, hz⟩
  · rintro ⟨pre, z, rfl, hpre, hz⟩
    induction pre with
    | nil => exact .last hz
    | cons b pre ih =>
      obtain ⟨hb, hpre⟩ := List.forall_mem_cons.1 hpre
      exact .group hb (ih hpre)

theorem not_terminator {b : Byte} (h : unterminated b) : ¬b.getLsbD 7 = true := Bool.eq_false_iff.1 h

theorem VarintRun.ne_nil {r : List Byte} (h : VarintRun r) : r ≠ [] := by cases h <;> simp

/-- A run holds one byte with bit 7 set. -/
theorem VarintRun.countP_terminator {r : List Byte} (h : VarintRun r) : r.countP (fun b => b.getLsbD 7) = 1 := by
  induction h with
  | last hz => simp [hz]
  | group hb _ ih =>
    rw [List.countP_cons_of_neg, ih]
    exact not_terminator hb

/-- The signed value of a run (40_varint.md R131). -/
def runValue (r : List Byte) : U32 := BitVec.ofInt 32 (varintValue (varintCode r))

theorem exec_vdec1_run {r : List Byte} (h : VarintRun r) (s : State) : ∃ c : Codec, exec (.vdec1 r) s =
    .next (State.emit { s with codec := c } (.respond (.ok (bytes32 (runValue r) ++ [BitVec.ofNat 8 r.length])))) := by
  obtain ⟨pre, z, rfl, hpre, hz⟩ := varintRun_iff.1 h
  exact ⟨_, by rw [List.length_append]; exact exec_vdec1_some (vdec1_found pre [] z hpre hz) s⟩

/-- VDECALL's decoder delivers the values of the runs in order; the tail gives nothing. -/
theorem vdecAllFrom_runs {runs : List (List Byte)} {tail : List Byte} (hruns : ∀ r ∈ runs, VarintRun r)
    (htail : ∀ x ∈ tail, unterminated x) (acc : U32) (cnt : Nat) :
    (vdecAllFrom (runs.flatten ++ tail).length acc cnt (runs.flatten ++ tail)).values = runs.map runValue := by
  induction runs generalizing acc cnt with
  | nil => exact vdecAllFrom_none acc cnt tail htail
  | cons r runs ih =>
    obtain ⟨hr, hrest⟩ := List.forall_mem_cons.1 hruns
    obtain ⟨pre, z, rfl, hpre, hz⟩ := varintRun_iff.1 hr
    have hcut : ((pre ++ [z]) :: runs).flatten ++ tail = pre ++ z :: (runs.flatten ++ tail) := by simp
    rw [hcut, vdecAllFrom_found acc cnt pre _ z hpre hz]
    exact congrArg (runValue (pre ++ [z]) :: ·) (ih hrest _ _)

/-- Settles O10: each turn of the loop takes one run and its value, the last turn finds the tail. -/
theorem vdecallResult : Obligations.VdecallResult := by
  intro s runs tail hruns htail values
  have hvalues : (vdecAll (runs.flatten ++ tail)).values = values :=
    vdecAllFrom_runs (fun r hr => varintRun_iff.2 (hruns r hr)) htail 0 0
  exact ⟨_, _, by rw [exec_vdecall, hvalues]; rfl⟩

/-- Every buffer is cut into runs and a tail. -/
theorem exists_runs_tail (buf : List Byte) : ∃ runs tail, buf = List.flatten runs ++ tail ∧
    (∀ r ∈ runs, VarintRun r) ∧ ∀ x ∈ tail, unterminated x := by
  induction buf with
  | nil => exact ⟨[], [], rfl, by simp, by simp⟩
  | cons b buf ih =>
    obtain ⟨runs, tail, rfl, hruns, htail⟩ := ih
    cases hb : b.getLsbD 7 with
    | true => exact ⟨[b] :: runs, tail, rfl, List.forall_mem_cons.2 ⟨.last hb, hruns⟩, htail⟩
    | false =>
      cases runs with
      | nil => exact ⟨[], b :: tail, rfl, hruns, List.forall_mem_cons.2 ⟨hb, htail⟩⟩
      | cons r runs =>
        obtain ⟨hr, hruns⟩ := List.forall_mem_cons.1 hruns
        exact ⟨(b :: r) :: runs, tail, rfl, List.forall_mem_cons.2 ⟨.group hb hr, hruns⟩, htail⟩

/-- A buffer cut into runs and a tail holds one byte with bit 7 set for each run. -/
theorem countP_terminator_runs {runs : List (List Byte)} {tail : List Byte} (hruns : ∀ r ∈ runs, VarintRun r)
    (htail : ∀ x ∈ tail, unterminated x) : (runs.flatten ++ tail).countP (fun b => b.getLsbD 7) = runs.length := by
  have hnone : tail.countP (fun b => b.getLsbD 7) = 0 :=
    List.countP_eq_zero.2 fun x hx => not_terminator (htail x hx)
  have hone : runs.map (List.countP fun b => b.getLsbD 7) = runs.map fun _ => 1 :=
    List.map_congr_left fun r hr => (hruns r hr).countP_terminator
  rw [List.countP_append, hnone, List.countP_flatten, hone]
  simp

/-- Settles O11: cut into runs and a tail, a buffer has a terminator and gives a value for each run. -/
theorem vdecallLength : Obligations.VdecallLength := by
  intro s buf
  obtain ⟨runs, tail, rfl, hruns, htail⟩ := exists_runs_tail buf
  obtain ⟨acc, cnt, hexec⟩ := vdecallResult s runs tail (fun r hr => varintRun_iff.1 (hruns r hr)) htail
  exact ⟨_, _, hexec, by rw [List.length_map, countP_terminator_runs hruns htail]⟩

/-! ### The code of a run before it wraps -/

/-- The 7-bit group of a byte (30_encoding.md R90). -/
def byteGroup (b : Byte) : Nat := b.toNat % 128

/-- The groups of a run as one number, base 128. -/
def runCode (r : List Byte) : Nat := Nat.ofDigits 128 (r.map byteGroup).reverse

/-- The 32-bit accumulator wraps that number (40_varint.md R132). -/
theorem varintCode_eq (r : List Byte) : varintCode r = runCode r % 2 ^ 32 := by
  rw [varintCode, runCode, Nat.ofDigits_eq_foldr, List.foldr_reverse, List.foldl_map]
  simp [byteGroup, Nat.add_comm]

theorem varintCode_lt (r : List Byte) : varintCode r < 2 ^ 32 := Nat.mod_lt _ (by decide)

theorem runCode_singleton (b : Byte) : runCode [b] = byteGroup b := by simp [runCode]

theorem runCode_cons (b : Byte) (r : List Byte) :
    runCode (b :: r) = runCode r + 128 ^ r.length * byteGroup b := by
  simp [runCode, Nat.ofDigits_append]

theorem byteGroup_lt (b : Byte) : byteGroup b < 128 := Nat.mod_lt _ (by decide)

theorem runCode_lt (r : List Byte) : runCode r < 128 ^ r.length := by
  have h := Nat.ofDigits_lt_base_pow_length (b := 128) (l := (r.map byteGroup).reverse) (by decide)
    (by simp [byteGroup_lt])
  simpa [runCode] using h

/-- A byte is its bit 7 and its group. -/
theorem toNat_eq_bit7_add_byteGroup (b : Byte) : b.toNat = 128 * (b.getLsbD 7).toNat + byteGroup b := by
  revert b; decide

theorem byte_ext {x y : Byte} (hbit : x.getLsbD 7 = y.getLsbD 7) (hgroup : byteGroup x = byteGroup y) : x = y :=
  BitVec.eq_of_toNat_eq (by rw [toNat_eq_bit7_add_byteGroup x, toNat_eq_bit7_add_byteGroup y, hbit, hgroup])

theorem toNat_of_unterminated {b : Byte} (h : unterminated b) : b.toNat = byteGroup b := by
  rw [toNat_eq_bit7_add_byteGroup, show b.getLsbD 7 = false from h, Bool.toNat_false, Nat.mul_zero, Nat.zero_add]

/-- A run is fixed by its groups: its terminator is where they end. -/
theorem VarintRun.eq_of_groups {r r' : List Byte} (h : VarintRun r) (h' : VarintRun r')
    (hgroups : r.map byteGroup = r'.map byteGroup) : r = r' := by
  induction h generalizing r' with
  | last hz =>
    cases h' with
    | last hz' => rw [byte_ext (hz.trans hz'.symm) (List.cons.inj hgroups).1]
    | group _ hr' => exact absurd (List.map_eq_nil_iff.1 (List.cons.inj hgroups).2.symm) hr'.ne_nil
  | group hb hr ih =>
    cases h' with
    | last _ => exact absurd (List.map_eq_nil_iff.1 (List.cons.inj hgroups).2) hr.ne_nil
    | group hb' hr' =>
      obtain ⟨hhead, htail⟩ := List.cons.inj hgroups
      rw [byte_ext (Eq.trans hb hb'.symm) hhead, ih hr' htail]

/-- A run is fixed by its length and its code. -/
theorem VarintRun.eq_of_runCode {r r' : List Byte} (h : VarintRun r) (h' : VarintRun r')
    (hlen : r.length = r'.length) (hcode : runCode r = runCode r') : r = r' := by
  refine h.eq_of_groups h' (List.reverse_injective ?_)
  exact Nat.ofDigits_inj_of_len_eq (by decide) (by simpa using hlen) (by simp [byteGroup_lt]) (by simp [byteGroup_lt])
    hcode

/-! ### The groups of a code -/

theorem vgroup_toNat (u : U32) (j : Nat) : (vgroup u j).toNat = u.toNat / 128 ^ j % 128 := by
  have hmask : ∀ b : Byte, (b &&& 0x7F).toNat = b.toNat % 128 := by decide
  rw [vgroup, hmask, BitVec.truncate_eq_setWidth, BitVec.toNat_setWidth, BitVec.toNat_ushiftRight,
    Nat.shiftRight_eq_div_pow, pow_mul]
  exact Nat.mod_mod_of_dvd _ (by decide)

theorem vgroup_unterminated (u : U32) (j : Nat) : unterminated (vgroup u j) := by
  have hmask : ∀ b : Byte, (b &&& 0x7F).getLsbD 7 = false := by decide
  exact hmask _

theorem byteGroup_vgroup (u : U32) (j : Nat) : byteGroup (vgroup u j) = u.toNat / 128 ^ j % 128 := by
  rw [← toNat_of_unterminated (vgroup_unterminated u j), vgroup_toNat]

/-- The terminator bit marks a byte and keeps its group. -/
theorem mark_terminator (b : Byte) : (b ||| 0x80).getLsbD 7 = true ∧ byteGroup (b ||| 0x80) = byteGroup b := by
  revert b; decide

theorem vgroups_run (u : U32) (k : Nat) : VarintRun (vgroups u (k + 1)) := by
  induction k with
  | zero => exact .last (mark_terminator _).1
  | succ k ih => exact .group (vgroup_unterminated u (k + 1)) ih

theorem length_vgroups (u : U32) (k : Nat) : (vgroups u (k + 1)).length = k + 1 := by
  induction k with
  | zero => rfl
  | succ k ih => exact congrArg (· + 1) ih

theorem runCode_vgroups (u : U32) (k : Nat) : runCode (vgroups u (k + 1)) = u.toNat % 128 ^ (k + 1) := by
  induction k with
  | zero => rw [vgroups, runCode_singleton, (mark_terminator _).2, byteGroup_vgroup]; simp
  | succ k ih =>
    rw [vgroups, runCode_cons, ih, length_vgroups, byteGroup_vgroup]
    exact Nat.mod_pow_succ.symm

/-! ### The length of a code -/

theorem vlen_pos (u : U32) : ∃ k, vlen u = k + 1 := by
  unfold vlen
  split_ifs <;> exact ⟨_, rfl⟩

theorem vlen_le (u : U32) : vlen u ≤ 5 := by
  unfold vlen
  split_ifs <;> decide

/-- The bytes of a code hold all of it. -/
theorem lt_pow_vlen (u : U32) : u.toNat < 128 ^ vlen u := by
  have := u.isLt
  unfold vlen
  split_ifs <;> omega

theorem runCode_venc (v : U32) : runCode (venc v) = (vcode v).toNat := by
  have hlt := lt_pow_vlen (vcode v)
  obtain ⟨k, hk⟩ := vlen_pos (vcode v)
  rw [hk] at hlt
  rw [venc, hk, runCode_vgroups, Nat.mod_eq_of_lt hlt]

theorem length_venc (v : U32) : (venc v).length = vlen (vcode v) := by
  obtain ⟨k, hk⟩ := vlen_pos (vcode v)
  rw [venc, hk, length_vgroups]

theorem venc_run (v : U32) : VarintRun (venc v) := by
  obtain ⟨k, hk⟩ := vlen_pos (vcode v)
  rw [venc, hk]
  exact vgroups_run _ k

/-! ### Minimal encodings -/

theorem minimalVarint_last {z : Byte} (hz : z.getLsbD 7 = true) : MinimalVarint [z] :=
  ⟨[], z, rfl, by simp, hz, by simp, by simp⟩

theorem minimalVarint_group_iff {b : Byte} {r : List Byte} (hb : unterminated b) (hr : VarintRun r) :
    MinimalVarint (b :: r) ↔ r.length ≤ 4 ∧ b ≠ 0 ∧ (r.length = 4 → b.toNat ≤ 0x0F) := by
  constructor
  · rintro ⟨pre, z, heq, -, -, hlen, hhead⟩
    cases pre with
    | nil => exact absurd (List.cons.inj heq).2 hr.ne_nil
    | cons y pre =>
      obtain ⟨rfl, rfl⟩ := List.cons.inj heq
      obtain ⟨hzero, hfive⟩ := hhead b rfl
      exact ⟨Nat.le_of_succ_le_succ hlen, hzero, fun h => hfive (congrArg (· + 1) h)⟩
  · rintro ⟨hlen, hzero, hfive⟩
    obtain ⟨pre, z, rfl, hpre, hz⟩ := varintRun_iff.1 hr
    refine ⟨b :: pre, z, rfl, List.forall_mem_cons.2 ⟨hb, hpre⟩, hz, Nat.succ_le_succ hlen, ?_⟩
    rintro y ⟨⟩
    exact ⟨hzero, fun h => hfive (Nat.succ.inj h)⟩

theorem MinimalVarint.run {b : List Byte} : MinimalVarint b → VarintRun b :=
  fun ⟨pre, z, hb, hpre, hz, _, _⟩ => varintRun_iff.2 ⟨pre, z, hb, hpre, hz⟩

/-- A run is minimal where its code does not wrap and VENC gives that code its length. -/
theorem VarintRun.minimalVarint_iff {b : List Byte} (h : VarintRun b) :
    MinimalVarint b ↔ runCode b < 2 ^ 32 ∧ vlen (BitVec.ofNat 32 (runCode b)) = b.length := by
  cases h with
  | @last z hz =>
    have hcode := byteGroup_lt z
    rw [← runCode_singleton] at hcode
    refine iff_of_true (minimalVarint_last hz) ⟨by omega, ?_⟩
    rw [vlen, if_pos (by rw [BitVec.toNat_ofNat]; omega)]
    rfl
  | @group y r hy hr =>
    have hgroup : y ≠ 0 ↔ y.toNat ≠ 0 := not_congr BitVec.toNat_inj.symm
    have hpos : 1 ≤ r.length := List.length_pos_iff.2 hr.ne_nil
    have hrest := runCode_lt r
    have hfirst := byteGroup_lt y
    have hvlen := vlen_le (BitVec.ofNat 32 (runCode (y :: r)))
    rw [minimalVarint_group_iff hy hr, hgroup, toNat_of_unterminated hy, List.length_cons]
    rw [runCode_cons] at hvlen ⊢
    generalize r.length = n at hpos hrest hvlen ⊢
    by_cases hn : n ≤ 4
    · -- The code is the first group at weight 128 ^ n and a rest below that weight.
      rw [vlen, BitVec.toNat_ofNat]
      interval_cases n <;> split_ifs <;> omega
    · omega

/-! ### The signed value of a code -/

/-- The code of a value is the one whose value it is: twice a value from 0 up, the complement of twice a negative one. -/
theorem varintValue_vcode (v : U32) : varintValue (vcode v).toNat = v.toInt := by
  have hlt := v.isLt
  have hshift : (v <<< 1).toNat = 2 * v.toNat % 2 ^ 32 := by
    rw [BitVec.toNat_shiftLeft, Nat.shiftLeft_eq, Nat.mul_comm]
  unfold vcode varintValue
  rw [BitVec.toInt_eq_msb_cond]
  cases hmsb : v.msb with
  | false =>
    have hsmall := BitVec.toNat_lt_of_msb_false hmsb
    have hsign : v.sshiftRight 31 = 0#32 := by
      rw [BitVec.sshiftRight_eq_of_msb_false hmsb]
      exact BitVec.eq_of_toNat_eq (by simp [Nat.shiftRight_eq_div_pow]; omega)
    rw [hsign, BitVec.xor_zero, hshift]
    simp only [Bool.false_eq_true, if_false]
    omega
  | true =>
    have hlarge := BitVec.le_toNat_of_msb_true hmsb
    have hsign : v.sshiftRight 31 = BitVec.allOnes 32 := by
      rw [BitVec.sshiftRight_eq_of_msb_true hmsb]
      exact BitVec.eq_of_toNat_eq (by simp [Nat.shiftRight_eq_div_pow]; omega)
    rw [hsign, BitVec.xor_allOnes, BitVec.toNat_not, hshift]
    simp only [if_true]
    omega

theorem varintValue_injective : Function.Injective varintValue := by
  intro u w h
  unfold varintValue at h
  split_ifs at h <;> omega

/-- The value of a 32-bit code is a signed 32-bit number. -/
theorem toInt_runValue (r : List Byte) : (runValue r).toInt = varintValue (varintCode r) := by
  have hlt := varintCode_lt r
  unfold runValue
  refine BitVec.toInt_ofInt_eq_self (by decide) ?_ ?_ <;> (unfold varintValue; split_ifs <;> omega)

/-- The codes below an even bound are those of the values in a symmetric range. -/
theorem code_lt_iff (u n : Nat) : u < 2 * n ↔ -(n : Int) ≤ varintValue u ∧ varintValue u ≤ n - 1 := by
  unfold varintValue
  split_ifs <;> omega

/-! ### VENC and the round trip -/

theorem varintCode_venc (v : U32) : varintCode (venc v) = (vcode v).toNat := by
  rw [varintCode_eq, runCode_venc, Nat.mod_eq_of_lt (vcode v).isLt]

theorem varintValue_venc (v : U32) : varintValue (varintCode (venc v)) = v.toInt := by
  rw [varintCode_venc, varintValue_vcode]

theorem runValue_venc (v : U32) : runValue (venc v) = v := by
  rw [runValue, varintValue_venc, BitVec.ofInt_toInt]

/-- VDECALL's decoder undoes a concatenation of encodings. -/
theorem vdecAll_flatMap_venc (vs : List U32) : (vdecAll (vs.flatMap venc)).values = vs := by
  have hvalues := vdecAllFrom_runs (runs := vs.map venc) (tail := []) (by simp [venc_run]) (by simp) 0 0
  rw [List.append_nil, ← List.flatMap_def, List.map_map, show runValue ∘ venc = id from funext runValue_venc,
    List.map_id] at hvalues
  exact hvalues

theorem venc_minimal (v : U32) : MinimalVarint (venc v) := by
  refine (venc_run v).minimalVarint_iff.2 ?_
  rw [runCode_venc, length_venc, BitVec.ofNat_toNat, BitVec.setWidth_eq]
  exact ⟨(vcode v).isLt, rfl⟩

/-- The value of a minimal encoding is encoded by it. -/
theorem venc_runValue {b : List Byte} (h : MinimalVarint b) : venc (runValue b) = b := by
  obtain ⟨hwrap, hlen⟩ := h.run.minimalVarint_iff.1 h
  have hcode : (vcode (runValue b)).toNat = runCode b := by
    apply varintValue_injective
    rw [varintValue_vcode, toInt_runValue, varintCode_eq, Nat.mod_eq_of_lt hwrap]
  refine (venc_run _).eq_of_runCode h.run ?_ ((runCode_venc _).trans hcode)
  rw [length_venc, ← hlen, ← hcode, BitVec.ofNat_toNat, BitVec.setWidth_eq]

/-- Settles O8: the groups of the operand's code, from the highest that is not zero, are its minimal encoding. -/
theorem vencResult : Obligations.VencResult := by
  intro s v
  refine ⟨venc v, exec_venc v s, venc_minimal v, varintValue_venc v, ?_⟩
  have hrange (n : Nat) := code_lt_iff (vcode v).toNat n
  rw [varintValue_vcode] at hrange
  rw [length_venc]
  exact if_congr (hrange 64) rfl (if_congr (hrange 8192) rfl (if_congr (hrange 1048576) rfl
    (if_congr (hrange 134217728) rfl rfl)))

/-- Settles O9: VENC gives the minimal run of its operand's code, the decoder gives a run's value, and a minimal run is
the one VENC gives its value. -/
theorem varintRoundTrips : Obligations.VarintRoundTrips := by
  refine ⟨fun s v => ?_, fun s vs _ => ?_, fun s b hb => ?_, fun v w h => ?_, by decide⟩
  · obtain ⟨c, hc⟩ := exec_vdec1_run (venc_run v) s
    rw [runValue_venc] at hc
    exact ⟨c, hc⟩
  · rw [exec_vdecall, vdecAll_flatMap_venc]
    exact ⟨_, rfl⟩
  · obtain ⟨c, hc⟩ := exec_vdec1_run hb.run s
    exact ⟨_, c, hc, venc_runValue hb⟩
  · rw [← runValue_venc v, h, runValue_venc]

end Sys2Proof.Machine
end

section
/-! PROOFS. 41_packet_codec.md: the parity of a group, GENSYNC and PARCHK (R160 to R162). -/

namespace Sys2Proof.Machine

/-! ### Group operands -/

theorem groupOk_eq_true {g : Byte} : groupOk g = true ↔ g.toNat ≤ 63 := decide_eq_true_iff

/-- An admitted command that next checks its group operand (R150, R160, 60_exceptions.md R285). -/
theorem command_require_badArg {c : CmdClass} {s : State} (hc : admits c s.ctl.life = true) (ok : Bool)
    (body : R Response) : command (do checkAdmission c; require ok .badArg badArgInfo; body) s =
      if ok then command body s else .next (s.emit (.respond (.exc .badArg 0xFF))) := by
  rw [command_admission, if_pos hc]
  cases ok
  · rfl
  · simp [command]

/-! ### Parity -/

/-- Settles O13: a finite fact, evaluated on every byte. -/
theorem parityFunction : Obligations.ParityFunction := by
  unfold Obligations.ParityFunction
  decide

theorem flagByte_parityMatches (g b : Byte) :
    flagByte (parityMatches g b) = if b &&& 0xC0 = groupParity g then 1 else 0 := by
  simp [flagByte, parityMatches]

/-- The top two bits of a byte take one of four values. -/
theorem topBits_cases : ∀ b : Byte, b &&& 0xC0 ∈ [(0x00 : Byte), 0x40, 0x80, 0xC0] := by decide

/-- Each of the four values is the parity of 16 of the 64 groups (R162). -/
theorem groups_of_parity : ∀ p ∈ [(0x00 : Byte), 0x40, 0x80, 0xC0],
    ((List.range 64).filter fun g => p == groupParity (BitVec.ofNat 8 g)).length = 16 := by decide

/-! ### The commands -/

/-- Settles O14: the group check, then SY of the group and its four bytes. -/
theorem gensyncResult : Obligations.GensyncResult := by
  intro s g
  refine (command_require_badArg rfl (groupOk g) _).trans ?_
  simp only [groupOk_eq_true]
  rfl

/-- Settles O15: the group check, then the comparison; each value of the top two bits is the parity of 16 groups. -/
theorem parchkResult : Obligations.ParchkResult := by
  refine ⟨fun s g b => ?_, fun b => groups_of_parity _ (topBits_cases b)⟩
  refine (command_require_badArg rfl (groupOk g) _).trans ?_
  simp only [groupOk_eq_true, ← flagByte_parityMatches]
  rfl

end Sys2Proof.Machine
end

section
/-! PROOFS. 41_packet_codec.md: PDEC (R150 to R159). -/

namespace Sys2Proof.Machine

/-! ### PDEC around its decoders -/

/-- The answer to a decode (30_encoding.md R104, 60_exceptions.md R282). -/
def decodeAnswer : Option Packet → Response
  | some pk => .ok (recordLayout pk)
  | none => .noResult []

theorem chkGroupOk_eq_true {chk : Bool} {g : Byte} : chkGroupOk chk g = true ↔ ¬(chk = true ∧ 63 < g.toNat) := by
  cases chk <;> simp [chkGroupOk, groupOk]

/-- A command that next checks its group where `chk` asks for it (R150, R165). -/
theorem command_require_group {c : CmdClass} {s : State} (hc : admits c s.ctl.life = true) (chk : Bool) (g : Byte)
    (body : R Response) : command (do checkAdmission c; require (chkGroupOk chk g) .badArg badArgInfo; body) s =
      if chk = true ∧ 63 < g.toNat then .next (s.emit (.respond (.exc .badArg 0xFF))) else command body s := by
  rw [command_require_badArg hc]
  simp only [chkGroupOk_eq_true, ite_not]

/-- PDEC: the group is checked where it is used, then the decode is left in the datapath and answered (R150). -/
theorem exec_pdec (chk : Bool) (g : Byte) (buf : List Byte) (s : State) : exec (.pdec chk g buf) s =
    if chk = true ∧ 63 < g.toNat then .next (s.emit (.respond (.exc .badArg 0xFF)))
    else .next (State.emit { s with codec := s.codec.took buf (decodePacket chk g buf) }
      (.respond (decodeAnswer (decodePacket chk g buf).pk))) := by
  refine (command_require_group rfl chk g _).trans ?_
  congr 1
  generalize decodePacket chk g buf = d
  cases hd : d.pk <;>
    exact command_ok (by simp [decodeInto_M, hd, Codec.took, decodeAnswer, packetBytes_eq])

/-- PDEC of a buffer whose decode has no result. -/
theorem exec_pdec_none {chk : Bool} {g : Byte} {buf : List Byte} (hg : ¬(chk = true ∧ 63 < g.toNat))
    (h : (decodePacket chk g buf).pk = none) (s : State) : ∃ (acc : U32) (cnt : BitVec 9),
    exec (.pdec chk g buf) s = .next (State.emit
      { s with codec := { s.codec with buf := buf, vacc := acc, vcnt := cnt, vdone := true } }
      (.respond (.noResult []))) := by
  rw [exec_pdec, if_neg hg, Codec.took, h]
  exact ⟨_, _, rfl⟩

/-- PDEC of a buffer whose decode has a record. -/
theorem exec_pdec_some {chk : Bool} {g : Byte} {buf : List Byte} {pk : Packet} (hg : ¬(chk = true ∧ 63 < g.toNat))
    (h : (decodePacket chk g buf).pk = some pk) (s : State) : ∃ (acc : U32) (cnt : BitVec 9),
    exec (.pdec chk g buf) s = .next (State.emit
      { s with codec := { s.codec with buf := buf, pk := pk, vacc := acc, vcnt := cnt, vdone := true } }
      (.respond (.ok (recordLayout pk)))) := by
  rw [exec_pdec, if_neg hg, Codec.took, h]
  exact ⟨_, _, rfl⟩

/-! ### Which decoder -/

theorem decodePacket_short {chk : Bool} {g : Byte} {buf : List Byte} (h : buf.length < 3) :
    decodePacket chk g buf = ⟨none, 0, 0⟩ := if_pos h

theorem decodePacket_mismatch {g b0 : Byte} {tl : List Byte} (h : b0 &&& 0xC0 ≠ groupParity g) :
    decodePacket true g (b0 :: tl) = ⟨none, 0, 0⟩ := by
  have hparity : parityMatches g (at' (b0 :: tl) 0) = false := beq_eq_false_iff_ne.2 h
  simp [decodePacket, hparity]

/-- A buffer of 3 bytes or more that passes the parity check goes to the decoder of its version (R150, R151). -/
theorem decodePacket_passed {chk : Bool} {g b0 b1 b2 : Byte} {rest : List Byte}
    (h : chk = true → b0 &&& 0xC0 = groupParity g) :
    decodePacket chk g (b0 :: b1 :: b2 :: rest) =
      if isV1 b0 b1 then decodeV1 (b0 :: b1 :: b2 :: rest) else decodeV2 (b0 :: b1 :: b2 :: rest) := by
  rw [decodePacket, if_neg (by simp), if_neg (by simpa [parityMatches, at'] using h), decodeVersioned]
  rfl

theorem isV1_eq_true {b0 b1 : Byte} : isV1 b0 b1 = true ↔
    (b0 &&& 0x3F = 0 ∧ b1 &&& 0x3F = 61) ∨ (b0 &&& 0x3F = 61 ∧ b1 &&& 0x3F = 0) := by
  simp [isV1, Config.v1Magic]

/-- Settles O16: the checks of the group, the length and the parity come before both decoders. -/
theorem pdecNoResult : Obligations.PdecNoResult := by
  intro s chk g buf
  refine ⟨fun hbad => by rw [exec_pdec, if_pos hbad], fun ⟨hgroup, hearly⟩ => ?_⟩
  have hnone : decodePacket chk g buf = ⟨none, 0, 0⟩ := by
    obtain hshort | ⟨rfl, b0, tl, rfl, hparity⟩ := hearly
    · exact decodePacket_short hshort
    · exact decodePacket_mismatch hparity
  rw [exec_pdec, if_neg hgroup, hnone]
  rfl

/-! ### The record of a header and a payload -/

/-- What VACC and VCNT hold before leaves no trace in the values VDECALL's decoder delivers. -/
theorem vdecAllFrom_values (acc : U32) (cnt : Nat) (buf : List Byte) :
    (vdecAllFrom buf.length acc cnt buf).values = (vdecAll buf).values := by
  cases buf <;> rfl

/-- A record whose header is decoded, with what follows its `k` header bytes: a payload that ends before the trailer, its
data after `skip` bytes of it, and the trailer (R157, R158). -/
def Packet.carrying (pk : Packet) (k skip : Nat) (tr : Bool) (pay : List Byte) : Packet :=
  let e := payloadEnd tr pay.length
  { pk with
    payOff := BitVec.ofNat 8 k, payLen := BitVec.ofNat 8 e, dataOff := BitVec.ofNat 8 (k + skip),
    data := (vdecAll ((pay.take e).drop skip)).values, trlV := tr,
    rmargin := if tr then (pay.getD e 0).extractLsb' 0 6 else pk.rmargin,
    rfei := if tr then BitVec.ofInt 32 (128 * (pay.getD (e + 1) 0).toInt) else pk.rfei }

/-- The header of a V1 packet (R152). -/
def headerV1 (gw : Bool) (b1 b2 : Byte) : Packet :=
  { Packet.zero with fromGw := gw, isAck := gw, wantAck := b1.getLsbD 7, type := b2.extractLsb' 0 7 }

/-- The header of a node's V1 packet that names its node (R154). -/
def headerV1Node (b1 b2 : Byte) (node : U32) : Packet := { headerV1 false b1 b2 with nodeV := true, node := node }

/-- The header of a V2 packet (R155, R156). -/
def headerV2 (b0 b1 b2 b3 b4 b5 : Byte) : Packet :=
  { Packet.zero with
    ver := true, isAck := b0.getLsbD 5 && !b0.getLsbD 3, fromGw := b0.getLsbD 4,
    wantAck := !b0.getLsbD 5 && b0.getLsbD 3, type := b5.extractLsb' 0 7, nodeV := true, node := b1 ++ b2 ++ b3 ++ b4 }

theorem at'_append (hdr pay : List Byte) (i : Nat) : at' (hdr ++ pay) (hdr.length + i) = pay.getD i 0 := by
  rw [at', List.getD_append_right _ _ _ _ (Nat.le_add_right ..), Nat.add_sub_cancel_left]

theorem slice_append (hdr pay : List Byte) (i e : Nat) :
    slice (hdr ++ pay) (hdr.length + i) (hdr.length + e) = (pay.take e).drop i := by
  rw [slice, List.take_length_add_append, List.drop_length_add_append]

theorem payloadEnd_add {tr : Bool} {n : Nat} (k : Nat) (h : tr = true → 2 ≤ n) :
    payloadEnd tr (n + k) = k + payloadEnd tr n := by
  rw [Nat.add_comm]
  cases tr
  · rfl
  · exact Nat.add_sub_assoc (h rfl) k

/-- A payload that is not too short for its trailer has room for it. -/
theorem room_of_not_cut {tr : Bool} {n : Nat} (h : ¬(tr = true ∧ n < 2)) : tr = true → 2 ≤ n :=
  fun htr => Nat.not_lt.1 fun hn => h ⟨htr, hn⟩

/-- What is left of a payload holds a byte only where the trailer had room. -/
theorem room_of_payload {tr : Bool} {n : Nat} (h : 1 < payloadEnd tr n) : tr = true → 2 ≤ n := by
  rintro rfl
  have : 1 < n - 2 := h
  omega

/-- The data region and the trailer of a buffer cut after its header. -/
theorem finishPacket_append (pk : Packet) (hdr pay : List Byte) (skip : Nat) {tr : Bool} (acc : U32) (cnt : Nat)
    (hroom : tr = true → 2 ≤ pay.length) :
    (finishPacket
      { pk with payOff := BitVec.ofNat 8 hdr.length, payLen := BitVec.ofNat 8 (payloadEnd tr pay.length) }
      (hdr ++ pay) (hdr.length + skip) (hdr.length + payloadEnd tr pay.length) tr acc cnt).pk =
      some (pk.carrying hdr.length skip tr pay) := by
  simp only [finishPacket, slice_append, vdecAllFrom_values]
  cases tr with
  | false => rfl
  | true =>
    have hlen := hroom rfl
    have hmargin : (hdr ++ pay).length - 2 = hdr.length + (pay.length - 2) := by rw [List.length_append]; omega
    have hfei : (hdr ++ pay).length - 1 = hdr.length + (pay.length - 2 + 1) := by rw [List.length_append]; omega
    rw [hmargin, hfei, at'_append, at'_append, withTrailer, if_pos rfl, trailerFei_eq]
    rfl

/-! ### V2 -/

theorem decodeV2_short {buf : List Byte} (h : buf.length < 6) : (decodeV2 buf).pk = none := by
  rw [decodeV2, if_pos h]

section
variable {b0 b1 b2 b3 b4 b5 : Byte} {pay : List Byte}

theorem decodeV2_cut (htr : b5.getLsbD 7 = true) (hlen : pay.length < 2) :
    (decodeV2 (b0 :: b1 :: b2 :: b3 :: b4 :: b5 :: pay)).pk = none := by
  have hcut : b5.getLsbD 7 = true ∧ pay.length + 6 < 8 := ⟨htr, by omega⟩
  have hlong : ¬pay.length + 6 < 6 := by omega
  simp only [decodeV2, at', List.length_cons, List.getD_cons_zero, List.getD_cons_succ, if_neg hlong, if_pos hcut]

/-- The flags of a V2 packet's first byte, each by its mask (R155). -/
theorem v2Flags : ∀ b : Byte, (b &&& 0x28 == 0x20) = (b.getLsbD 5 && !b.getLsbD 3) ∧
    (b &&& 0x10 != 0) = b.getLsbD 4 ∧ (b &&& 0x28 == 0x08) = (!b.getLsbD 5 && b.getLsbD 3) := by decide

/-- A V2 packet with room for its trailer. -/
theorem decodeV2_record (hroom : b5.getLsbD 7 = true → 2 ≤ pay.length) :
    (decodeV2 (b0 :: b1 :: b2 :: b3 :: b4 :: b5 :: pay)).pk =
      some ((headerV2 b0 b1 b2 b3 b4 b5).carrying 6 0 (b5.getLsbD 7) pay) := by
  have hlong : ¬pay.length + 6 < 6 := by omega
  have hcut : ¬(b5.getLsbD 7 = true ∧ pay.length + 6 < 8) := fun ⟨h, hl⟩ => by have := hroom h; omega
  obtain ⟨hisAck, hfromGw, hwantAck⟩ := v2Flags b0
  refine Eq.trans ?_ (finishPacket_append (headerV2 b0 b1 b2 b3 b4 b5) [b0, b1, b2, b3, b4, b5] pay 0 0 0 hroom)
  simp only [decodeV2, at', List.length_cons, List.getD_cons_zero, List.getD_cons_succ, if_neg hlong, if_neg hcut,
    hisAck, hfromGw, hwantAck, payloadEnd_add 6 hroom, Nat.add_sub_cancel_left]
  rfl

end

/-! ### V1 -/

section
variable {b0 b1 b2 : Byte} {pay : List Byte}

theorem decodeV1_cut (htr : b2.getLsbD 7 = true) (hlen : pay.length < 2) :
    (decodeV1 (b0 :: b1 :: b2 :: pay)).pk = none := by
  have hcut : b2.getLsbD 7 = true ∧ pay.length + 3 < 5 := ⟨htr, by omega⟩
  simp only [decodeV1, at', List.length_cons, List.getD_cons_zero, List.getD_cons_succ, if_pos hcut]

/-- A V1 packet with room for its trailer: the node is looked for in a node's payload of more than one byte (R152,
R154). -/
theorem decodeV1_record (hroom : b2.getLsbD 7 = true → 2 ≤ pay.length) :
    let d := vdec1 (pay.take (payloadEnd (b2.getLsbD 7) pay.length))
    (decodeV1 (b0 :: b1 :: b2 :: pay)).pk =
      if b0 &&& 0x3F = 0 ∧ 1 < payloadEnd (b2.getLsbD 7) pay.length then
        d.value.elim (some ((headerV1 false b1 b2).carrying 3 0 (b2.getLsbD 7) pay)) fun v =>
          if 5 < d.cnt then none
          else some ((headerV1Node b1 b2 v).carrying 3 d.cnt (b2.getLsbD 7) pay)
      else some ((headerV1 (b0 &&& 0x3F != 0) b1 b2).carrying 3 0 (b2.getLsbD 7) pay) := by
  intro d
  have hcut : ¬(b2.getLsbD 7 = true ∧ pay.length + 3 < 5) := fun ⟨h, hl⟩ => by have := hroom h; omega
  have hslice : slice (b0 :: b1 :: b2 :: pay) 3 (3 + payloadEnd (b2.getLsbD 7) pay.length) =
      pay.take (payloadEnd (b2.getLsbD 7) pay.length) := slice_append [b0, b1, b2] pay 0 _
  have hfinish := fun pk skip acc cnt => finishPacket_append pk [b0, b1, b2] pay skip acc cnt hroom
  simp only [decodeV1, at', List.length_cons, List.getD_cons_zero, List.getD_cons_succ, if_neg hcut,
    payloadEnd_add 3 hroom, Nat.add_sub_cancel_left, hslice, Bool.not_eq_true', bne_eq_false_iff_eq]
  split
  · next hnode =>
    rw [hnode.1]
    change _ = d.value.elim _ _
    cases hv : d.value with
    | none => exact hfinish (headerV1 false b1 b2) 0 _ _
    | some v =>
      have hconsumed : d.consumed = d.cnt := by rw [VDec.consumed, hv]; rfl
      rw [hconsumed]
      show (if 5 < d.cnt then _ else _ : PDecode).pk = if 5 < d.cnt then _ else _
      split
      · rfl
      · exact hfinish (headerV1Node b1 b2 v) d.cnt _ _
  · exact hfinish (headerV1 (b0 &&& 0x3F != 0) b1 b2) 0 _ _

/-- A gateway's packet, or a payload too short for a node. -/
theorem decodeV1_plain (hroom : b2.getLsbD 7 = true → 2 ≤ pay.length)
    (hplain : ¬(b0 &&& 0x3F = 0 ∧ 1 < payloadEnd (b2.getLsbD 7) pay.length)) :
    (decodeV1 (b0 :: b1 :: b2 :: pay)).pk =
      some ((headerV1 (b0 &&& 0x3F != 0) b1 b2).carrying 3 0 (b2.getLsbD 7) pay) :=
  (decodeV1_record hroom).trans (if_neg hplain)

/-- A node's payload without a terminator: the node is absent. -/
theorem decodeV1_unterminated (h0 : b0 &&& 0x3F = 0) (he : 1 < payloadEnd (b2.getLsbD 7) pay.length)
    (hpay : ∀ x ∈ pay.take (payloadEnd (b2.getLsbD 7) pay.length), unterminated x) :
    (decodeV1 (b0 :: b1 :: b2 :: pay)).pk = some ((headerV1 false b1 b2).carrying 3 0 (b2.getLsbD 7) pay) := by
  rw [decodeV1_record (room_of_payload he), if_pos ⟨h0, he⟩, vdec1_none _ hpay]
  rfl

/-- A node's payload whose first run ends at `z`: the node of at most 5 bytes, or no result. -/
theorem decodeV1_run {node region : List Byte} {z : Byte} (h0 : b0 &&& 0x3F = 0)
    (he : 1 < payloadEnd (b2.getLsbD 7) pay.length)
    (hpay : pay.take (payloadEnd (b2.getLsbD 7) pay.length) = node ++ z :: region)
    (hnode : ∀ x ∈ node, unterminated x) (hz : z.getLsbD 7 = true) :
    (decodeV1 (b0 :: b1 :: b2 :: pay)).pk =
      if 5 < node.length + 1 then none
      else some ((headerV1Node b1 b2 (runValue (node ++ [z]))).carrying 3 (node.length + 1) (b2.getLsbD 7) pay) := by
  rw [decodeV1_record (room_of_payload he), if_pos ⟨h0, he⟩, hpay, vdec1_found node region z hnode hz]
  rfl

end

/-! ### What PDEC answers -/

/-- The group operand is not refused where the parity check is passed with one up to 63. -/
theorem group_admitted {chk : Bool} {g b0 : Byte} (h : chk = true → g.toNat ≤ 63 ∧ b0 &&& 0xC0 = groupParity g) :
    ¬(chk = true ∧ 63 < g.toNat) := fun ⟨hchk, hg⟩ => Nat.not_lt.2 (h hchk).1 hg

/-- Settles O17: a V2 buffer is cut after its six header bytes; what comes before the cut gives the header's fields. -/
theorem pdecV2Result : Obligations.PdecV2Result := by
  intro s chk g b0 b1 b2 rest hchk hpattern buf
  have hgroup := group_admitted hchk
  have hdecode : decodePacket chk g buf = decodeV2 buf := by
    rw [decodePacket_passed fun h => (hchk h).2, if_neg (mt isV1_eq_true.1 hpattern)]
  constructor
  · intro hshort
    refine exec_pdec_none hgroup ?_ s
    rw [hdecode]
    obtain hlen | ⟨b3, b4, b5, pay, rfl, htr, hlen⟩ := hshort
    · exact decodeV2_short (Nat.add_lt_add_right hlen 3)
    · exact decodeV2_cut htr hlen
  · rintro b3 b4 b5 pay rfl hroom
    exact exec_pdec_some hgroup (by rw [hdecode]; exact decodeV2_record hroom) s

/-- A V1 buffer that passes the parity check goes to the V1 decoder (R151). -/
theorem decodePacket_v1 {chk : Bool} {g b0 b1 b2 : Byte} {pay : List Byte}
    (hchk : chk = true → g.toNat ≤ 63 ∧ b0 &&& 0xC0 = groupParity g)
    (h : (b0 &&& 0x3F = 0 ∧ b1 &&& 0x3F = 61) ∨ (b0 &&& 0x3F = 61 ∧ b1 &&& 0x3F = 0)) :
    decodePacket chk g (b0 :: b1 :: b2 :: pay) = decodeV1 (b0 :: b1 :: b2 :: pay) := by
  rw [decodePacket_passed fun h => (hchk h).2, if_pos (isV1_eq_true.2 h)]

/-- Settles O18: a gateway's V1 buffer is cut after its three header bytes; no node is looked for. -/
theorem pdecV1GatewayResult : Obligations.PdecV1GatewayResult := by
  intro s chk g b0 b1 b2 pay hchk h0 h1 buf trailer e pk
  have hgroup := group_admitted hchk
  have hdecode : decodePacket chk g buf = decodeV1 buf := decodePacket_v1 hchk (.inr ⟨h0, h1⟩)
  have hgw : b0 &&& 0x3F ≠ 0 := by rw [h0]; decide
  split
  · next hcut =>
    exact exec_pdec_none hgroup (by rw [hdecode]; exact decodeV1_cut hcut.1 hcut.2) s
  · next hcut =>
    refine exec_pdec_some hgroup ?_ s
    rw [hdecode, decodeV1_plain (room_of_not_cut hcut) fun h => hgw h.1, h0]
    rfl

/-- Settles O19: a node's V1 buffer is cut after its three header bytes, and its payload after the first run, if there is
one. -/
theorem pdecV1NodeResult : Obligations.PdecV1NodeResult := by
  intro s chk g b0 b1 b2 pay hchk h0 h1 buf trailer e pk answers dropped
  have hgroup := group_admitted hchk
  have hdecode : decodePacket chk g buf = decodeV1 buf := decodePacket_v1 hchk (.inl ⟨h0, h1⟩)
  refine ⟨fun hcut => ?_, fun hcut he => ?_, fun he hpay => ?_, fun node z region he hpay hnode hz => ?_⟩
  · exact exec_pdec_none hgroup (by rw [hdecode]; exact decodeV1_cut hcut.1 hcut.2) s
  · refine exec_pdec_some hgroup ?_ s
    rw [hdecode, decodeV1_plain (room_of_not_cut hcut) fun h => Nat.not_lt.2 he h.2, h0]
    rfl
  · exact ⟨exec_pdec_some hgroup (by rw [hdecode]; exact decodeV1_unterminated h0 he hpay) s,
      vdecAllFrom_none 0 0 _ hpay⟩
  · have hrun := decodeV1_run (b1 := b1) h0 he hpay hnode hz
    rw [← hdecode] at hrun
    constructor
    · intro hlen
      refine exec_pdec_some hgroup (hrun.trans ?_) s
      have hregion : (pay.take e).drop (node.length + 1) = region := by
        rw [hpay, List.drop_length_add_append]
        rfl
      rw [if_neg (by omega), ← hregion, show 4 + node.length = 3 + (node.length + 1) by omega]
      rfl
    · exact fun hlen => exec_pdec_none hgroup (hrun.trans (if_pos (by omega))) s

/-! ### The record of any buffer -/

/-- A record without link quality whose regions lie inside a buffer of `n` bytes, the data inside the payload
(10_state.md R35, 41_packet_codec.md R159). -/
def Packet.Inside (n : Nat) (pk : Packet) : Prop :=
  pk.lqV = false ∧ pk.data.length ≤ 252 ∧ pk.payOff.toNat + pk.payLen.toNat ≤ n ∧
  pk.payOff.toNat ≤ pk.dataOff.toNat ∧ pk.dataOff.toNat ≤ pk.payOff.toNat + pk.payLen.toNat

/-- VDECALL's decoder delivers a value for each terminator (40_varint.md R134). -/
theorem length_vdecAll (buf : List Byte) : (vdecAll buf).values.length = buf.countP fun b => b.getLsbD 7 := by
  obtain ⟨runs, tail, rfl, hruns, htail⟩ := exists_runs_tail buf
  rw [countP_terminator_runs hruns htail, vdecAll, vdecAllFrom_runs hruns htail, List.length_map]

theorem payloadEnd_le (tr : Bool) (n : Nat) : payloadEnd tr n ≤ n := by
  cases tr
  · exact Nat.le_refl n
  · exact Nat.sub_le n 2

theorem Packet.carrying_inside {pk : Packet} {k skip : Nat} {tr : Bool} {pay : List Byte} (hlq : pk.lqV = false)
    (hk : 3 ≤ k) (hskip : skip ≤ payloadEnd tr pay.length) (hlen : pay.length + k ≤ 255) :
    (pk.carrying k skip tr pay).Inside (pay.length + k) := by
  have he := payloadEnd_le tr pay.length
  have hdata : (vdecAll ((pay.take (payloadEnd tr pay.length)).drop skip)).values.length ≤ payloadEnd tr pay.length := by
    rw [length_vdecAll]
    refine List.countP_le_length.trans ?_
    rw [List.length_drop, List.length_take]
    omega
  refine ⟨hlq, hdata.trans (by omega), ?_⟩
  simp only [Packet.carrying, BitVec.toNat_ofNat]
  omega

section
variable {b0 b1 b2 : Byte} {pay : List Byte} {pk : Packet}

theorem decodeV1_inside (hlen : pay.length + 3 ≤ 255) (h : (decodeV1 (b0 :: b1 :: b2 :: pay)).pk = some pk) :
    pk.Inside (pay.length + 3) := by
  by_cases hcut : b2.getLsbD 7 = true ∧ pay.length < 2
  · rw [decodeV1_cut hcut.1 hcut.2] at h
    cases h
  by_cases hsearch : b0 &&& 0x3F = 0 ∧ 1 < payloadEnd (b2.getLsbD 7) pay.length
  · obtain ⟨h0, he⟩ := hsearch
    obtain hpay | ⟨node, z, region, hpay, hnode, hz⟩ :=
      terminator_cases (pay.take (payloadEnd (b2.getLsbD 7) pay.length))
    · rw [decodeV1_unterminated h0 he hpay] at h
      cases h
      exact Packet.carrying_inside rfl (by decide) (Nat.zero_le _) hlen
    · rw [decodeV1_run h0 he hpay hnode hz] at h
      split at h
      · cases h
      · cases h
        refine Packet.carrying_inside rfl (by decide) ?_ hlen
        have hsplit := congrArg List.length hpay
        rw [List.length_take, List.length_append, List.length_cons] at hsplit
        omega
  · rw [decodeV1_plain (room_of_not_cut hcut) hsearch] at h
    cases h
    exact Packet.carrying_inside rfl (by decide) (Nat.zero_le _) hlen

theorem decodeV2_inside {buf : List Byte} (hlen : buf.length ≤ 255) (h : (decodeV2 buf).pk = some pk) :
    pk.Inside buf.length := by
  match buf with
  | b0 :: b1 :: b2 :: b3 :: b4 :: b5 :: pay =>
    by_cases hcut : b5.getLsbD 7 = true ∧ pay.length < 2
    · rw [decodeV2_cut hcut.1 hcut.2] at h
      cases h
    · rw [decodeV2_record (room_of_not_cut hcut)] at h
      cases h
      exact Packet.carrying_inside rfl (by decide) (Nat.zero_le _) hlen
  | [] | [_] | [_, _] | [_, _, _] | [_, _, _, _] | [_, _, _, _, _] => cases h

theorem decodePacket_inside {chk : Bool} {g : Byte} {buf : List Byte} (hlen : buf.length ≤ 255)
    (h : (decodePacket chk g buf).pk = some pk) : pk.Inside buf.length := by
  match buf with
  | b0 :: b1 :: b2 :: pay =>
    by_cases hparity : chk = true → b0 &&& 0xC0 = groupParity g
    · rw [decodePacket_passed hparity] at h
      split at h
      · exact decodeV1_inside hlen h
      · exact decodeV2_inside hlen h
    · obtain ⟨rfl, hne⟩ := Classical.not_imp.1 hparity
      rw [decodePacket_mismatch hne] at h
      cases h
  | [] | [_] | [_, _] => cases h

end

/-- Settles O20: the decode is total, and the regions of its record come from one cut of the buffer. -/
theorem pdecSound : Obligations.PdecSound := by
  intro s chk g buf hlen
  by_cases hgroup : chk = true ∧ 63 < g.toNat
  · exact ⟨s.codec, _, by rw [exec_pdec, if_pos hgroup], rfl, .inl ⟨rfl, .inr rfl⟩⟩
  · refine ⟨s.codec.took buf (decodePacket chk g buf), decodeAnswer (decodePacket chk g buf).pk,
      by rw [exec_pdec, if_neg hgroup], rfl, ?_⟩
    rw [Codec.took]
    cases hd : (decodePacket chk g buf).pk with
    | none => exact .inl ⟨rfl, .inl rfl⟩
    | some pk => exact .inr ⟨rfl, decodePacket_inside hlen hd⟩

end Sys2Proof.Machine
end

section
/-! PROOFS. 41_packet_codec.md R165: RECV, with the link quality of the last capture (43_radio_rx_tx.md R240, R242,
44_rssi_tracker.md R270). -/

namespace Sys2Proof.Machine

/-! ### Link quality in arithmetic -/

theorem rssiHalfDbm_eq (s : State) : rssiHalfDbm s = BitVec.ofInt 16 (-(s.rx.rssi.toNat : Int)) := by
  rw [BitVec.ofInt_neg, BitVec.ofInt_natCast, BitVec.ofNat_toNat]
  rfl

theorem afcHz_eq (s : State) : afcHz s = BitVec.ofInt 32 (Int.fdiv (s.rx.afc.toInt * 15625) 256) := by
  rw [Int.fdiv_eq_ediv_of_nonneg _ (by decide)]
  rfl

theorem marginDb_eq (s : State) : marginDb s = BitVec.ofInt 8 (max 0 (min 20 (Int.fdiv
    ((s.rx.thresh.toNat : Int) + 4 - 2 * (s.p.demodSnr : Int) - s.rx.rssi.toNat) 2))) := by
  rw [Int.fdiv_eq_ediv_of_nonneg _ (by decide)]
  rfl

theorem withLinkQuality_eq (s : State) (pk : Packet) : withLinkQuality s pk = if s.rx.valid then { pk with
    lqV := true, rssi := BitVec.ofInt 16 (-(s.rx.rssi.toNat : Int)),
    fei := BitVec.ofInt 32 (Int.fdiv (s.rx.afc.toInt * 15625) 256),
    margin := BitVec.ofInt 8 (max 0 (min 20 (Int.fdiv
      ((s.rx.thresh.toNat : Int) + 4 - 2 * (s.p.demodSnr : Int) - s.rx.rssi.toNat) 2))) } else pk := by
  rw [withLinkQuality, rssiHalfDbm_eq, afcHz_eq, marginDb_eq]

/-- The link quality is not read from the datapath. -/
theorem withLinkQuality_codec (s : State) (c : Codec) (pk : Packet) :
    withLinkQuality { s with codec := c } pk = withLinkQuality s pk := by
  rw [withLinkQuality_eq, withLinkQuality_eq]
  rfl

/-! ### Taking the pending packet -/

theorem oversize_eq_true {hasDst : Bool} {cap len : Byte} :
    oversize hasDst cap len = true ↔ hasDst = true ∧ cap.toNat < len.toNat := by
  simp [oversize]

theorem readPacket_idle {s : State} (hasDst : Bool) (cap : Byte) (h : s.ctl.rxPend = false) :
    (readPacket hasDst cap).run s = .ok (.ok none, s) := by
  simp [readPacket, h]

theorem readPacket_oversize {s : State} {hasDst : Bool} {cap : Byte} (h : s.ctl.rxPend = true)
    (ho : oversize hasDst cap s.ctl.rxLen = true) :
    (readPacket hasDst cap).run s = .ok (.error ⟨.readOversize, s.ctl.rxLen.zeroExtend 16⟩, s) := by
  simp [readPacket, h, ho]

/-- READ's actions store to XR_OPMODE alone (R232). -/
theorem storedBy_read (s : State) (bytes : List Byte) :
    ∀ a ∈ storedBy (pullActs s bytes ++ receiveActs s), a ∈ [s.p.xr.opmode] := by
  unfold pullActs receiveActs
  split <;> split <;> simp [storedBy]

/-! ### RECV around READ -/

section
variable {s : State} {hasDst : Bool} {cap : Byte} {chk : Bool} {g : Byte} (h : s.ctl.life = .ready)
include h

theorem exec_recv_refused (hgroup : chk = true ∧ 63 < g.toNat) :
    exec (.recv hasDst cap chk g) s = .next (s.emit (.respond (.exc .badArg 0xFF))) :=
  (command_require_group (by rw [h]; rfl) chk g _).trans (if_pos hgroup)

variable (hgroup : ¬(chk = true ∧ 63 < g.toNat))
include hgroup

/-- Where READ takes nothing, RECV answers as READ does. -/
theorem exec_recv_none {t : State} (hread : (readPacket hasDst cap).run s = .ok (.ok none, t)) :
    exec (.recv hasDst cap chk g) s = .next (t.emit (.respond (.noResult []))) := by
  refine (command_require_group (by rw [h]; rfl) chk g _).trans ((if_neg hgroup).trans ?_)
  exact command_ok (by simp [hread])

theorem exec_recv_raised {t : State} {x : Raised} (hread : (readPacket hasDst cap).run s = .ok (.error x, t)) :
    exec (.recv hasDst cap chk g) s = .next (t.emit (.respond (.exc x.code x.info))) := by
  refine (command_require_group (by rw [h]; rfl) chk g _).trans ((if_neg hgroup).trans ?_)
  exact command_raised (by simp [hread])

/-- A packet READ took is decoded as PDEC decodes it, and a record gets the link quality of the last capture. -/
theorem exec_recv_taken {t : State} {bytes : List Byte} {d : PDecode}
    (hread : (readPacket hasDst cap).run s = .ok (.ok (some bytes), t)) (hd : decodePacket chk g bytes = d) :
    exec (.recv hasDst cap chk g) s = .next (State.emit
      { t with codec := { t.codec with
        vacc := d.acc, vcnt := BitVec.ofNat 9 d.cnt, vdone := true,
        pk := (d.pk.map (withLinkQuality t)).getD t.codec.pk } }
      (.respond (decodeAnswer (d.pk.map (withLinkQuality t))))) := by
  refine (command_require_group (by rw [h]; rfl) chk g _).trans ((if_neg hgroup).trans ?_)
  cases hpk : d.pk with
  | none => exact command_ok (by simp [hread, decodeInto_M, hd, hpk, decodeAnswer])
  | some pk =>
    refine command_ok ?_
    simp [hread, decodeInto_M, hd, hpk, packetBytes_eq, decodeAnswer, withLinkQuality_codec]

end

/-- Settles O46: the group check, then READ's three cases; a packet taken is decoded and its record gets the link
quality. -/
theorem recvResult : Obligations.RecvResult := by
  intro s hasDst cap chk g hbus hlife i
  refine ⟨exec_recv_refused hlife, fun hgroup => ⟨fun hpend => ?_, fun hpend hover => ?_, fun hpend hfits => ?_⟩⟩
  · exact exec_recv_none hlife hgroup (readPacket_idle hasDst cap hpend)
  · exact exec_recv_raised hlife hgroup (readPacket_oversize hpend (oversize_eq_true.2 hover))
  · obtain ⟨bytes, e, hread, hrun, hlen⟩ := readPacket_did s hasDst cap hbus hpend
      (Bool.eq_false_iff.2 (mt oversize_eq_true.1 hfits))
    refine ⟨bytes, e, hlen, hrun, hrun.regs (storedBy_read s bytes), (exec_recv_taken hlife hgroup hread rfl).trans ?_⟩
    rw [funext (withLinkQuality_eq _)]
    simp only [State.did, Io.ran_append]
    cases (decodePacket chk g bytes).pk <;> rfl

end Sys2Proof.Machine
end

section
/-! PROOFS. 42_radio_init_config.md R186, R197: a timed poll is decided one way. -/

namespace Sys2Proof.Machine

/-- The turns of a poll stop at one that sees the condition, spends the budget or is the last: every turn before it goes
on. -/
theorem exists_lastTurn (p : Params) (a : Addr) (done : Byte → Bool) (t0 : U32) (budget : Nat) (d : PollRead)
    (ds : List PollRead) : ∀ e : Env, ∃ pre x post r rs e', d :: ds = pre ++ x :: post ∧
      pollAnswers p a (pre ++ [x]) e = (rs ++ [r], e') ∧ List.Forall₂ (pollGoesOn done t0 budget) pre rs ∧
      (seen done r = false → budget ≤ (x.tick - t0).toNat ∨ post = []) := by
  induction ds generalizing d with
  | nil => exact fun e => ⟨[], d, [], _, [], _, rfl, rfl, .nil, fun _ => .inr rfl⟩
  | cons d' ds ih =>
    intro e
    by_cases hgo : pollGoesOn done t0 budget d (turnAnswer p a d.answer e).1
    · obtain ⟨pre, x, post, r, rs, e', hd, hr, hf, hl⟩ := ih d' (turnAnswer p a d.answer e).2
      exact ⟨d :: pre, x, post, r, _ :: rs, e', by rw [hd]; rfl, by simp only [List.cons_append, pollAnswers, hr],
        .cons hgo hf, hl⟩
    · refine ⟨[], d, d' :: ds, _, [], _, rfl, rfl, .nil, fun hs => .inl (Nat.not_lt.1 fun hlt => hgo ⟨hs, hlt⟩)⟩

/-- Whatever the environment draws, a poll sees its condition or misses it. -/
theorem pollSees_or_pollMisses (p : Params) (a : Addr) (done : Byte → Bool) (budget : Nat) (e : Env) :
    (∃ rs e', PollSees p a done budget e rs e') ∨ ∃ rs e', PollMisses p a done budget e rs e' := by
  obtain ⟨pre, x, post, r, rs, e', hd, hr, hf, hl⟩ :=
    exists_lastTurn p a done (nextPoll e).1.t0 budget (nextPoll e).1.first (nextPoll e).1.rest (nextPoll e).2
  rw [← List.dropLast_concat (l₁ := rs) (b := r)] at hf
  cases hs : seen done r with
  | true => exact .inl ⟨_, e', pre, x, post, hd, hr, hf, by rw [List.getLast?_concat, Option.map_some, hs]⟩
  | false => exact .inr ⟨_, e', pre, x, post, hd, hr, hf, by rw [List.getLast?_concat, Option.map_some, hs], hl hs⟩

/-- Settles O49: the two cases are those of `timedPoll_sees` and `timedPoll_misses`; together they would give one run of
the poll two answers. -/
theorem pollDecides : Obligations.PollDecides := by
  intro s a done budget
  refine ⟨fun _ _ => timedPoll_sees, fun _ _ => timedPoll_misses, pollSees_or_pollMisses .., ?_⟩
  rintro ⟨⟨_, _, hsees⟩, _, _, hmisses⟩
  have htwo := (timedPoll_sees hsees).symm.trans (timedPoll_misses hmisses)
  cases htwo

end Sys2Proof.Machine
end

section
/-! PROOFS. 42_radio_init_config.md R190 to R201: each option of a configuration body, alone. -/

namespace Sys2Proof.Machine

/-! ### Writes with a known environment -/

/-- What the actions leave of the environment is determined. -/
theorem BusRun.unique {p : Params} {xs : List Action} : ∀ {e e' e'' : Env},
    BusRun p e xs e' → BusRun p e xs e'' → e' = e'' := by
  induction xs with
  | nil => rintro e e' e'' rfl rfl; rfl
  | cons x xs ih =>
    intro e e' e'' h h'
    cases x
    case xread a r => exact ih h.2 h'.2
    case burstRead a bs => exact ih h.2 h'.2
    all_goals exact ih h h'

theorem xwriteAll_of_run {ws : List (Addr × Byte)} {s : State} {e : Env} (h : BusRun s.p s.env (writesOf ws) e) :
    xwriteAll ws s = .ok ((), s.did e (writesOf ws)) := by
  obtain ⟨e', hrun, hbus⟩ := xwriteAll_did ws s
  rw [h.unique hbus]
  exact hrun

/-- One write, and one read, where the environment they leave is known. -/
theorem xwrite_of_run {a : Addr} {v : Byte} {s : State} {e : Env} (h : BusRun s.p s.env [.xwrite a v] e) :
    xwrite a v s = .ok ((), s.did e [.xwrite a v]) := by
  obtain rfl : e = _ := h
  rfl

theorem xread_of_run {a : Addr} {v : Byte} {s : State} {e : Env} (h : BusRun s.p s.env [.xread a (.byte v)] e) :
    xread a s = .ok (v, s.did e [.xread a (.byte v)]) := by
  obtain ⟨hv, rfl⟩ := h
  rw [xread, show readAnswer false s.p a s.env = (.byte v, (readAnswer false s.p a s.env).2) by rw [← hv]]
  rfl

theorem storedBy_append (xs ys : List Action) : storedBy (xs ++ ys) = storedBy xs ++ storedBy ys := by
  induction xs with
  | nil => rfl
  | cons x xs ih => cases x <;> simp [storedBy, ih]

theorem storedBy_writesOf (ws : List (Addr × Byte)) : storedBy (writesOf ws) = ws.map Prod.fst := by
  induction ws with
  | nil => rfl
  | cons w ws ih => exact congrArg (w.1 :: ·) ih

/-- Actions in a row, taken apart: the converse of `BusRun.append`. -/
theorem BusRun.split {p : Params} {xs ys : List Action} : ∀ {e e'' : Env}, BusRun p e (xs ++ ys) e'' →
    ∃ e', BusRun p e xs e' ∧ BusRun p e' ys e'' := by
  induction xs with
  | nil => exact fun h => ⟨_, rfl, h⟩
  | cons x xs ih =>
    intro e e'' h
    cases x
    case xread a r => exact (ih h.2).imp fun _ ht => ⟨⟨h.1, ht.1⟩, ht.2⟩
    case burstRead a bs => exact (ih h.2).imp fun _ ht => ⟨⟨h.1, ht.1⟩, ht.2⟩
    all_goals exact ih h

/-! ### Register values byte by byte -/

/-- A 16-bit value, most significant byte first (20_memory.md R66). -/
theorem writesOf_msbFirst (a b : Addr) (n : Nat) :
    writesOf [(a, byteOf (BitVec.ofNat 16 n) 1), (b, byteOf (BitVec.ofNat 16 n) 0)] =
      [.xwrite a (BitVec.ofNat 8 (n / 256)), .xwrite b (BitVec.ofNat 8 n)] := by
  rw [byteOf_ofNat 16 n 1 (by decide), byteOf_ofNat 16 n 0 (by decide), Nat.pow_one, Nat.pow_zero, Nat.div_one]
  rfl

/-! ### The two ways a lone option ends -/

/-- The state after a list of actions and new configuration registers: what an option can change. -/
def State.configured (s : State) (e : Env) (xs : List Action) (c : CfgRegs) : State := { s.did e xs with cfg := c }

section
variable (s : State) (e : Env) (xs : List Action) (c : CfgRegs)
@[simp] theorem State.configured_ctl : (s.configured e xs c).ctl = s.ctl := rfl
@[simp] theorem State.configured_cfg : (s.configured e xs c).cfg = c := rfl
@[simp] theorem State.configured_env : (s.configured e xs c).env = e := rfl
@[simp] theorem State.configured_params : (s.configured e xs c).params = s.params := rfl
@[simp] theorem State.configured_p : (s.configured e xs c).p = s.p := rfl
@[simp] theorem State.configured_io : (s.configured e xs c).io = s.io.ran xs := rfl

theorem updateCfg_did (f : CfgRegs → CfgRegs) : updateCfg f (s.did e xs) = .ok ((), s.configured e xs (f s.cfg)) := rfl

/-- Actions after an option. -/
theorem configured_did (e' : Env) (ys : List Action) :
    (s.configured e xs c).did e' ys = s.configured e' (xs ++ ys) c := by
  simp only [State.configured, State.did, Io.ran_append]

/-- An option after an option. -/
theorem configured_configured (e' : Env) (ys : List Action) (c' : CfgRegs) :
    (s.configured e xs c).configured e' ys c' = s.configured e' (xs ++ ys) c' := by
  simp only [State.configured, State.did, Io.ran_append]

theorem configured_respond (r : Response) :
    (s.configured e xs c).emit (.respond r) = { s with cfg := c, env := e, io := s.io.ran (xs ++ [.respond r]) } := by
  rw [Io.ran_append]; rfl
end

section
variable {s : State} (h : s.ctl.life = .ready) {o : CfgOption}
include h

/-- A field that is not accepted: the exception, with nothing written. -/
theorem configure_one_refused {x : Exc} {info : U16} (ho : (applyOption o).run s = .ok (.error ⟨x, info⟩, s)) :
    command (configureWith [o]) s = .next (s.emit (.respond (.exc x info))) := by
  rw [configure_one h, ho]

/-- A field that is accepted: its register writes, then its configuration registers. -/
theorem configure_one_written {ws : List (Addr × Byte)} {f : CfgRegs → CfgRegs}
    (ho : (applyOption o).run s = (do xwriteAll ws; updateCfg f : R Unit).run s) :
    ∃ e, BusRun s.p s.env (writesOf ws) e ∧ RegsKept (ws.map Prod.fst) s.env e ∧
      command (configureWith [o]) s =
        .next { s with cfg := f s.cfg, env := e, io := s.io.ran (writesOf ws ++ [.respond (.ok [])]) } := by
  obtain ⟨e, hrun, hbus⟩ := xwriteAll_did ws s
  refine ⟨e, hbus, hbus.regs fun a ha => by rwa [← storedBy_writesOf], ?_⟩
  rw [configure_one h, ho]
  simp only [bind_R, lift_R, hrun, updateCfg_M, Io.ran_append]
  rfl

end

/-! ### FREQ -/

section
variable {f k : Nat} (hk : k = 0 ∨ f * 10 ^ (k - 1) < 100000000) (hlo : 100000000 ≤ f * 10 ^ k)
include hk hlo

/-- The request scaled by the least power of 10 that lifts it to 100 000 000 (R190). -/
theorem freqNormalise_eq : freqNormalise f = some (f * 10 ^ k) := by
  have hf : f ≠ 0 := by
    rintro rfl
    rw [Nat.zero_mul] at hlo
    omega
  rw [freqNormalise, if_neg hf, scaleByTens_eq k f 8 hlo hk (scale_turns f k hf hk)]

theorem freqRegs_eq_none (hhi : 1023999969 < f * 10 ^ k) : freqRegs f = none := by
  simp only [freqRegs, freqNormalise_eq hk hlo]
  exact if_neg (by unfold hzToSteps; omega)

theorem freqRegs_eq_some (hhi : f * 10 ^ k ≤ 1023999969) :
    freqRegs f = some (f * 10 ^ k, (f * 10 ^ k * 512 + 15625) / 31250) := by
  simp only [freqRegs, freqNormalise_eq hk hlo]
  exact if_pos (by unfold hzToSteps; omega)

end

theorem applyFreq_none {f : U32} (h : freqRegs f.toNat = none) (s : State) :
    (applyOption (.freq f)).run s = .ok (.error ⟨.badArg, 0⟩, s) := by
  simp only [applyOption, applyFreq, h, raise_R]

/-- The three frequency writes, most significant byte first. -/
def frfWrites (p : Params) (frf : Nat) : List (Addr × Byte) :=
  [(p.xr.frfMsb, byteOf (BitVec.ofNat 24 frf) 2), (p.xr.frfMid, byteOf (BitVec.ofNat 24 frf) 1),
    (p.xr.frfLsb, byteOf (BitVec.ofNat 24 frf) 0)]

theorem writesOf_frfWrites (p : Params) (frf : Nat) : writesOf (frfWrites p frf) =
    [.xwrite p.xr.frfMsb (BitVec.ofNat 8 (frf / 65536)), .xwrite p.xr.frfMid (BitVec.ofNat 8 (frf / 256)),
      .xwrite p.xr.frfLsb (BitVec.ofNat 8 frf)] := by
  rw [frfWrites, byteOf_ofNat 24 frf 2 (by decide), byteOf_ofNat 24 frf 1 (by decide), byteOf_ofNat 24 frf 0 (by decide),
    Nat.pow_one, Nat.pow_zero, Nat.div_one]
  rfl

section
variable {f : U32} {hz frf : Nat} (h : freqRegs f.toNat = some (hz, frf)) {s : State}
include h

/-- FREQ past its check, where no calibration is configured. -/
theorem applyFreq_plain (hcal : s.p.imageCal = false) : (applyOption (.freq f)).run s = (do
    xwriteAll (frfWrites s.p frf)
    updateCfg fun c => { c with freqV := true, freq := BitVec.ofNat 32 hz, frf := BitVec.ofNat 24 frf } : R Unit).run
      s := by
  simp only [applyOption, applyFreq, h, frfWrites, bind_R, lift_R, current_M, hcal, Bool.false_eq_true, if_false]
  cases xwriteAll _ s <;> rfl

/-- FREQ past its check, where the calibration follows: that, after the frequency is written and kept. -/
theorem applyFreq_calibrates (hcal : s.p.imageCal = true) {e : Env}
    (hbus : BusRun s.p s.env (writesOf (frfWrites s.p frf)) e) :
    (applyOption (.freq f)).run s = imageCal.run (s.configured e (writesOf (frfWrites s.p frf))
      { s.cfg with freqV := true, freq := BitVec.ofNat 32 hz, frf := BitVec.ofNat 24 frf }) := by
  have hwrites := xwriteAll_of_run hbus
  simp only [applyOption, applyFreq, h, frfWrites, bind_R, lift_R, current_M, hcal, if_true] at hwrites ⊢
  rw [hwrites]
  rfl

end

/-- Settles O23: the check of the scaled request, and its register value byte by byte. -/
theorem cfgFreqResult : Obligations.CfgFreqResult := by
  intro s f hlife
  refine ⟨?_, fun k hk hlo => ⟨fun hhi => ?_, fun hhi hcal => ?_⟩⟩
  · rintro rfl
    exact configure_one_refused hlife (applyFreq_none rfl s)
  · exact configure_one_refused hlife (applyFreq_none (freqRegs_eq_none hk hlo hhi) s)
  · rw [← writesOf_frfWrites]
    exact (configure_one_written hlife (applyFreq_plain (freqRegs_eq_some hk hlo hhi) hcal) :)

/-! ### Calibration -/

/-- The calibration from a state whose start write leaves `e0`, where the poll from there answers `ok` (R197). -/
theorem imageCal_run {p : Params} {s : State} {e0 e1 : Env} {ok : Bool} {rs : List BusAnswer} (hp : s.p = p)
    (hstart : BusRun p s.env [.xwrite p.xr.imagecal p.imagecalStart] e0)
    (hpoll : ∀ t : State, t.p = p → t.env = e0 →
      timedPoll p.xr.imagecal (fun v => v &&& p.imagecalRunningMask == 0) p.calTimeoutMs t =
        .ok (ok, t.did e1 (readsOf p.xr.imagecal rs))) :
    imageCal.run s = .ok (if ok then .ok () else .error ⟨.timeout, 1⟩,
      s.did e1 ([.xwrite p.xr.imagecal p.imagecalStart] ++ readsOf p.xr.imagecal rs)) := by
  subst hp
  have hread := hpoll (s.did e0 [.xwrite s.p.xr.imagecal s.p.imagecalStart]) rfl rfl
  rw [did_did] at hread
  unfold imageCal
  simp only [bind_R, lift_R, current_M, xwrite_of_run hstart, hread]
  cases ok <;> rfl

/-- FREQ with calibration, where the poll after the four writes answers `ok`. -/
theorem exec_cfgFreq_calibrates {s : State} {f : U32} {hz frf : Nat} {e0 e1 : Env} {ok : Bool} {rs : List BusAnswer}
    (hlife : s.ctl.life = .ready) (hcal : s.p.imageCal = true) (hregs : freqRegs f.toNat = some (hz, frf))
    (hbus : BusRun s.p s.env (writesOf (frfWrites s.p frf) ++ [.xwrite s.p.xr.imagecal s.p.imagecalStart]) e0)
    (hpoll : ∀ t : State, t.p = s.p → t.env = e0 →
      timedPoll s.p.xr.imagecal (fun v => v &&& s.p.imagecalRunningMask == 0) s.p.calTimeoutMs t =
        .ok (ok, t.did e1 (readsOf s.p.xr.imagecal rs))) :
    exec (.cfgFreq f) s = .next
      { s with
        cfg := { s.cfg with freqV := true, freq := BitVec.ofNat 32 hz, frf := BitVec.ofNat 24 frf }
        env := e1
        io := s.io.ran (writesOf (frfWrites s.p frf) ++ [.xwrite s.p.xr.imagecal s.p.imagecalStart] ++
          readsOf s.p.xr.imagecal rs ++ [.respond (if ok then .ok [] else .exc .timeout 1)]) } := by
  obtain ⟨e, hfreq, hstart⟩ := hbus.split
  refine (configure_one hlife (.freq f)).trans ?_
  rw [applyFreq_calibrates hregs hcal hfreq, imageCal_run (s := s.configured ..) rfl hstart hpoll, configured_did,
    ← List.append_assoc]
  cases ok
  · exact congrArg _ (configured_respond ..)
  · exact congrArg _ (configured_respond ..)

/-- Settles O24: the four writes, then the two answers of the poll. -/
theorem cfgFreqCalibrates : Obligations.CfgFreqCalibrates := by
  intro s f k e0 e1 rs hlife hcal hk hlo hhi hz frf acts done after hbus
  have hacts : acts = writesOf (frfWrites s.p frf) ++ [.xwrite s.p.xr.imagecal s.p.imagecalStart] := by
    rw [writesOf_frfWrites]; rfl
  have hrun := fun ok => exec_cfgFreq_calibrates (e1 := e1) (ok := ok) (rs := rs) hlife hcal
    (freqRegs_eq_some hk hlo hhi) (hacts ▸ hbus)
  simp only [after, hacts]
  constructor
  · exact fun hsees => hrun true fun t hp he => timedPoll_sees (by rw [hp, he]; exact hsees)
  · exact fun hmisses => hrun false fun t hp he => timedPoll_misses (by rw [hp, he]; exact hmisses)

/-! ### BITRATE and FDEV -/

theorem bitrateReg_eq_none {br : Nat} (h : br < 489 ∨ 32000000 < br) : bitrateReg br = none := by
  unfold bitrateReg Config.fxosc
  by_cases hout : br = 0 ∨ 32000000 < br
  · rw [if_pos hout]
  · rw [if_neg hout]
    refine if_neg ?_
    rw [Nat.not_le, Nat.lt_iff_add_one_le, Nat.le_div_iff_mul_le (by omega)]
    omega

theorem bitrateReg_eq_some {br : Nat} (hlo : 489 ≤ br) (hhi : br ≤ 32000000) :
    bitrateReg br = some ((64000000 + br) / (2 * br)) := by
  unfold bitrateReg Config.fxosc
  rw [if_neg (by omega)]
  refine if_pos ?_
  rw [← Nat.lt_add_one_iff, Nat.div_lt_iff_lt_mul (by omega)]
  omega

theorem applyBitrate_none {br : U32} (h : bitrateReg br.toNat = none) (s : State) :
    (applyOption (.bitrate br)).run s = .ok (.error ⟨.badArg, 1⟩, s) := by
  simp only [applyOption, applyBitrate, h, raise_R]

theorem applyBitrate_some {br : U32} {reg : Nat} (h : bitrateReg br.toNat = some reg) (s : State) :
    (applyOption (.bitrate br)).run s = (do
      xwriteAll [(s.p.xr.bitrateMsb, byteOf (BitVec.ofNat 16 reg) 1),
        (s.p.xr.bitrateLsb, byteOf (BitVec.ofNat 16 reg) 0)]
      updateCfg fun c => { c with bitrateV := true, bitrate := br, brreg := BitVec.ofNat 16 reg } : R Unit).run s := by
  simp only [applyOption, applyBitrate, h, bind_R, lift_R, current_M]

/-- Settles O25: the check of the divider, and its bytes. -/
theorem cfgBitrateResult : Obligations.CfgBitrateResult := by
  intro s br hlife
  refine ⟨fun hout => ?_, fun hlo hhi => ?_⟩
  · exact configure_one_refused hlife (applyBitrate_none (bitrateReg_eq_none hout) s)
  · rw [← writesOf_msbFirst]
    exact (configure_one_written hlife (applyBitrate_some (bitrateReg_eq_some hlo hhi) s) :)

theorem fdevReg_eq_none {fd : Nat} (h : 999969 < fd) : fdevReg fd = none :=
  if_neg (by unfold hzToSteps; omega)

theorem fdevReg_eq_some {fd : Nat} (h : fd ≤ 999969) : fdevReg fd = some ((fd * 512 + 15625) / 31250) :=
  if_pos (by unfold hzToSteps; omega)

theorem applyFdev_none {fd : U32} (h : fdevReg fd.toNat = none) (s : State) :
    (applyOption (.fdev fd)).run s = .ok (.error ⟨.badArg, 2⟩, s) := by
  simp only [applyOption, applyFdev, h, raise_R]

theorem applyFdev_some {fd : U32} {reg : Nat} (h : fdevReg fd.toNat = some reg) (s : State) :
    (applyOption (.fdev fd)).run s = (do
      xwriteAll [(s.p.xr.fdevMsb, byteOf (BitVec.ofNat 16 reg) 1), (s.p.xr.fdevLsb, byteOf (BitVec.ofNat 16 reg) 0)]
      updateCfg fun c => { c with fdevV := true, fdev := fd, fdevreg := BitVec.ofNat 14 reg } : R Unit).run s := by
  simp only [applyOption, applyFdev, h, bind_R, lift_R, current_M]

/-- Settles O26: the check of the register value, and its bytes. -/
theorem cfgFdevResult : Obligations.CfgFdevResult := by
  intro s fd hlife
  refine ⟨fun hout => ?_, fun hin => ?_⟩
  · exact configure_one_refused hlife (applyFdev_none (fdevReg_eq_none hout) s)
  · rw [← writesOf_msbFirst]
    exact (configure_one_written hlife (applyFdev_some (fdevReg_eq_some hin) s) :)

/-! ### RXBW and AFCBW -/

theorem applyRxbw_none {hz : U32} {s : State} (h : bwLookup s.p.bwTable hz.toNat = none) :
    (applyOption (.rxbw hz)).run s = .ok (.error ⟨.badArg, 3⟩, s) := by
  simp only [applyOption, applyRxbw, bind_R, lift_R, current_M, h, raise_R]

theorem applyAfcbw_none {hz : U32} {s : State} (h : bwLookup s.p.bwTable hz.toNat = none) :
    (applyOption (.afcbw hz)).run s = .ok (.error ⟨.badArg, 4⟩, s) := by
  simp only [applyOption, applyAfcbw, bind_R, lift_R, current_M, h, raise_R]

theorem applyRxbw_some {hz : U32} {s : State} {i : Nat} {row : BwRow}
    (h : bwLookup s.p.bwTable hz.toNat = some (i, row)) :
    (applyOption (.rxbw hz)).run s = (do
      xwriteAll [(s.p.xr.rxbw, bwByte row)]
      updateCfg fun c => { c with rxbwV := true, rxbw := BitVec.ofNat 5 i } : R Unit).run s := by
  simp only [applyOption, applyRxbw, bind_R, lift_R, current_M, h]
  rfl

theorem applyAfcbw_some {hz : U32} {s : State} {i : Nat} {row : BwRow}
    (h : bwLookup s.p.bwTable hz.toNat = some (i, row)) :
    (applyOption (.afcbw hz)).run s = (do
      xwriteAll [(s.p.xr.afcbw, bwByte row)]
      updateCfg fun c => { c with afcbwV := true, afcbw := BitVec.ofNat 5 i } : R Unit).run s := by
  simp only [applyOption, applyAfcbw, bind_R, lift_R, current_M, h]
  rfl

/-- Settles O27: the row BwLookup finds, as its byte and its index. -/
theorem cfgBandwidthResult : Obligations.CfgBandwidthResult := by
  intro s hz hlife
  refine ⟨fun hbelow => ?_, fun pre post row htable hpre hrow => ?_⟩
  · have hnone : bwLookup s.p.bwTable hz.toNat = none := bwLookupFrom_none _ _ 0 hbelow
    exact ⟨configure_one_refused hlife (applyRxbw_none hnone), configure_one_refused hlife (applyAfcbw_none hnone)⟩
  · have hsome : bwLookup s.p.bwTable hz.toNat = some (pre.length, row) := by
      rw [bwLookup, htable, bwLookupFrom_found _ pre post row hpre hrow, Nat.zero_add]
    rw [← bwByte_eq]
    exact ⟨(configure_one_written hlife (applyRxbw_some hsome) :),
      (configure_one_written hlife (applyAfcbw_some hsome) :)⟩

/-- A table in which each row is below the next is ascending throughout (10_state.md R44). -/
theorem pairwise_of_ascendingHz (t : List BwRow) : ascendingHz t = true → t.Pairwise fun a b => a.hz < b.hz := by
  induction t with
  | nil => exact fun _ => .nil
  | cons a rest ih =>
    cases rest with
    | nil => exact fun _ => List.pairwise_singleton _ _
    | cons b rest =>
      intro h
      obtain ⟨hab, hrest⟩ : a.hz < b.hz ∧ ascendingHz (b :: rest) = true := by simpa [ascendingHz] using h
      have hb := ih hrest
      refine .cons (fun r hr => ?_) hb
      rcases List.mem_cons.1 hr with rfl | hr
      · exact hab
      · exact hab.trans ((List.pairwise_cons.1 hb).1 r hr)

theorem exists_sourceRows (t : List BwRow) (h : hasSourceRows t = true) :
    ∃ pre a post, t = pre ++ a :: ⟨100000, 1, 2⟩ :: post ∧ a.hz = 83300 := by
  induction t with
  | nil => cases h
  | cons a rest ih =>
    cases rest with
    | nil => cases h
    | cons b rest =>
      simp only [hasSourceRows, Bool.or_eq_true, Bool.and_eq_true, beq_iff_eq] at h
      rcases h with ⟨ha, rfl⟩ | h
      · exact ⟨[], a, rest, rfl, ha⟩
      · obtain ⟨pre, x, post, ht, hx⟩ := ih h
        exact ⟨a :: pre, x, post, by rw [ht]; rfl, hx⟩

theorem bwTable_of_wf {p : Params} (h : p.wf = true) :
    p.bwTable.Pairwise (fun a b => a.hz < b.hz) ∧ hasSourceRows p.bwTable = true := by
  simp only [Params.wf, bwTableOk, Bool.and_eq_true] at h
  exact ⟨pairwise_of_ascendingHz _ (by tauto), by tauto⟩

/-- A request cuts a table at the first row that is not below it, or is above them all. -/
theorem forall_below_or_exists_first (t : List BwRow) (hz : Nat) :
    (∀ r ∈ t, r.hz < hz) ∨ ∃ pre row post, t = pre ++ row :: post ∧ (∀ r ∈ pre, r.hz < hz) ∧ hz ≤ row.hz := by
  cases h : t.find? fun r => decide (hz ≤ r.hz) with
  | none => exact .inl fun r hr => by simpa using List.find?_eq_none.1 h r hr
  | some row =>
    obtain ⟨hrow, pre, post, ht, hpre⟩ := List.find?_eq_some_iff_append.1 h
    exact .inr ⟨pre, row, post, ht, fun r hr => by simpa using hpre r hr, by simpa using hrow⟩

/-- In an ascending table the first row at or above the request is the smallest of them. -/
theorem first_row_smallest {pre post : List BwRow} {row : BwRow} {hz : Nat}
    (hasc : (pre ++ row :: post).Pairwise fun a b => a.hz < b.hz) (hpre : ∀ r ∈ pre, r.hz < hz) :
    ∀ r ∈ pre ++ row :: post, hz ≤ r.hz → row.hz ≤ r.hz := by
  intro r hr hle
  obtain ⟨-, hrow, -⟩ := List.pairwise_append.1 hasc
  rcases List.mem_append.1 hr with hr | hr
  · exact absurd (hpre r hr) (Nat.not_lt.2 hle)
  · rcases List.mem_cons.1 hr with rfl | hr
    · exact Nat.le_refl _
    · exact Nat.le_of_lt ((List.pairwise_cons.1 hrow).1 r hr)

/-- The rows before the source's row are below both of the source's requests. -/
theorem rows_below_source {pre post : List BwRow} {a row : BwRow}
    (hasc : (pre ++ a :: row :: post).Pairwise fun a b => a.hz < b.hz) (ha : a.hz = 83300) :
    ∀ r ∈ pre ++ [a], r.hz < 99000 := by
  obtain ⟨-, -, hcross⟩ := List.pairwise_append.1 hasc
  intro r hr
  rcases List.mem_append.1 hr with hr | hr
  · have := hcross r hr a (by simp)
    omega
  · rw [List.mem_singleton.1 hr, ha]
    decide

/-- Settles O28: BwLookup finds the first row at or above the request, the smallest of them as the table ascends. -/
theorem bwLookupSmallest : Obligations.BwLookupSmallest := by
  intro p hp
  obtain ⟨hasc, hsource⟩ := bwTable_of_wf hp
  have hfound {hz : Nat} {pre post : List BwRow} {row : BwRow} (ht : p.bwTable = pre ++ row :: post)
      (hpre : ∀ r ∈ pre, r.hz < hz) (hrow : hz ≤ row.hz) : bwLookup p.bwTable hz = some (pre.length, row) := by
    rw [bwLookup, ht, bwLookupFrom_found hz pre post row hpre hrow, Nat.zero_add]
  constructor
  · intro hz
    rcases forall_below_or_exists_first p.bwTable hz with hbelow | ⟨pre, row, post, ht, hpre, hrow⟩
    · exact .inr ⟨bwLookupFrom_none _ _ 0 hbelow, hbelow⟩
    · refine .inl ⟨pre.length, row, hfound ht hpre hrow, by rw [ht]; simp, hrow, ?_⟩
      rw [ht] at hasc ⊢
      exact first_row_smallest hasc hpre
  · obtain ⟨pre, a, post, ht, ha⟩ := exists_sourceRows _ hsource
    have hbelow := rows_below_source (ht ▸ hasc) ha
    rw [List.append_cons] at ht
    exact ⟨_, hfound ht (fun r hr => (hbelow r hr).trans (by decide)) (by decide), hfound ht hbelow (by decide)⟩

/-! ### PREAMBLE, PKTLEN and RXCONT -/

theorem applyPreamble_run (v : U16) (s : State) :
    (applyOption (.preamble v)).run s = (do
      xwriteAll [(s.p.xr.preambleMsb, byteOf (BitVec.ofNat 16 v.toNat) 1),
        (s.p.xr.preambleLsb, byteOf (BitVec.ofNat 16 v.toNat) 0)]
      updateCfg fun c => { c with preambleV := true, preamble := v } : R Unit).run s := by
  simp only [applyOption, applyPreamble, BitVec.ofNat_toNat, BitVec.setWidth_eq, bind_R, lift_R, current_M]

/-- Settles O29: PREAMBLE is its two writes, PKTLEN and RXCONT change configuration registers only. -/
theorem cfgPlainResults : Obligations.CfgPlainResults := by
  intro s hlife
  refine ⟨fun v => ?_, fun fixed len => configure_one hlife (.pktlen fixed len),
    fun flag => configure_one hlife (.rxcont flag)⟩
  rw [← writesOf_msbFirst]
  exact (configure_one_written hlife (applyPreamble_run v s) :)

/-! ### SYNC -/

/-- Byte i of the sync word goes to XR_SYNCVALUE + i. -/
theorem syncWrites_eq (b : List Byte) : ∀ base : Addr,
    syncWrites base b = (List.range b.length).map fun i => (base + BitVec.ofNat 7 i, b.getD i 0) := by
  induction b with
  | nil => exact fun _ => rfl
  | cons v vs ih =>
    intro base
    have hnext (i : Nat) : base + BitVec.ofNat 7 (i + 1) = base + 1 + BitVec.ofNat 7 i := by
      rw [Nat.add_comm, BitVec.ofNat_add, BitVec.add_assoc]; rfl
    rw [List.length_cons, List.range_succ_eq_map, List.map_cons, List.map_map]
    simp only [Function.comp_def, hnext, List.getD_cons_succ, ← ih, BitVec.add_zero, List.getD_cons_zero, syncWrites]

theorem syncCountOk_eq_true {n : Nat} : syncCountOk n = true ↔ 1 ≤ n ∧ n ≤ 3 := by simp [syncCountOk]

theorem applySync_refused {b : List Byte} (h : b.length = 0 ∨ 3 < b.length) (s : State) :
    (applyOption (.sync b)).run s = .ok (.error ⟨.badArg, 6⟩, s) := by
  have hcount : syncCountOk b.length = false := Bool.eq_false_iff.2 (mt syncCountOk_eq_true.1 (by omega))
  simp only [applyOption, applySync, hcount, Bool.false_eq_true, if_false, raise_R]

/-- The accesses of SYNC: the bytes, then the size field read and written back (R198). -/
def syncActs (p : Params) (b : List Byte) (v : Byte) : List Action :=
  writesOf (syncWrites p.xr.syncvalue b) ++
    [.xread p.xr.syncconfig (.byte v), .xwrite p.xr.syncconfig ((v &&& 0xF8) ||| BitVec.ofNat 8 (b.length - 1))]

/-- SYNC past its check. -/
theorem applySync_accepted {b : List Byte} (hcount : 1 ≤ b.length ∧ b.length ≤ 3) {s : State} (h : BusHealthy s) :
    ∃ v e, BusRun s.p s.env (syncActs s.p b v) e ∧
      (applyOption (.sync b)).run s = .ok (.ok (), s.configured e (syncActs s.p b v)
        { s.cfg with syncV := true, synclen := BitVec.ofNat 2 b.length, sync := storeSync s.cfg.sync b }) := by
  obtain ⟨e, hwrite, hbus⟩ := xwriteAll_did (syncWrites s.p.xr.syncvalue b) s
  obtain ⟨v, e', hread, hbus', -⟩ :=
    xread_did s.p.xr.syncconfig (s.did e (writesOf (syncWrites s.p.xr.syncvalue b))) (hbus.env.healthy h)
  have hback : BusRun s.p e' [.xwrite s.p.xr.syncconfig ((v &&& 0xF8) ||| BitVec.ofNat 8 (b.length - 1))] _ := rfl
  refine ⟨v, _, hbus.append (BusRun.append hbus' hback), ?_⟩
  simp only [applyOption, applySync, syncCountOk_eq_true.2 hcount, if_true, bind_R, lift_R, current_M, hwrite, hread,
    xwrite_did, did_did, updateCfg_did, List.append_assoc]
  rfl

/-- SYNC stores to the addresses of its bytes and to XR_SYNCCONFIG. -/
theorem storedBy_syncActs (p : Params) (b : List Byte) (v : Byte) : storedBy (syncActs p b v) =
    (List.range b.length).map (fun i => p.xr.syncvalue + BitVec.ofNat 7 i) ++ [p.xr.syncconfig] := by
  rw [syncActs, storedBy_append, storedBy_writesOf, syncWrites_eq, List.map_map]
  rfl

theorem syncActs_eq (p : Params) (b : List Byte) (v : Byte) : syncActs p b v =
    (List.range b.length).map (fun i => .xwrite (p.xr.syncvalue + BitVec.ofNat 7 i) (b.getD i 0)) ++
      [.xread p.xr.syncconfig (.byte v), .xwrite p.xr.syncconfig ((v &&& 0xF8) ||| BitVec.ofNat 8 (b.length - 1))] := by
  rw [syncActs, syncWrites_eq, writesOf, List.map_map]
  rfl

/-- Settles O30: the count, then the accesses of an accepted word. -/
theorem cfgSyncResult : Obligations.CfgSyncResult := by
  intro s b hlife
  refine ⟨fun hcount => configure_one_refused hlife (applySync_refused hcount s), fun hbus hlo hhi => ?_⟩
  obtain ⟨v, e, hrun, happly⟩ := applySync_accepted ⟨hlo, hhi⟩ hbus
  refine ⟨v, e, ?_⟩
  rw [← syncActs_eq, ← storedBy_syncActs s.p b v]
  refine ⟨hrun, hrun.regs fun _ => id, ?_⟩
  rw [exec, execCfgSync, configure_one hlife, happly]
  exact congrArg _ (configured_respond ..)

end Sys2Proof.Machine
end

section
/-! PROOFS. 42_radio_init_config.md R188, R189: CONFIGURE, option by option and as a whole. -/

namespace Sys2Proof.Machine

/-! ### What an option can change -/

/-- From `s` to `t` there are only bus accesses, which store to the listed registers, and new configuration registers. -/
def OptionStep (l : List Addr) (s t : State) : Prop :=
  ∃ c e xs, t = s.configured e xs c ∧ EnvStep l s.env e ∧
    ∀ a ∈ xs, Action.isBusRead a = true ∨ Action.isBusWrite a = true

theorem OptionStep.refl (l : List Addr) (s : State) : OptionStep l s s := ⟨s.cfg, s.env, [], rfl, .refl _ _, by simp⟩

theorem OptionStep.trans {l : List Addr} {s t u : State} (h : OptionStep l s t) (h' : OptionStep l t u) :
    OptionStep l s u := by
  obtain ⟨c, e, xs, rfl, he, hx⟩ := h
  obtain ⟨c', e', ys, rfl, he', hy⟩ := h'
  refine ⟨c', e', xs ++ ys, configured_configured .., (he.trans he').mono (by simp), fun a ha => ?_⟩
  exact (List.mem_append.1 ha).elim (hx a) (hy a)

theorem OptionStep.ctl {l : List Addr} {s t : State} (h : OptionStep l s t) : t.ctl = s.ctl := by
  obtain ⟨c, e, xs, rfl, -⟩ := h
  rfl

theorem OptionStep.p {l : List Addr} {s t : State} (h : OptionStep l s t) : t.p = s.p := by
  obtain ⟨c, e, xs, rfl, -⟩ := h
  rfl

/-- Bus accesses alone. -/
theorem OptionStep.did {l l' : List Addr} {s : State} {e : Env} {xs : List Action} (he : EnvStep l' s.env e)
    (hl : ∀ a ∈ l', a ∈ l) (hx : ∀ a ∈ xs, Action.isBusRead a = true ∨ Action.isBusWrite a = true) :
    OptionStep l s (s.did e xs) := ⟨s.cfg, e, xs, rfl, he.mono hl, hx⟩

/-- The exceptions of the options: E_BAD_ARG with a mask bit, and the calibration's E_TIMEOUT (60_exceptions.md R284). -/
def OptionError (x : Raised) : Prop :=
  (x.code = .badArg ∧ x.info.toNat ≤ 8) ∨ (x.code = .timeout ∧ x.info = 1)

/-- Where the operation does not fault, it does what an option can do. -/
def Configures {α : Type} (p : Params) (m : R α) : Prop :=
  ∀ s r t, s.p = p → m.run s = .ok (r, t) → OptionStep (configRegs p) s t ∧ ∀ x, r = .error x → OptionError x

section
variable {α β : Type} {p : Params}

theorem Configures.pure (a : α) : Configures p (pure a : R α) := by
  rintro s r t - h
  cases h
  exact ⟨.refl _ _, fun _ h => nomatch h⟩

theorem Configures.raise {e : Exc} {info : U16} (h : OptionError ⟨e, info⟩) : Configures p (raise e info : R α) := by
  rintro s r t - hrun
  cases hrun
  refine ⟨.refl _ _, fun x hx => ?_⟩
  cases hx
  exact h

theorem Configures.bind {m : R α} {f : α → R β} (hm : Configures p m) (hf : ∀ a, Configures p (f a)) :
    Configures p (m >>= f) := by
  intro s r t hp hrun
  rw [bind_R] at hrun
  cases hfirst : m.run s with
  | error x => rw [hfirst] at hrun; cases hrun
  | ok y =>
    obtain ⟨r', u⟩ := y
    rw [hfirst] at hrun
    obtain ⟨hstep, herr⟩ := hm s r' u hp hfirst
    cases r' with
    | error x =>
      cases hrun
      exact ⟨hstep, fun y hy => by cases hy; exact herr x rfl⟩
    | ok a =>
      obtain ⟨hstep', herr'⟩ := hf a u r t (hstep.p.trans hp) hrun
      exact ⟨hstep.trans hstep', herr'⟩

/-- An operation that cannot raise. -/
theorem Configures.lift {m : M α} (h : ∀ s a t, s.p = p → m s = .ok (a, t) → OptionStep (configRegs p) s t) :
    Configures p (liftM m : R α) := by
  intro s r t hp hrun
  rw [lift_R] at hrun
  cases hm : m s with
  | error x => rw [hm] at hrun; cases hrun
  | ok y =>
    rw [hm] at hrun
    cases hrun
    exact ⟨h s _ _ hp hm, fun _ hx => nomatch hx⟩

/-- What follows may depend on the parameters the state has. -/
theorem Configures.current {f : State → R β} (hf : ∀ s, s.p = p → Configures p (f s)) :
    Configures p ((liftM Machine.current : R State) >>= f) := by
  intro s r t hp hrun
  simp only [bind_R, lift_R, current_M] at hrun
  exact hf s hp s r t hp hrun

theorem xwriteAll_configures {ws : List (Addr × Byte)} (hws : ∀ w ∈ ws, w.1 ∈ configRegs p) :
    Configures p (liftM (xwriteAll ws) : R Unit) := .lift fun s a t hp hrun => by
  obtain ⟨e, hwrite, hbus⟩ := xwriteAll_did ws s
  cases hwrite.symm.trans hrun
  refine .did hbus.env ?_ fun x hx => ?_
  · rw [storedBy_writesOf]
    simpa using fun a b hab => hws (a, b) hab
  · obtain ⟨w, -, rfl⟩ := List.mem_map.1 hx
    exact .inr rfl

theorem xwrite_configures {a : Addr} {v : Byte} (ha : a ∈ configRegs p) : Configures p (liftM (xwrite a v) : R Unit) :=
  xwriteAll_configures (ws := [(a, v)]) (by simpa using ha)

theorem xread_configures (a : Addr) : Configures p (liftM (xread a) : R Byte) := .lift fun s v t hp hrun => by
  obtain ⟨e, he, rfl⟩ := xread_ok hrun
  exact .did (xs := [.xread a (.byte v)]) he (by simp) (by simp [Action.isBusRead])

theorem updateCfg_configures (f : CfgRegs → CfgRegs) : Configures p (liftM (updateCfg f) : R Unit) :=
  .lift fun s a t hp hrun => by
    cases hrun
    exact ⟨f s.cfg, s.env, [], rfl, .refl _ _, by simp⟩

/-- A timed poll answers, after reads of its register. -/
theorem timedPoll_did (a : Addr) (done : Byte → Bool) (budget : Nat) (s : State) :
    ∃ ok rs e, timedPoll a done budget s = .ok (ok, s.did e (readsOf a rs)) ∧ EnvStep [] s.env e := by
  have henv : ∀ {ds rs e}, pollAnswers s.p a ds (nextPoll s.env).2 = (rs, e) → EnvStep [] s.env e := fun {ds _ _} h => by
    have hreads := pollAnswers_env s.p a ds (nextPoll s.env).2
    rw [h] at hreads
    exact (nextPoll_env s.env).trans hreads
  rcases pollSees_or_pollMisses s.p a done budget s.env with ⟨rs, e, h⟩ | ⟨rs, e, h⟩
  · have hpoll := timedPoll_sees h
    obtain ⟨pre, x, post, -, hreads, -⟩ := h
    exact ⟨true, rs, e, hpoll, henv hreads⟩
  · have hpoll := timedPoll_misses h
    obtain ⟨pre, x, post, -, hreads, -⟩ := h
    exact ⟨false, rs, e, hpoll, henv hreads⟩

theorem timedPoll_configures (a : Addr) (done : Byte → Bool) (budget : Nat) :
    Configures p (liftM (timedPoll a done budget) : R Bool) := .lift fun s ok t hp hrun => by
  obtain ⟨ok', rs, e, hpoll, he⟩ := timedPoll_did a done budget s
  cases hpoll.symm.trans hrun
  refine .did he (by simp) fun x hx => ?_
  obtain ⟨r, -, rfl⟩ := List.mem_map.1 hx
  exact .inl rfl

theorem imageCal_configures : Configures p imageCal := .current fun s hs => by
  subst hs
  refine (xwrite_configures (by simp [configRegs])).bind fun _ => (timedPoll_configures _ _ _).bind fun ok => ?_
  cases ok with
  | true => exact .pure ()
  | false => exact .raise (.inr ⟨rfl, rfl⟩)

/-- The pattern of most options: writes, then configuration registers. -/
theorem writeThenConfigure_configures {ws : List (Addr × Byte)} {f : CfgRegs → CfgRegs}
    (hws : ∀ w ∈ ws, w.1 ∈ configRegs p) : Configures p (do xwriteAll ws; updateCfg f : R Unit) :=
  (xwriteAll_configures hws).bind fun _ => updateCfg_configures f

theorem syncWrites_configRegs {b : List Byte} (hb : syncCountOk b.length = true) :
    ∀ w ∈ syncWrites p.xr.syncvalue b, w.1 ∈ configRegs p := by
  obtain ⟨-, hhi⟩ := syncCountOk_eq_true.1 hb
  intro w hw
  rw [syncWrites_eq] at hw
  obtain ⟨i, hi, rfl⟩ := List.mem_map.1 hw
  have hi3 : i < 3 := (List.mem_range.1 hi).trans_le hhi
  interval_cases i <;> simp [configRegs]

theorem applyOption_configures (o : CfgOption) : Configures p (applyOption o) := by
  cases o with
  | freq f =>
    show Configures p (applyFreq f)
    unfold applyFreq
    split
    · exact .raise (.inl ⟨rfl, by decide⟩)
    · refine .current fun s hs => ?_
      subst hs
      refine (xwriteAll_configures (by simp [configRegs])).bind fun _ => (updateCfg_configures _).bind fun _ => ?_
      split
      · exact imageCal_configures
      · exact .pure ()
  | bitrate br =>
    show Configures p (applyBitrate br)
    unfold applyBitrate
    split
    · exact .raise (.inl ⟨rfl, by decide⟩)
    · refine .current fun s hs => ?_
      subst hs
      exact writeThenConfigure_configures (by simp [configRegs])
  | fdev fd =>
    show Configures p (applyFdev fd)
    unfold applyFdev
    split
    · exact .raise (.inl ⟨rfl, by decide⟩)
    · refine .current fun s hs => ?_
      subst hs
      exact writeThenConfigure_configures (by simp [configRegs])
  | rxbw hz =>
    refine .current fun s hs => ?_
    subst hs
    split
    · exact .raise (.inl ⟨rfl, by decide⟩)
    · exact (xwrite_configures (by simp [configRegs])).bind fun _ => updateCfg_configures _
  | afcbw hz =>
    refine .current fun s hs => ?_
    subst hs
    split
    · exact .raise (.inl ⟨rfl, by decide⟩)
    · exact (xwrite_configures (by simp [configRegs])).bind fun _ => updateCfg_configures _
  | preamble v =>
    refine .current fun s hs => ?_
    subst hs
    exact writeThenConfigure_configures (by simp [configRegs])
  | sync b =>
    show Configures p (applySync b)
    unfold applySync
    split
    · next hb =>
      refine .current fun s hs => ?_
      subst hs
      exact (xwriteAll_configures (syncWrites_configRegs hb)).bind fun _ => (xread_configures _).bind fun _ =>
        (xwrite_configures (by simp [configRegs])).bind fun _ => updateCfg_configures _
    · exact .raise (.inl ⟨rfl, by decide⟩)
  | pktlen f l => exact updateCfg_configures _
  | rxcont f => exact updateCfg_configures _

/-- ApplyConfig (R189). -/
theorem applyOptions_configures (os : List CfgOption) : Configures p (applyOptions os) := by
  induction os with
  | nil => exact .pure ()
  | cons o os ih => exact (applyOption_configures o).bind fun _ => ih

end

/-! ### The answer of a CONFIGURE -/

/-- What a command without a result answers when its body ends so (30_encoding.md R103, 60_exceptions.md R294). -/
def answerOf : Except Raised Unit → Response
  | .ok _ => .ok []
  | .error x => .exc x.code x.info

theorem configureWith_next {s t : State} (h : s.ctl.life = .ready) {os : List CfgOption} {r : Except Raised Unit}
    (hrun : (applyOptions os).run s = .ok (r, t)) :
    command (configureWith os) s = .next (t.emit (.respond (answerOf r))) := by
  unfold configureWith
  cases r with
  | ok a => exact command_ok (by simp only [bind_R, admit_radio h, hrun, pure_R]; rfl)
  | error x => exact command_raised (by simp only [bind_R, admit_radio h, hrun])

/-- The options of a body on a healthy bus, from a state and from every state that looks the same to them. -/
theorem applyOptions_did (os : List CfgOption) {s : State} (h : BusHealthy s) : ∃ r c e xs,
    (∀ t, SameInputs s t → (applyOptions os).run t = .ok (r, t.configured e xs c)) ∧ EnvStep (configRegs s.p) s.env e ∧
      (∀ a ∈ xs, Action.isBusRead a = true ∨ Action.isBusWrite a = true) ∧ ∀ x, r = .error x → OptionError x := by
  obtain ⟨r, c, e, xs, -, hrun⟩ := applyOptions_alike os h
  obtain ⟨⟨c', e', ys, hs, he, hy⟩, herr⟩ := applyOptions_configures os s r _ rfl (hrun s ⟨rfl, rfl, rfl⟩)
  obtain rfl : e = e' := congrArg State.env hs
  have htrace : (s.io.ran xs).trace = (s.io.ran ys).trace := congrArg (fun t => t.io.trace) hs
  rw [Io.ran_trace, Io.ran_trace] at htrace
  exact ⟨r, c, e, xs, hrun, he, List.append_cancel_left htrace ▸ hy, herr⟩

/-- What the options answer: OK, E_BAD_ARG with a mask bit, or the calibration's E_TIMEOUT (60_exceptions.md R284). -/
theorem answerOf_option {r : Except Raised Unit} (h : ∀ x, r = .error x → OptionError x) :
    answerOf r = .ok [] ∨ (∃ k : U16, k.toNat ≤ 8 ∧ answerOf r = .exc .badArg k) ∨ answerOf r = .exc .timeout 1 := by
  cases r with
  | ok a => exact .inl rfl
  | error x =>
    obtain ⟨code, info⟩ := x
    rcases h _ rfl with ⟨rfl, hinfo⟩ | ⟨rfl, rfl⟩
    · exact .inr (.inl ⟨info, hinfo, rfl⟩)
    · exact .inr (.inr rfl)

/-- Settles O33: the options change what `OptionStep` says, and the answer is one more action. -/
theorem configureFrame : Obligations.ConfigureFrame := by
  intro s c hlife hbus
  obtain ⟨r, regs, e, acts, hrun, he, hacts, herr⟩ := applyOptions_did (cfgOptions c) hbus
  refine ⟨regs, e, acts, answerOf r, ?_, he.regs, hacts, answerOf_option herr⟩
  exact (configureWith_next hlife (hrun s ⟨rfl, rfl, rfl⟩)).trans (congrArg _ (configured_respond ..))

/-! ### One option after another -/

theorem emit_injective {s t : State} {a b : Action} (h : s.emit a = t.emit b) : s = t ∧ a = b := by
  have htrace : s.io.trace ++ [a] = t.io.trace ++ [b] := congrArg (fun u => u.io.trace) h
  obtain ⟨hpre, hlast⟩ := List.append_inj' htrace rfl
  refine ⟨?_, List.singleton_inj.1 hlast⟩
  obtain ⟨_, _, _, _, _, _, ⟨_, _, _, _⟩, _, _, _⟩ := s
  obtain ⟨_, _, _, _, _, _, ⟨_, _, _, _⟩, _, _, _⟩ := t
  simp only [State.emit, State.mk.injEq, Io.mk.injEq] at h hpre ⊢
  tauto

section
variable {s u : State} (h : s.ctl.life = .ready) {o : CfgOption}
include h

/-- A lone option that answered left the state before its answer, and its answer says how it ended. -/
theorem configure_one_next {x : Response} (hone : command (configureWith [o]) s = .next (u.emit (.respond x))) :
    ∃ r, (applyOption o).run s = .ok (r, u) ∧ answerOf r = x := by
  rw [configure_one h] at hone
  cases hrun : (applyOption o).run s with
  | error f => rw [hrun] at hone; cases hone
  | ok y =>
    obtain ⟨r, t⟩ := y
    rw [hrun] at hone
    have hemit : t.emit (.respond (answerOf r)) = u.emit (.respond x) := by
      cases r <;> exact Host.Outcome.next.inj hone
    obtain ⟨rfl, hx⟩ := emit_injective hemit
    exact ⟨r, rfl, Action.respond.inj hx⟩

/-- A first option that succeeds is followed by the others. -/
theorem configure_cons_ok {os : List CfgOption} (hrun : (applyOption o).run s = .ok (.ok (), u)) :
    command (configureWith (o :: os)) s = command (configureWith os) u := by
  have hu : u.ctl.life = .ready := by
    rw [(applyOption_configures o s _ u rfl hrun).1.ctl, h]
  unfold command configureWith
  simp only [bind_R, admit_radio h, admit_radio hu, applyOptions, hrun]

/-- A first option that raises ends the whole. -/
theorem configure_cons_raised {os : List CfgOption} {x : Raised} (hrun : (applyOption o).run s = .ok (.error x, u)) :
    command (configureWith (o :: os)) s = .next (u.emit (.respond (.exc x.code x.info))) :=
  configureWith_next h (r := .error x) (by simp only [applyOptions, bind_R, hrun])

end

/-- A body has no option, or its first one heads the list of its options and that one's row is a CONFIGURE with it alone
(log 13). -/
theorem firstOption_cases : ∀ c : CfgBody, (firstOption c = none ∧ cfgOptions c = []) ∨
    ∃ row others o, firstOption c = some (row, others) ∧ cfgOptions c = o :: cfgOptions others ∧
      ∀ s, exec row s = command (configureWith [o]) s
  | ⟨some x, _, _, _, _, _, _, _, _⟩ => .inr ⟨_, _, .freq x, rfl, rfl, fun _ => rfl⟩
  | ⟨none, some x, _, _, _, _, _, _, _⟩ => .inr ⟨_, _, .bitrate x, rfl, rfl, fun _ => rfl⟩
  | ⟨none, none, some x, _, _, _, _, _, _⟩ => .inr ⟨_, _, .fdev x, rfl, rfl, fun _ => rfl⟩
  | ⟨none, none, none, some x, _, _, _, _, _⟩ => .inr ⟨_, _, .rxbw x, rfl, rfl, fun _ => rfl⟩
  | ⟨none, none, none, none, some x, _, _, _, _⟩ => .inr ⟨_, _, .afcbw x, rfl, rfl, fun _ => rfl⟩
  | ⟨none, none, none, none, none, some x, _, _, _⟩ => .inr ⟨_, _, .preamble x, rfl, rfl, fun _ => rfl⟩
  | ⟨none, none, none, none, none, none, some x, _, _⟩ => .inr ⟨_, _, .sync x, rfl, rfl, fun _ => rfl⟩
  | ⟨none, none, none, none, none, none, none, some x, _⟩ => .inr ⟨_, _, .pktlen x.1 x.2, rfl, rfl, fun _ => rfl⟩
  | ⟨none, none, none, none, none, none, none, none, some x⟩ => .inr ⟨_, _, .rxcont x, rfl, rfl, fun _ => rfl⟩
  | ⟨none, none, none, none, none, none, none, none, none⟩ => .inl ⟨rfl, rfl⟩

theorem cfgOptions_of_firstOption_none {c : CfgBody} (h : firstOption c = none) : cfgOptions c = [] := by
  rcases firstOption_cases c with ⟨-, hnil⟩ | ⟨row, others, o, hsome, -⟩
  · exact hnil
  · cases h.symm.trans hsome

theorem cfgOptions_of_firstOption_some {c others : CfgBody} {row : Instr} (h : firstOption c = some (row, others)) :
    ∃ o, cfgOptions c = o :: cfgOptions others ∧ ∀ s, exec row s = command (configureWith [o]) s := by
  rcases firstOption_cases c with ⟨hnone, -⟩ | ⟨row', others', o, hsome, hcons, hrow⟩
  · cases h.symm.trans hnone
  · cases h.symm.trans hsome
    exact ⟨o, hcons, hrow⟩

theorem exec_configure (c : CfgBody) (s : State) :
    exec (.configure c) s = command (configureWith (cfgOptions c)) s := rfl

/-- Settles O32: the first option alone says how the body begins. -/
theorem configureSequence : Obligations.ConfigureSequence := by
  intro s c hlife
  refine ⟨fun hnone => ?_, fun row others hfirst u => ?_⟩
  · rw [exec_configure, cfgOptions_of_firstOption_none hnone]
    exact configureWith_next hlife (os := []) rfl
  · obtain ⟨o, hcons, hrow⟩ := cfgOptions_of_firstOption_some hfirst
    rw [hrow, exec_configure, exec_configure, hcons]
    refine ⟨fun hone => ?_, fun x info hone => ?_⟩
    · obtain ⟨r, hrun, hr⟩ := configure_one_next hlife hone
      cases r with
      | ok a => exact configure_cons_ok hlife hrun
      | error x => cases hr
    · obtain ⟨r, hrun, hr⟩ := configure_one_next hlife hone
      cases r with
      | ok a => cases hr
      | error y => cases hr; exact configure_cons_raised hlife hrun

end Sys2Proof.Machine
end

section
/-! PROOFS. 42_radio_init_config.md R180 to R185, R205: construction and close. -/

namespace Sys2Proof.Machine

/-! ### CLOSE -/

theorem sleep_pattern (b : Byte) : b ||| modeCode .sleep = b := BitVec.or_zero

/-- The cancellation of a safety timer is no bus access. -/
theorem BusRun.cancelled (p : Params) (s : State) (e : Env) : BusRun p e (cancelled s ++ [.cancelBackground]) e := by
  unfold Machine.cancelled
  cases s.tmr.safetyArmed <;> rfl

/-- Settles O37: the mode write, the two cancellations and the state CLOSE leaves. -/
theorem closeResult : Obligations.CloseResult := by
  intro s hlife
  obtain ⟨e, hmode, hbus⟩ := setMode_did .sleep s
  rw [sleep_pattern] at hmode hbus
  have hrun := hbus.append (BusRun.cancelled s.p s e)
  refine ⟨e, hrun, hrun.regs ?_, ?_⟩
  · simp only [storedBy_append]
    unfold cancelled
    cases s.tmr.safetyArmed <;> simp [storedBy]
  · refine (command_ok (r := .ok []) (by
      simp only [bind_R, admit_radio hlife, lift_R, hmode, cancelSafety_did, emit_M, update_M, pure_R]
      rfl)).trans ?_
    simp only [Io.ran_append]
    rfl

/-! ### The version poll -/

theorem xreadVersion_did (a : Addr) (s : State) : xreadVersion a s = .ok ((readAnswer true s.p a s.env).1,
    s.did (readAnswer true s.p a s.env).2 [.xread a (readAnswer true s.p a s.env).1]) := by
  unfold xreadVersion afterPollRead
  generalize readAnswer true s.p a s.env = x
  obtain ⟨r, e⟩ := x
  cases r <;> rfl

/-- The answer is one of the two known versions (R183). -/
theorem versionMatches_eq_true {p : Params} {r : BusAnswer} :
    versionMatches p r = true ↔ r = .byte p.versionA ∨ r = .byte p.versionB := by
  cases r <;> simp [versionMatches]

theorem versionMatches_eq_false {p : Params} {r : BusAnswer} :
    versionMatches p r = false ↔ r ≠ .byte p.versionA ∧ r ≠ .byte p.versionB := by
  rw [← Bool.not_eq_true, versionMatches_eq_true, not_or]

theorem versionAnswers_succ {p : Params} {k : Nat} {e e' : Env} {rs : List BusAnswer} :
    versionAnswers p (k + 1) e = (rs, e') ↔ ∃ r e0 tail, rs = r :: tail ∧ readAnswer true p p.xr.version e = (r, e0) ∧
      versionAnswers p k e0 = (tail, e') := by
  constructor
  · intro h
    obtain ⟨rfl, rfl⟩ := Prod.mk.inj h
    exact ⟨_, _, _, rfl, rfl, rfl⟩
  · rintro ⟨r, e0, tail, rfl, hr, htail⟩
    rw [versionAnswers, hr, htail]

section
variable {k : Nat} {last r : BusAnswer} {s : State} {e : Env} (hr : readAnswer true s.p s.p.xr.version s.env = (r, e))
include hr

/-- A try that finds a known version is the last (R183). -/
theorem versionTries_stop (hgood : versionMatches s.p r = true) :
    (versionTries (k + 1) last).run s = .ok (.ok (), s.did e [.xread s.p.xr.version r]) := by
  rw [versionTries]
  simp only [bind_R, lift_R, current_M, xreadVersion_did, hr, if_pos hgood]
  rfl

/-- A failed try, its wait, and the tries that are left (R183). -/
theorem versionTries_retry (hbad : versionMatches s.p r = false) :
    (versionTries (k + 1) last).run s = (versionTries k r).run (s.did e [.xread s.p.xr.version r, .wait 2]) := by
  rw [versionTries]
  simp only [bind_R, lift_R, current_M, xreadVersion_did, hr, hbad, Bool.false_eq_true, if_false]
  rfl

end

/-- Failed tries, then one that finds a known version. -/
theorem versionTries_finds {good : BusAnswer} {e : Env} (bad : List BusAnswer) : ∀ {k : Nat} {last : BusAnswer} {s : State},
    bad.length < k → (∀ r ∈ bad, versionMatches s.p r = false) → versionMatches s.p good = true →
      versionAnswers s.p (bad.length + 1) s.env = (bad ++ [good], e) →
        (versionTries k last).run s = .ok (.ok (), s.did e (failedTries s.p bad ++ [.xread s.p.xr.version good])) := by
  induction bad with
  | nil =>
    rintro (_ | k) last s hk _ hgood hans
    · cases hk
    · obtain ⟨r, e0, tail, hcons, hr, htail⟩ := versionAnswers_succ.1 hans
      obtain ⟨rfl, rfl⟩ := List.cons.inj hcons
      obtain rfl : e0 = e := congrArg Prod.snd htail
      exact versionTries_stop hr hgood
  | cons b bad ih =>
    rintro (_ | k) last s hk hbad hgood hans
    · cases hk
    · obtain ⟨r, e0, tail, hcons, hr, htail⟩ := versionAnswers_succ.1 hans
      obtain ⟨rfl, rfl⟩ := List.cons.inj hcons
      obtain ⟨hb, hrest⟩ := List.forall_mem_cons.1 hbad
      rw [versionTries_retry hr hb]
      refine (ih (s := s.did e0 [_, _]) (Nat.lt_of_succ_lt_succ hk) hrest hgood htail).trans ?_
      rw [did_did]
      rfl

/-- As many failed tries as there are (R183). -/
theorem versionTries_misses {e : Env} (k : Nat) : ∀ {bad : List BusAnswer} {last : BusAnswer} {s : State},
    versionAnswers s.p k s.env = (bad, e) → (∀ r ∈ bad, versionMatches s.p r = false) →
      (versionTries k last).run s = .ok (.error ⟨.chipNotFound, versionInfo (bad.getLast?.getD last)⟩,
        s.did e (failedTries s.p bad)) := by
  induction k with
  | zero =>
    intro bad last s hans _
    cases hans
    rfl
  | succ k ih =>
    intro bad last s hans hbad
    obtain ⟨r, e0, tail, rfl, hr, htail⟩ := versionAnswers_succ.1 hans
    obtain ⟨hb, hrest⟩ := List.forall_mem_cons.1 hbad
    rw [versionTries_retry hr hb]
    refine (ih (s := s.did e0 [_, _]) htail hrest).trans ?_
    rw [did_did, List.getLast?_cons]
    rfl

/-- The reads of a version poll end with a known version, or none of them is one. -/
theorem versionAnswers_cases (p : Params) (k : Nat) : ∀ e : Env,
    (∃ bad good e', bad.length < k ∧ (∀ r ∈ bad, versionMatches p r = false) ∧ versionMatches p good = true ∧
      versionAnswers p (bad.length + 1) e = (bad ++ [good], e')) ∨
    ∃ bad e', versionAnswers p k e = (bad, e') ∧ ∀ r ∈ bad, versionMatches p r = false := by
  induction k with
  | zero => exact fun e => .inr ⟨[], e, rfl, by simp⟩
  | succ k ih =>
    intro e
    cases hr : versionMatches p (readAnswer true p p.xr.version e).1 with
    | true => exact .inl ⟨[], _, _, Nat.succ_pos k, by simp, hr, rfl⟩
    | false =>
      rcases ih (readAnswer true p p.xr.version e).2 with ⟨bad, good, e', hk, hbad, hgood, hans⟩ | ⟨bad, e', hans, hbad⟩
      · exact .inl ⟨_ :: bad, good, e', Nat.succ_lt_succ hk, List.forall_mem_cons.2 ⟨hr, hbad⟩, hgood,
          versionAnswers_succ.2 ⟨_, _, _, rfl, rfl, hans⟩⟩
      · exact .inr ⟨_, e', versionAnswers_succ.2 ⟨_, _, _, rfl, rfl, hans⟩, List.forall_mem_cons.2 ⟨hr, hbad⟩⟩

theorem versionAnswers_env (p : Params) (k : Nat) : ∀ e, EnvStep [] e (versionAnswers p k e).2 := by
  induction k with
  | zero => exact fun e => .refl _ e
  | succ k ih => exact fun e => (readAnswer_env true p p.xr.version e).trans (ih _)

/-! ### The scratch register and the table -/

/-- A pattern written and the byte read back (R184). -/
def scratchActs (p : Params) (pat v : Byte) : List Action :=
  [.xwrite p.scratchAddr pat, .xread p.scratchAddr (.byte v)]

theorem scratchPattern_run {pat v : Byte} {info : U16} {s : State} {e : Env}
    (h : BusRun s.p s.env (scratchActs s.p pat v) e) :
    (scratchPattern pat info).run s =
      .ok (if v = pat then .ok () else .error ⟨.busDead, info⟩, s.did e (scratchActs s.p pat v)) := by
  obtain ⟨e', hwrite, hread⟩ := BusRun.split (xs := [_]) h
  have hv := xread_of_run (s := s.did e' [.xwrite s.p.scratchAddr pat]) hread
  rw [did_did] at hv
  simp only [scratchPattern, bind_R, lift_R, current_M, xwrite_of_run hwrite, hv]
  by_cases heq : v = pat
  · simp only [heq, BEq.rfl, require_true, if_true]
    rfl
  · simp only [beq_eq_false_iff_ne.2 heq, require_false, if_neg heq]
    rfl

theorem scratchPattern_total (p : Params) (pat : Byte) {e : Env} (h : BusAnswer.error ∉ e.answers) :
    ∃ v e', BusRun p e (scratchActs p pat v) e' := by
  obtain ⟨v, hv⟩ := readAnswer_byte p p.scratchAddr _ ((writeEffect_env p p.scratchAddr pat e).healthy h)
  exact ⟨v, _, hv, rfl⟩

theorem writeInitTable_run {s : State} {e : Env} (htable : initTableOk s.p = true)
    (h : BusRun s.p s.env (writesOf s.p.initTable) e) :
    writeInitTable s = .ok ((), s.did e (writesOf s.p.initTable)) := by
  simp only [writeInitTable, bind_M, current_M, htable, if_true, xwriteAll_of_run h]


/-! ### The checks of the chip, in order -/

/-- Steps 3 and 4 of R180 with the table of step 5: what INIT does with the chip before it applies options. -/
def checkChip : R Unit := do
  versionPoll
  scratchVerify
  writeInitTable

/-- The actions of the version poll that finds `good` after failed tries. -/
def foundActs (p : Params) (bad : List BusAnswer) (good : BusAnswer) : List Action :=
  failedTries p bad ++ [.xread p.xr.version good]

/-- The version register answers a known version within ten tries, which leaves `e0`. -/
structure Identified (p : Params) (e : Env) (bad : List BusAnswer) (good : BusAnswer) (e0 : Env) : Prop where
  tries : bad.length < 10
  failed : ∀ r ∈ bad, versionMatches p r = false
  known : versionMatches p good = true
  answers : versionAnswers p (bad.length + 1) e = (bad ++ [good], e0)

theorem Identified.env {p : Params} {e e0 : Env} {bad : List BusAnswer} {good : BusAnswer}
    (h : Identified p e bad good e0) : EnvStep [] e e0 := by
  have henv := versionAnswers_env p (bad.length + 1) e
  rw [h.answers] at henv
  exact henv

theorem checkChip_absent {s : State} {bad : List BusAnswer} {e : Env} (hans : versionAnswers s.p 10 s.env = (bad, e))
    (hbad : ∀ r ∈ bad, versionMatches s.p r = false) :
    checkChip.run s = .ok (.error ⟨.chipNotFound, versionInfo (bad.getLast?.getD .error)⟩,
      s.did e (failedTries s.p bad)) := by
  have hpoll : versionPoll.run s = _ := versionTries_misses 10 hans hbad
  simp only [checkChip, bind_R, hpoll]

section
variable {s : State} {bad : List BusAnswer} {good : BusAnswer} {e0 : Env} (h : Identified s.p s.env bad good e0)
include h

theorem checkChip_identified : checkChip.run s =
    (do scratchVerify; writeInitTable : R Unit).run (s.did e0 (foundActs s.p bad good)) := by
  have hpoll : versionPoll.run s = _ := versionTries_finds bad h.tries h.failed h.known h.answers
  simp only [checkChip, bind_R, hpoll, foundActs]

/-- The first pattern reads back as another byte (R184). -/
theorem checkChip_dead_first {v : Byte} {e1 : Env} (hv : v ≠ s.p.scratchPatA)
    (hbus : BusRun s.p e0 (scratchActs s.p s.p.scratchPatA v) e1) :
    checkChip.run s = .ok (.error ⟨.busDead, 0⟩,
      s.did e1 (foundActs s.p bad good ++ scratchActs s.p s.p.scratchPatA v)) := by
  have hfirst := scratchPattern_run (info := 0) (s := s.did e0 (foundActs s.p bad good)) hbus
  rw [if_neg hv, did_did] at hfirst
  rw [checkChip_identified h]
  simp only [scratchVerify, bind_R, lift_R, current_M, State.did_p, hfirst]

/-- The second pattern does (R184). -/
theorem checkChip_dead_second {v : Byte} {e1 : Env} (hv : v ≠ s.p.scratchPatB)
    (hbus : BusRun s.p e0 (scratchActs s.p s.p.scratchPatA s.p.scratchPatA ++ scratchActs s.p s.p.scratchPatB v) e1) :
    checkChip.run s = .ok (.error ⟨.busDead, 1⟩, s.did e1 (foundActs s.p bad good ++
      (scratchActs s.p s.p.scratchPatA s.p.scratchPatA ++ scratchActs s.p s.p.scratchPatB v))) := by
  obtain ⟨e, hbusA, hbusB⟩ := hbus.split
  have hfirst := scratchPattern_run (info := 0) (s := s.did e0 (foundActs s.p bad good)) hbusA
  have hsecond := scratchPattern_run (info := 1)
    (s := s.did e (foundActs s.p bad good ++ scratchActs s.p s.p.scratchPatA s.p.scratchPatA)) hbusB
  rw [if_pos rfl, did_did] at hfirst
  rw [if_neg hv, did_did, List.append_assoc] at hsecond
  rw [checkChip_identified h]
  simp only [scratchVerify, bind_R, lift_R, current_M, State.did_p] at hfirst hsecond ⊢
  simp only [hfirst, hsecond]

/-- Both patterns read back, and the table is written (R184, R185). -/
theorem checkChip_passed {e1 : Env} (htable : initTableOk s.p = true)
    (hbus : BusRun s.p e0 (scratchActs s.p s.p.scratchPatA s.p.scratchPatA ++
      scratchActs s.p s.p.scratchPatB s.p.scratchPatB ++ writesOf s.p.initTable) e1) :
    checkChip.run s = .ok (.ok (), s.did e1 (foundActs s.p bad good ++
      (scratchActs s.p s.p.scratchPatA s.p.scratchPatA ++ scratchActs s.p s.p.scratchPatB s.p.scratchPatB ++ writesOf s.p.initTable))) := by
  obtain ⟨e, hchecks, hbusT⟩ := hbus.split
  obtain ⟨e', hbusA, hbusB⟩ := hchecks.split
  have hfirst := scratchPattern_run (info := 0) (s := s.did e0 (foundActs s.p bad good)) hbusA
  have hsecond := scratchPattern_run (info := 1)
    (s := s.did e' (foundActs s.p bad good ++ scratchActs s.p s.p.scratchPatA s.p.scratchPatA)) hbusB
  have htab := writeInitTable_run (s := s.did e (foundActs s.p bad good ++
    (scratchActs s.p s.p.scratchPatA s.p.scratchPatA ++ scratchActs s.p s.p.scratchPatB s.p.scratchPatB))) htable hbusT
  rw [if_pos rfl, did_did] at hfirst
  rw [if_pos rfl, did_did, List.append_assoc] at hsecond
  rw [did_did, List.append_assoc] at htab
  rw [checkChip_identified h]
  simp only [scratchVerify, bind_R, lift_R, current_M, State.did_p] at hfirst hsecond htab ⊢
  simp only [hfirst, hsecond, htab]

end

/-! ### INIT around the checks -/

/-- The state at the first check (R180 steps 1 and 2). -/
def pulsed (s : State) : State := (constructing s).did s.env pulse

@[simp] theorem pulsed_p (s : State) : (pulsed s).p = s.p := rfl
@[simp] theorem pulsed_env (s : State) : (pulsed s).env = s.env := rfl

theorem resetPulse_did (s : State) : resetPulse (constructEmpty s) = .ok ((), pulsed s) := rfl

/-- The checks, then the options. -/
theorem constructChip_run (os : List CfgOption) (s : State) :
    (constructChip os).run (constructEmpty s) = (do checkChip; applyOptions os : R Unit).run (pulsed s) := by
  rw [constructChip, bind_R, lift_R, resetPulse_did]
  simp only [checkChip, bind_assoc]

/-- The tracker's start value in 8.4 fixed point (R263). -/
theorem startValue_eq (b : Byte) : (b.zeroExtend 12) <<< 4 = BitVec.ofNat 12 (16 * b.toNat) := by revert b; decide

/-- The state after the services are started (R180 step 6). -/
def started (t : State) : State :=
  { t with
    ctl := { t.ctl with life := .ready }
    trk := { t.trk with bgRssi := BitVec.ofNat 12 (16 * t.p.bgRssiInit.toNat) }
    tmr := { t.tmr with dioEn := true, bgArmed := true } }

/-- The state INIT leaves when the construction left `t`: the services started, RECEIVE entered where it is configured, and
the answer OK (R180 steps 6 and 7). -/
def enteredInit (t : State) (e : Env) : State :=
  { started t with
    ctl := { t.ctl with life := .ready, mode := if rxContinuous t then .receive else t.ctl.mode }
    env := e
    io := t.io.ran ([.armPeriodic 11000] ++ receiveActs t ++ [.respond (.ok [])]) }

theorem startServices_did (t : State) : startServices t = .ok ((), (started t).did t.env [.armPeriodic 11000]) := by
  rw [started, ← startValue_eq]
  rfl

section
variable {s t : State} (h : s.ctl.life ≠ .ready) {os : List CfgOption}
include h

/-- An exception inside the construction (R181). -/
theorem init_raised {x : Raised} (hrun : (do checkChip; applyOptions os : R Unit).run (pulsed s) = .ok (.error x, t)) :
    command (initWith os) s = .next ((constructFailed t).emit (.respond (.exc x.code x.info))) := by
  have hfail : (orFail (constructChip os)).run (constructEmpty s) = .ok (.error x, constructFailed t) := by
    show orFail _ _ = _
    simp only [orFail, ExceptT.mk, constructChip_run, hrun]
  exact command_raised (by simp only [initWith, bind_R, lift_R, admit_construct h, update_M, hfail])

/-- A construction that succeeds: the services, and RECEIVE where it is configured (R180 steps 6 and 7). -/
theorem init_built (hrun : (do checkChip; applyOptions os : R Unit).run (pulsed s) = .ok (.ok (), t)) :
    ∃ e, BusRun t.p t.env (receiveActs t) e ∧ command (initWith os) s = .next (enteredInit t e) := by
  have hbuilt : (orFail (constructChip os)).run (constructEmpty s) = .ok (.ok (), t) := by
    show orFail _ _ = _
    simp only [orFail, ExceptT.mk, constructChip_run, hrun]
  obtain ⟨e, hreceive, hbus⟩ := receiveIfContinuous_did ((started t).did t.env [.armPeriodic 11000])
  refine ⟨e, hbus, (command_ok (r := .ok []) (by
    simp only [initWith, bind_R, lift_R, admit_construct h, update_M, hbuilt, startServices_did, hreceive, pure_R]
    rfl)).trans ?_⟩
  simp only [enteredInit, Io.ran_append]
  rfl

end

/-- FAILED after the pulse and the actions `xs`, answered with an exception (R181). -/
def failedInit (s : State) (e : Env) (xs : List Action) (x : Raised) : State :=
  { constructing s with
    ctl := { (constructing s).ctl with life := .failed }
    tmr := { (constructing s).tmr with bgArmed := false, dioEn := false }
    env := e
    io := s.io.ran (pulse ++ xs ++ [.respond (.exc x.code x.info)]) }

/-- READY in STANDBY after the pulse and the actions `xs`, with no option applied, answered OK (R180). -/
def emptyInit (s : State) (e : Env) (xs : List Action) : State :=
  { constructing s with
    ctl := { (constructing s).ctl with life := .ready }
    trk := { (constructing s).trk with bgRssi := BitVec.ofNat 12 (16 * s.p.bgRssiInit.toNat) }
    tmr := { (constructing s).tmr with dioEn := true, bgArmed := true }
    env := e
    io := s.io.ran (pulse ++ xs ++ [.armPeriodic 11000, .respond (.ok [])]) }

/-- A check that fails decides the whole, whatever the options. -/
theorem exec_init_failed {s : State} (h : s.ctl.life ≠ .ready) (cfg : CfgBody) {x : Raised} {e : Env} {xs : List Action}
    (hrun : checkChip.run (pulsed s) = .ok (.error x, (pulsed s).did e xs)) :
    exec (.init cfg) s = .next (failedInit s e xs x) := by
  have hall : (do checkChip; applyOptions (cfgOptions cfg) : R Unit).run (pulsed s) =
      .ok (.error x, (pulsed s).did e xs) := by simp only [bind_R, hrun]
  refine (init_raised h hall).trans ?_
  simp only [failedInit, Io.ran_append]
  rfl

/-- Checks that pass, with no option to apply: RECEIVE is not entered, as no option configured it. -/
theorem exec_init_empty {s : State} (h : s.ctl.life ≠ .ready) {e : Env} {xs : List Action}
    (hrun : checkChip.run (pulsed s) = .ok (.ok (), (pulsed s).did e xs)) :
    exec (.init {}) s = .next (emptyInit s e xs) := by
  have hall : (do checkChip; applyOptions [] : R Unit).run (pulsed s) = .ok (.ok (), (pulsed s).did e xs) := by
    simp only [bind_R, hrun]
    rfl
  obtain ⟨e', hnil, hinit⟩ := init_built h hall
  obtain rfl : e' = e := hnil
  refine hinit.trans ?_
  simp only [emptyInit, enteredInit, State.did_io, Io.ran_append]
  rfl

/-- The scratch register and the table are all that the checks store to. -/
theorem storedBy_checks (p : Params) (a b c d : Byte) (ws : List (Addr × Byte)) :
    ∀ x ∈ storedBy (scratchActs p a b ++ scratchActs p c d ++ writesOf ws), x ∈ p.scratchAddr :: ws.map Prod.fst := by
  rw [storedBy_append, storedBy_writesOf]
  simp [scratchActs, storedBy]

/-- The chip is identified in the words of the obligations. -/
theorem identified_pulsed {s : State} {bad : List BusAnswer} {good : Byte} {e0 : Env} (hlen : bad.length < 10)
    (hbad : ∀ r ∈ bad, r ≠ .byte s.p.versionA ∧ r ≠ .byte s.p.versionB)
    (hgood : good = s.p.versionA ∨ good = s.p.versionB)
    (hans : versionAnswers s.p (bad.length + 1) s.env = (bad ++ [.byte good], e0)) :
    Identified (pulsed s).p (pulsed s).env bad (.byte good) e0 where
  tries := hlen
  failed r hr := versionMatches_eq_false.2 (hbad r hr)
  known := versionMatches_eq_true.2 (hgood.imp (congrArg _) (congrArg _))
  answers := hans

/-- Settles O34: the checks pass, and there is no option to apply. -/
theorem initEmptyBody : Obligations.InitEmptyBody := by
  intro s bad good e0 e1 hlife htable checks table hlen hbad hgood hans hbus c
  have hid := identified_pulsed hlen hbad hgood hans
  refine ⟨((hid.env.trans hbus.env).mono fun x hx => ?_).regs, ?_⟩
  · exact storedBy_checks s.p s.p.scratchPatA _ _ _ s.p.initTable x hx
  · refine (exec_init_empty hlife (checkChip_passed hid htable hbus)).trans ?_
    simp only [emptyInit, foundActs, Io.ran_append]
    rfl

/-- Settles O35: the poll without a known version, and either scratch pattern. -/
theorem initFailures : Obligations.InitFailures := by
  intro s cfg hlife c failed
  constructor
  · intro bad e hans hbad last
    have hlast : versionInfo (bad.getLast?.getD .error) = last := by
      unfold last
      rcases bad.getLast? with _ | _ | _ <;> rfl
    rw [← hlast]
    exact exec_init_failed hlife cfg (checkChip_absent hans fun r hr => versionMatches_eq_false.2 (hbad r hr))
  · intro bad good e0 e1 hlen hbad hgood hans found v
    have hid := identified_pulsed hlen hbad hgood hans
    exact ⟨fun hv hbus => exec_init_failed hlife cfg (checkChip_dead_first hid hv hbus),
      fun hv hbus => exec_init_failed hlife cfg (checkChip_dead_second hid hv hbus)⟩

/-! ### INIT with any body -/

/-- A write of the RESET line. -/
def Action.drivesReset : Action → Bool
  | .pinReset _ => true
  | _ => false

/-- Actions that leave the RESET line alone. -/
def PinQuiet (xs : List Action) : Prop := ∀ a ∈ xs, a.drivesReset = false

theorem PinQuiet.append {xs ys : List Action} (h : PinQuiet xs) (h' : PinQuiet ys) : PinQuiet (xs ++ ys) :=
  List.forall_mem_append.2 ⟨h, h'⟩

theorem pinQuiet_of_bus {xs : List Action} (h : ∀ a ∈ xs, Action.isBusRead a = true ∨ Action.isBusWrite a = true) :
    PinQuiet xs := fun a ha => by
  cases a
  case pinReset level => rcases h _ ha with hx | hx <;> cases hx
  all_goals rfl

theorem pinQuiet_failedTries (p : Params) (bad : List BusAnswer) : PinQuiet (failedTries p bad) := by
  intro a ha
  obtain ⟨r, -, hr⟩ := List.mem_flatMap.1 ha
  rcases List.mem_pair.1 hr with rfl | rfl <;> rfl

theorem pinQuiet_foundActs (p : Params) (bad : List BusAnswer) (good : BusAnswer) : PinQuiet (foundActs p bad good) :=
  (pinQuiet_failedTries p bad).append (by simp [PinQuiet, Action.drivesReset])

theorem pinQuiet_scratchActs (p : Params) (pat v : Byte) : PinQuiet (scratchActs p pat v) := by
  simp [PinQuiet, scratchActs, Action.drivesReset]

theorem pinQuiet_writesOf (ws : List (Addr × Byte)) : PinQuiet (writesOf ws) := fun a ha => by
  obtain ⟨w, -, rfl⟩ := List.mem_map.1 ha
  rfl

theorem PinQuiet.resetLine {xs : List Action} (h : PinQuiet xs) : ∀ io : Io, (io.ran xs).resetLine = io.resetLine := by
  induction xs with
  | nil => exact fun _ => rfl
  | cons x xs ih =>
    intro io
    obtain ⟨hx, hxs⟩ := List.forall_mem_cons.1 h
    rw [Io.ran_cons, ih hxs]
    cases x
    case pinReset level => cases hx
    case xread a r => cases r <;> rfl
    all_goals rfl

/-- After the pulse, quiet actions and an answer the RESET line is at 1 (R180 step 2). -/
theorem resetLine_after_pulse {io io' : Io} {xs : List Action} {r : Response} (h : PinQuiet xs)
    (hio : io' = io.ran (pulse ++ xs ++ [.respond r])) : io'.resetLine = true := by
  rw [hio, Io.ran_append, Io.ran_append, PinQuiet.resetLine (xs := [.respond r])
    (by simp [PinQuiet, Action.drivesReset]), h.resetLine]
  rfl

/-- The exceptions of the checks (60_exceptions.md R284). -/
def CheckError (x : Raised) : Prop := x.code = .chipNotFound ∨ (x.code = .busDead ∧ (x.info = 0 ∨ x.info = 1))

/-- The checks complete on a healthy bus. -/
theorem checkChip_total {s : State} (hbus : BusHealthy s) (htable : initTableOk s.p = true) : ∃ r e xs,
    checkChip.run s = .ok (r, s.did e xs) ∧ EnvStep (s.p.scratchAddr :: s.p.initTable.map Prod.fst) s.env e ∧
      PinQuiet xs ∧ ∀ x, r = .error x → CheckError x := by
  rcases versionAnswers_cases s.p 10 s.env with ⟨bad, good, e0, hk, hbad, hgood, hans⟩ | ⟨bad, e, hans, hbad⟩
  · have hid : Identified s.p s.env bad good e0 := ⟨hk, hbad, hgood, hans⟩
    have hfound := pinQuiet_foundActs s.p bad good
    obtain ⟨v, e1, hbusA⟩ := scratchPattern_total s.p s.p.scratchPatA (hid.env.healthy hbus)
    have hquietA := pinQuiet_scratchActs s.p s.p.scratchPatA v
    by_cases hv : v = s.p.scratchPatA
    · subst hv
      obtain ⟨w, e2, hbusB⟩ := scratchPattern_total s.p s.p.scratchPatB (hbusA.env.healthy (hid.env.healthy hbus))
      have hboth := hbusA.append hbusB
      have hquietB := hquietA.append (pinQuiet_scratchActs s.p s.p.scratchPatB w)
      by_cases hw : w = s.p.scratchPatB
      · subst hw
        obtain ⟨e3, -, hbusT⟩ := xwriteAll_did s.p.initTable (s.withEnv e2)
        have hall := hboth.append hbusT
        exact ⟨_, e3, _, checkChip_passed hid htable hall,
          (hid.env.trans hall.env).mono (storedBy_checks s.p s.p.scratchPatA _ _ _ _),
          hfound.append (hquietB.append (pinQuiet_writesOf _)), fun _ hx => nomatch hx⟩
      · refine ⟨_, e2, _, checkChip_dead_second hid hw hboth, (hid.env.trans hboth.env).mono ?_,
          hfound.append hquietB, ?_⟩
        · simp [scratchActs, storedBy]
        · exact fun x hx => by cases hx; exact .inr ⟨rfl, .inr rfl⟩
    · refine ⟨_, e1, _, checkChip_dead_first hid hv hbusA, (hid.env.trans hbusA.env).mono ?_,
        hfound.append hquietA, ?_⟩
      · simp [scratchActs, storedBy]
      · exact fun x hx => by cases hx; exact .inr ⟨rfl, .inl rfl⟩
  · have henv := versionAnswers_env s.p 10 s.env
    rw [hans] at henv
    exact ⟨_, e, _, checkChip_absent hans hbad, henv.mono (by simp), pinQuiet_failedTries s.p bad,
      fun x hx => by cases hx; exact .inl rfl⟩

theorem answer_of_checkError {x : Raised} (h : CheckError x) :
    (∃ v, Response.exc x.code x.info = .exc .chipNotFound v) ∨ Response.exc x.code x.info = .exc .busDead 0 ∨
      Response.exc x.code x.info = .exc .busDead 1 := by
  obtain ⟨code, info⟩ := x
  rcases h with rfl | ⟨rfl, rfl | rfl⟩
  · exact .inl ⟨info, rfl⟩
  · exact .inr (.inl rfl)
  · exact .inr (.inr rfl)

section
variable {s : State} {e1 e2 : Env} {xs opts : List Action} {c : CfgRegs} {cfg : CfgBody}
  {r : Except Raised Unit}
  (hopts : ∀ t, SameInputs ((pulsed s).did e1 xs) t →
    (applyOptions (cfgOptions cfg)).run t = .ok (r, t.configured e2 opts c))
include hopts

/-- The options of a body after the checks. -/
theorem checkChip_options_run (hchecks : checkChip.run (pulsed s) = .ok (.ok (), (pulsed s).did e1 xs)) :
    (do checkChip; applyOptions (cfgOptions cfg) : R Unit).run (pulsed s) =
      .ok (r, (pulsed s).configured e2 (xs ++ opts) c) := by
  simp only [bind_R, hchecks, hopts _ ⟨rfl, rfl, rfl⟩, State.configured, did_did]

/-- CONFIGURE of the body from the state the empty INIT leaves sees what the options of INIT saw. -/
theorem exec_configure_emptyInit : exec (.configure cfg) (emptyInit s e1 xs) =
    .next (((emptyInit s e1 xs).configured e2 opts c).emit (.respond (answerOf r))) :=
  configureWith_next rfl (hopts (emptyInit s e1 xs) ⟨rfl, rfl, rfl⟩)

end

theorem storedBy_receiveActs (s : State) : ∀ a ∈ storedBy (receiveActs s), a ∈ [s.p.xr.opmode] := by
  unfold receiveActs
  split <;> simp [storedBy]

theorem pinQuiet_receiveActs (s : State) : PinQuiet (receiveActs s) := by
  unfold receiveActs
  split <;> simp [PinQuiet, Action.drivesReset]

/-- What the checks, the options and the entry of RECEIVE store to is among the registers INIT writes (R180). -/
theorem regsKept_init {p : Params} {e e1 e2 e3 : Env} (h1 : EnvStep (p.scratchAddr :: p.initTable.map Prod.fst) e e1)
    (h2 : EnvStep (configRegs p) e1 e2) (h3 : EnvStep [p.xr.opmode] e2 e3) : RegsKept (initRegs p) e e3 :=
  (((h1.trans h2).trans h3).mono fun a ha => by
    simp only [initRegs, List.mem_append, List.mem_cons] at ha ⊢
    tauto).regs

theorem unusable_failedInit (s : State) (e : Env) (xs : List Action) (x : Raised) : Unusable (failedInit s e xs x) := by
  simp [Unusable, failedInit, constructing]

theorem unusable_constructFailed {t : State} (h : t.ctl.mode = .standby) (a : Action) :
    Unusable ((constructFailed t).emit a) := by
  simp [Unusable, constructFailed, CfgRegs.invalidate, h]

/-! The outputs of the ways INIT ends, as actions. -/

theorem constructFailed_io (s : State) (e : Env) (ys : List Action) (c : CfgRegs) (r : Response) :
    ((constructFailed ((pulsed s).configured e ys c)).emit (.respond r)).io =
      s.io.ran (pulse ++ ys ++ [.respond r]) := by
  rw [Io.ran_append, Io.ran_append]; rfl

theorem enteredInit_io (s : State) (e e' : Env) (ys : List Action) (c : CfgRegs) :
    (enteredInit ((pulsed s).configured e ys c) e').io = s.io.ran
      (pulse ++ (ys ++ [.armPeriodic 11000] ++ receiveActs ((pulsed s).configured e ys c)) ++ [.respond (.ok [])]) := by
  simp only [enteredInit, State.configured_io, Io.ran_append]
  rfl

theorem configured_respond_io (s : State) (e : Env) (xs : List Action) (c : CfgRegs) (r : Response) :
    ((s.configured e xs c).emit (.respond r)).io = s.io.ran (xs ++ [.respond r]) := by
  rw [configured_respond]

/-- Settles O36: a failed check ends every body alike; after checks that pass the options act as in the CONFIGURE that
follows the empty INIT, and their end decides between READY and FAILED. -/
theorem initOutcome : Obligations.InitOutcome := by
  intro s cfg hbus htable hlife
  obtain ⟨r, e1, xs, hchecks, he1, hquiet, herr⟩ := checkChip_total (s := pulsed s) hbus htable
  cases r with
  | error x =>
    have hinit := fun body => exec_init_failed hlife body hchecks
    have hanswer := answer_of_checkError (herr x rfl)
    exact ⟨_, pulse ++ xs, .exc x.code x.info, hinit cfg, rfl, resetLine_after_pulse hquiet rfl,
      regsKept_init he1 (.refl _ _) (.refl _ _), rfl, rfl, rfl, rfl, rfl, rfl, rfl, rfl, rfl, rfl, rfl, rfl, rfl,
      .inr ⟨unusable_failedInit .., rfl, hanswer.imp_right (.imp_right .inl)⟩, _, hinit {}, .inl ⟨rfl, rfl⟩⟩
  | ok a =>
    obtain ⟨r, c, e2, opts, hopts, he2, hbusOpts, hoptErr⟩ := applyOptions_did (cfgOptions cfg)
      (s := (pulsed s).did e1 xs) (he1.healthy hbus)
    have hquiet2 := hquiet.append (pinQuiet_of_bus hbusOpts)
    have hempty := exec_init_empty hlife hchecks
    have hconf := exec_configure_emptyInit hopts
    have hrun := checkChip_options_run hopts hchecks
    cases r with
    | error x =>
      have hio := constructFailed_io s e2 (xs ++ opts) c (.exc x.code x.info)
      have hanswer := (answerOf_option hoptErr).resolve_left fun h => nomatch h
      exact ⟨_, pulse ++ (xs ++ opts), .exc x.code x.info, init_raised hlife hrun, hio,
        resetLine_after_pulse hquiet2 hio, regsKept_init he1 he2 (.refl _ _), rfl, rfl, rfl, rfl, rfl, rfl, rfl, rfl, rfl, rfl, rfl, rfl, rfl,
        .inr ⟨unusable_constructFailed rfl _, rfl, .inr (.inr (.inr hanswer))⟩, _, hempty,
        .inr ⟨rfl, pulse ++ xs, opts, _, rfl, hconf, configured_respond_io .., (fun h => nomatch h),
          fun _ => ⟨(List.append_assoc ..).symm, rfl, rfl⟩⟩⟩
    | ok a =>
      obtain ⟨e3, hreceive, hinit⟩ := init_built hlife hrun
      have hio := enteredInit_io s e2 e3 (xs ++ opts) c
      have hquiet3 := (hquiet2.append (ys := [.armPeriodic 11000]) (by simp [PinQuiet, Action.drivesReset])).append
        (pinQuiet_receiveActs ((pulsed s).configured e2 (xs ++ opts) c))
      exact ⟨_, _, .ok [], hinit, hio, resetLine_after_pulse hquiet3 hio,
        regsKept_init he1 he2 (hreceive.env.mono (storedBy_receiveActs _)),
        rfl, rfl, rfl, rfl, rfl, rfl, rfl, rfl, rfl, rfl, rfl, rfl, rfl, .inl ⟨rfl, rfl, rfl, rfl, rfl, rfl⟩, _, hempty,
        .inr ⟨rfl, pulse ++ xs, opts, _, rfl, hconf, configured_respond_io ..,
          (fun _ => ⟨rfl, by simp only [List.append_assoc]; rfl, hreceive⟩), fun h => absurd rfl h⟩⟩

end Sys2Proof.Machine
end

section
/-! PROOFS. 60_exceptions.md R287, 43_radio_rx_tx.md R220: outside READY only INIT acts. -/

namespace Sys2Proof.Machine

/-! ### Operations on the codec datapath -/

/-- The operation completes and changes the codec datapath at most. -/
def CodecOnly {α : Type} (m : M α) : Prop := ∀ s, ∃ a c, m s = .ok (a, { s with codec := c })

section
variable {α β : Type}

theorem CodecOnly.pure (a : α) : CodecOnly (pure a : M α) := fun s => ⟨a, s.codec, rfl⟩

theorem CodecOnly.bind {m : M α} {f : α → M β} (hm : CodecOnly m) (hf : ∀ a, CodecOnly (f a)) : CodecOnly (m >>= f) := by
  intro s
  obtain ⟨a, c, hrun⟩ := hm s
  obtain ⟨b, c', hrun'⟩ := hf a { s with codec := c }
  exact ⟨b, c', by rw [bind_M, hrun]; exact hrun'⟩

/-- The same of a part of a command, whose result may be an exception. -/
theorem CodecOnly.andThen {m : R α} {f : α → R β} (hm : CodecOnly m.run) (hf : ∀ a, CodecOnly (f a).run) :
    CodecOnly (m >>= f).run :=
  CodecOnly.bind (f := fun x => ExceptT.bindCont f x) hm fun x => by
    cases x with
    | ok a => exact hf a
    | error e => exact .pure _

theorem CodecOnly.lift {m : M α} (h : CodecOnly m) : CodecOnly (liftM m : R α).run := fun s => by
  obtain ⟨a, c, hrun⟩ := h s
  exact ⟨.ok a, c, by rw [lift_R, hrun]⟩

theorem CodecOnly.answer (a : α) : CodecOnly (Pure.pure a : R α).run := CodecOnly.pure (Except.ok a)

theorem CodecOnly.require (ok : Bool) (e : Exc) (info : U16) : CodecOnly (require ok e info).run := by
  cases ok
  · exact CodecOnly.pure (Except.error _)
  · exact CodecOnly.answer ()

theorem CodecOnly.admission : CodecOnly (checkAdmission .always).run := fun s => ⟨.ok (), s.codec, admit_always s⟩

theorem CodecOnly.current : CodecOnly current := fun s => ⟨s, s.codec, rfl⟩

theorem CodecOnly.setBuf (b : List Byte) : CodecOnly (setBuf b) := fun _ => ⟨(), _, rfl⟩

theorem CodecOnly.setDecoder (acc : U32) (cnt : Nat) (done : Bool) (v : Option U32) :
    CodecOnly (setDecoder acc cnt done v) := fun _ => ⟨(), _, rfl⟩

theorem CodecOnly.setPacket (pk : Packet) : CodecOnly (setPacket pk) := fun _ => ⟨(), _, rfl⟩

theorem CodecOnly.setSync (y : SyncRes) : CodecOnly (setSync y) := fun _ => ⟨(), _, rfl⟩

theorem CodecOnly.decodeInto (d : PDecode) : CodecOnly (decodeInto d) := fun s => ⟨_, _, decodeInto_M d s⟩

theorem CodecOnly.takePacket (buf : List Byte) : CodecOnly (takePacket buf) := fun s => ⟨(), _, takePacket_M buf s⟩

theorem CodecOnly.takeVarintByte (b : Byte) : CodecOnly (takeVarintByte b) :=
  CodecOnly.current.bind fun _ => .setDecoder _ _ _ _

end

/-! ### Outcomes that say nothing -/

/-- The outcome is a next state that differs in the codec datapath, and in the event history by one answer at most. -/
def Silent (s : State) (o : Host.Outcome State Fault Refusal) : Prop :=
  ∃ (c : Codec) (acts : List Action), o = .next { s with codec := c, io := { s.io with trace := s.io.trace ++ acts } } ∧
    acts.length ≤ 1 ∧ ∀ a ∈ acts, a.isResponse = true

/-- Nothing at all, as an event that is ignored. -/
theorem Silent.same (s : State) : Silent s (.next s) := ⟨s.codec, [], by rw [List.append_nil], by simp, by simp⟩

theorem Silent.handler {m : M Unit} (h : CodecOnly m) (s : State) : Silent s (handler m s) := by
  obtain ⟨a, c, hrun⟩ := h s
  exact ⟨c, [], by rw [List.append_nil]; exact handler_ok hrun, by simp, by simp⟩

theorem Silent.command {m : R Response} (h : CodecOnly m.run) (s : State) : Silent s (command m s) := by
  obtain ⟨r, c, hrun⟩ := h s
  cases r with
  | ok a => exact ⟨c, [.respond a], command_ok hrun, by simp, by simp [Action.isResponse]⟩
  | error x => exact ⟨c, [.respond (.exc x.code x.info)], command_raised hrun, by simp, by simp [Action.isResponse]⟩

/-- A radio command outside READY is refused before it does anything (R287). -/
theorem Silent.refused {s : State} (h : s.ctl.life ≠ .ready) (body : R Response) :
    Silent s (Machine.command (do checkAdmission .radio; body) s) := by
  rw [command_admission, if_neg (by simp [admits, h])]
  exact ⟨s.codec, [_], rfl, by simp, by simp [Action.isResponse]⟩

/-! ### Events outside READY -/

section
variable {s : State} (h : s.ctl.life ≠ .ready)
include h

theorem dioAdmitted_eq_false : dioAdmitted s = false := by simp [dioAdmitted, h]

theorem exec_evPreamble_ignored : exec .evPreamble s = .next s :=
  handler_ok (by simp [dioAdmitted_eq_false h])

theorem exec_evDio0_ignored : exec .evDio0 s = .next s :=
  handler_ok (by simp [dioAdmitted_eq_false h])

theorem exec_evSafety_ignored (k : U16) : exec (.evSafety k) s = .next s :=
  handler_ok (by simp [safetyCurrent, h])

theorem exec_evBg_ignored : exec .evBg s = .next s :=
  handler_ok (by simp [h])

/-- Every instruction but INIT and the message rows. -/
theorem exec_silent {i : Instr} (hinit : ∀ c, i ≠ .init c) (hnote : i.format ≠ .notification)
    (hresp : i.format ≠ .response) :
    Silent s (exec i s) := by
  cases i with
  | init c => exact absurd rfl (hinit c)
  | configure | write | read | close | recv | rxrssi | rxlna | rxafc | rxmargin => exact .refused h _
  | cfgFreq | cfgBitrate | cfgFdev | cfgRxbw | cfgAfcbw | cfgPreamble | cfgSync | cfgPktlen | cfgRxcont | cfgReserved =>
    exact .refused h _
  | fifoframe => exact .refused h _
  | status =>
    exact .command (CodecOnly.admission.andThen fun _ => CodecOnly.current.lift.andThen fun _ => .answer _) s
  | vdec1 buf =>
    refine .command (CodecOnly.admission.andThen fun _ => (CodecOnly.setBuf buf).lift.andThen fun _ =>
      (CodecOnly.setDecoder _ _ _ _).lift.andThen fun _ => ?_) s
    split <;> exact .answer _
  | vdecall buf =>
    exact .command (CodecOnly.admission.andThen fun _ => (CodecOnly.setBuf buf).lift.andThen fun _ =>
      (CodecOnly.setDecoder _ _ _ _).lift.andThen fun _ => .answer _) s
  | venc v => exact .command (CodecOnly.admission.andThen fun _ => .answer _) s
  | pdec chk group buf =>
    refine .command (CodecOnly.admission.andThen fun _ => (CodecOnly.require _ _ _).andThen fun _ =>
      (CodecOnly.setBuf buf).lift.andThen fun _ => (CodecOnly.decodeInto _).lift.andThen fun pk => ?_) s
    cases pk <;> exact .answer _
  | gensync group =>
    exact .command (CodecOnly.admission.andThen fun _ => (CodecOnly.require _ _ _).andThen fun _ =>
      (CodecOnly.setSync _).lift.andThen fun _ => .answer _) s
  | parchk group byte0 =>
    exact .command (CodecOnly.admission.andThen fun _ => (CodecOnly.require _ _ _).andThen fun _ => .answer _) s
  | evPreamble => rw [exec_evPreamble_ignored h]; exact .same s
  | evDio0 => rw [exec_evDio0_ignored h]; exact .same s
  | evSafety k => rw [exec_evSafety_ignored h]; exact .same s
  | evBg => rw [exec_evBg_ignored h]; exact .same s
  | nReadable | nWritable | nDiag => exact absurd rfl hnote
  | rspOk | rspNone | rspExc => exact absurd rfl hresp
  | varintGroup | varintLast => exact .handler (.takeVarintByte _) s
  | pktV1Node | pktV1Gw | pktV2 => exact .handler (.takePacket _) s
  | pktTrailer u m f => exact .handler (CodecOnly.current.bind fun _ => .setPacket _) s
  | syncword group => exact .handler (.setSync _) s
  | parity p q u => exact .handler (CodecOnly.current.bind fun _ => .setSync _) s

end

/-- Settles O39: each instruction is refused, ignored, or kept to the codec datapath. -/
theorem silentOutsideReady : Obligations.SilentOutsideReady := by
  intro s t i hlife hinit hnote hresp hexec
  obtain ⟨c, acts, hnext, hlen, hacts⟩ := exec_silent hlife hinit hnote hresp
  cases hexec.symm.trans hnext
  exact ⟨rfl, rfl, rfl, rfl, rfl, rfl, rfl, rfl, acts, rfl, hlen, hacts⟩

end Sys2Proof.Machine
end

section
/-! PROOFS. 43_radio_rx_tx.md R220 to R229: the events of the receive path. -/

namespace Sys2Proof.Machine

/-! ### Events that are ignored -/

section
variable {s : State}

theorem dioAdmitted_iff : dioAdmitted s = true ↔ s.ctl.life = .ready ∧ s.tmr.dioEn = true := by simp [dioAdmitted]

theorem safetyCurrent_iff {k : U16} :
    safetyCurrent k s = true ↔ s.ctl.life = .ready ∧ s.tmr.safetyArmed = true ∧ k = s.tmr.safetyHandle := by
  simp [safetyCurrent, and_assoc]

/-- An edge that is not admitted (R220). -/
theorem exec_edge_unadmitted (h : dioAdmitted s = false) :
    exec .evPreamble s = .next s ∧ exec .evDio0 s = .next s :=
  ⟨handler_ok (by simp [h]), handler_ok (by simp [h])⟩

/-- An expiry of a timer that is not pending (R225). -/
theorem exec_evSafety_stale {k : U16} (h : safetyCurrent k s = false) : exec (.evSafety k) s = .next s :=
  handler_ok (by simp [h])

theorem exec_evBg_unarmed (h : s.tmr.bgArmed = false) : exec .evBg s = .next s := handler_ok (by simp [h])

end

/-- Settles O41: each handler's guard fails, and nothing is outside it. -/
theorem eventsIgnored : Obligations.EventsIgnored := by
  intro s
  refine ⟨fun h => exec_edge_unadmitted ?_, fun k h => exec_evSafety_stale ?_, fun h => ?_⟩
  · rw [← Bool.not_eq_true, dioAdmitted_iff, not_and_or, Bool.not_eq_true]
    exact h
  · rw [← Bool.not_eq_true, safetyCurrent_iff, not_and_or, not_and_or, Bool.not_eq_true]
    exact h
  · exact h.elim exec_evBg_ignored exec_evBg_unarmed

/-! ### EV_PREAMBLE -/

/-- The five reads of R222 with the bytes they answer. -/
def captureActs (p : Params) (rssi thresh lna m l : Byte) : List Action :=
  [.xread p.xr.rssivalue (.byte rssi), .xread p.xr.rssithresh (.byte thresh), .xread p.xr.lna (.byte lna),
   .xread p.xr.afcMsb (.byte m), .xread p.xr.afcLsb (.byte l)]

/-- The metadata they give. -/
def captured (p : Params) (rssi thresh lna m l : Byte) : RxMeta :=
  { valid := true, rssi := rssi, thresh := thresh, lna := p.lnaDb[lnaGain p lna], afc := u16 m l }

/-- The gain field in arithmetic (R222). -/
theorem lnaGain_val (p : Params) (v : Byte) : (lnaGain p v).val = v.toNat / 2 ^ p.lnaGainShift % 8 := by
  have hmask (n : Nat) : n &&& 7 = n % 8 := Nat.and_two_pow_sub_one_eq_mod n 3
  simp [lnaGain, Nat.shiftRight_eq_div_pow, hmask]

theorem captured_lna (p : Params) (rssi thresh lna m l : Byte) : (captured p rssi thresh lna m l).lna =
    p.lnaDb[lna.toNat / 2 ^ p.lnaGainShift % 8]'(Nat.mod_lt _ (by decide)) := by
  simp only [captured, Fin.getElem_fin, lnaGain_val]

/-- The capture on a healthy bus: five reads, and the metadata of their answers. -/
theorem capturePreamble_did {s : State} (h : BusHealthy s) : ∃ rssi thresh lna m l e,
    capturePreamble s = .ok ((),
      { s.did e (captureActs s.p rssi thresh lna m l) with rx := captured s.p rssi thresh lna m l }) ∧
    BusRun s.p s.env (captureActs s.p rssi thresh lna m l) e := by
  obtain ⟨rssi, e1, hread1, hrun1, h1⟩ := xread_did s.p.xr.rssivalue s h
  obtain ⟨thresh, e2, hread2, hrun2, h2⟩ := xread_did s.p.xr.rssithresh _ h1
  obtain ⟨lna, e3, hread3, hrun3, h3⟩ := xread_did s.p.xr.lna _ h2
  obtain ⟨m, e4, hread4, hrun4, h4⟩ := xread_did s.p.xr.afcMsb _ h3
  obtain ⟨l, e5, hread5, hrun5, -⟩ := xread_did s.p.xr.afcLsb _ h4
  refine ⟨rssi, thresh, lna, m, l, e5, ?_, (((hrun1.append hrun2).append hrun3).append hrun4).append hrun5⟩
  simp only [capturePreamble, bind_M, current_M, hread1, hread2, hread3, hread4, hread5, update_M]
  rfl

/-- A new safety timer in the place of the old one: its handle is SAFETY_SEQ, which moves on (10_state.md R29). -/
theorem rearmSafety_did (s : State) : rearmSafety s = .ok ((),
    { s with
      tmr := { s.tmr with safetyArmed := true, safetyHandle := s.tmr.safetySeq, safetySeq := s.tmr.safetySeq + 1 }
      io := s.io.ran (cancelled s ++ [.armOneShot s.p.tSafetyMs s.tmr.safetySeq]) }) := by
  simp only [rearmSafety, bind_M, current_M, cancelSafety_did, armOneShot_did, update_M, Io.ran_append]

/-- Settles O40: the capture, then the timer. -/
theorem evPreambleResult : Obligations.EvPreambleResult := by
  intro s hbus hlife hdio
  obtain ⟨rssi, thresh, lna, m, l, e, hcapture, hrun⟩ := capturePreamble_did hbus
  refine ⟨rssi, thresh, lna, m, l, e, hrun, hrun.regs (by simp [storedBy, captureActs]), ?_⟩
  refine (handler_ok (by
    simp only [bind_M, current_M, dioAdmitted_iff.2 ⟨hlife, hdio⟩, if_true, hcapture, rearmSafety_did]
    rfl)).trans ?_
  rw [← captured_lna s.p rssi thresh lna m l]
  simp only [List.append_assoc, Io.ran_append]
  rfl

/-! ### EV_SAFETY -/

/-- The receiver restarted and the chip's threshold read. -/
def safetyActs (p : Params) (v : Byte) : List Action :=
  [.xwrite p.xr.rxconfig p.restartValue, .xread p.xr.rssithresh (.byte v)]

/-- What follows once the timer is spent (R225). -/
def restartAndWarn (p : Params) : M Unit := do
  restartRx
  let t ← xread p.xr.rssithresh
  diag wRxStuck (t.zeroExtend 16)

theorem restartAndWarn_did {s : State} (h : BusHealthy s) : ∃ v e,
    restartAndWarn s.p s = .ok ((), s.did e (safetyActs s.p v ++ [.notify (.diag wRxStuck (v.zeroExtend 16))])) ∧
    BusRun s.p s.env (safetyActs s.p v) e := by
  have hrestart : restartRx s = .ok ((),
      s.did (writeEffect s.p s.p.xr.rxconfig s.p.restartValue s.env) [.xwrite s.p.xr.rxconfig s.p.restartValue]) := rfl
  obtain ⟨v, e, hread, hrun, -⟩ := xread_did s.p.xr.rssithresh
    (s.did (writeEffect s.p s.p.xr.rxconfig s.p.restartValue s.env) [.xwrite s.p.xr.rxconfig s.p.restartValue])
    ((writeEffect_env ..).healthy h)
  refine ⟨v, e, ?_, BusRun.append (xs := [_]) rfl hrun⟩
  simp only [restartAndWarn, bind_M, hrestart, hread, diag_M]
  rfl

theorem exec_evSafety_current {s : State} {k : U16} (h : safetyCurrent k s = true) : exec (.evSafety k) s =
    handler (restartAndWarn s.p) { s with tmr := { s.tmr with safetyArmed := false } } := by
  show handler _ s = _
  simp only [handler, restartAndWarn, bind_M, current_M, h, if_true, update_M]

/-- Settles O42: the timer is spent, then the write, the read and the warning. -/
theorem evSafetyFires : Obligations.EvSafetyFires := by
  intro s hbus hlife harmed
  obtain ⟨v, e, hwarn, hrun⟩ := restartAndWarn_did (s := { s with tmr := { s.tmr with safetyArmed := false } }) hbus
  refine ⟨v, e, hrun, hrun.regs fun a ha => ha, ?_⟩
  exact (exec_evSafety_current (safetyCurrent_iff.2 ⟨hlife, harmed, rfl⟩)).trans (handler_ok hwarn)

/-! ### EV_DIO0 -/

/-- PacketSent (R229): one write of XR_OPMODE and the notification. -/
theorem packetSent_did (s : State) : ∃ e,
    let m := if rxContinuous s then Mode.receive else .standby
    let acts := [Action.xwrite s.p.xr.opmode (s.p.opmodeBase ||| modeCode m)]
    packetSent s = .ok ((),
      { s.did e (acts ++ [.notify .writable]) with ctl := { s.ctl with txbusy := false, mode := m } }) ∧
    BusRun s.p s.env acts e := ⟨_, by simp only [packetSent, bind_M, update_M, current_M, setMode_M, emit_M]; rfl, rfl⟩

/-- The packet's length: CFG_FIXLEN, or one byte read from the FIFO (R228). -/
def lengthActs (s : State) (n : Byte) : List Action := if fixedLength s then [] else [.xread s.p.xr.fifo (.byte n)]

theorem arrivedLength_did {s : State} (h : BusHealthy s) : ∃ n e,
    arrivedLength s = .ok (n, s.did e (lengthActs s n)) ∧ BusRun s.p s.env (lengthActs s n) e ∧
      (fixedLength s = true → n = s.cfg.fixlen) := by
  unfold arrivedLength lengthActs
  cases hfixed : fixedLength s with
  | true => exact ⟨s.cfg.fixlen, s.env, by simp [hfixed, State.did], rfl, fun _ => rfl⟩
  | false =>
    obtain ⟨n, e, hread, hrun, -⟩ := xread_did s.p.xr.fifo s h
    exact ⟨n, e, by simp [hfixed, hread], hrun, nofun⟩

/-- The packet is pending and the host is told (R228). -/
def arrived (s : State) (ts : U32) (n : Byte) (e : Env) : State :=
  { s with
    ctl := { s.ctl with rxPend := true, rxLen := n, rxTs := ts }
    tmr := { s.tmr with safetyArmed := false }
    env := e
    io := s.io.ran (cancelled s ++ lengthActs s n ++ [.notify (.readable n ts)]) }

theorem payloadReady_did {s : State} (h : BusHealthy s) (ts : U32) : ∃ n e,
    payloadReady ts s = .ok ((), arrived s ts n e) ∧ BusRun s.p s.env (lengthActs s n) e ∧
      (fixedLength s = true → n = s.cfg.fixlen) := by
  obtain ⟨n, e, hlen, hrun, hfixed⟩ := arrivedLength_did
    (s := { s with tmr := { s.tmr with safetyArmed := false }, io := s.io.ran (cancelled s) }) h
  refine ⟨n, e, ?_, hrun, hfixed⟩
  simp only [payloadReady, bind_M, cancelSafety_did, hlen, update_M, emit_M, arrived, Io.ran_append]
  rfl

section
variable {s : State} (h : s.ctl.life = .ready) (hdio : s.tmr.dioEn = true)
include h hdio

/-- The tick first, then the meaning of the edge at entry (R227). -/
theorem exec_evDio0 : exec .evDio0 s =
    handler (if s.ctl.txbusy then packetSent else payloadReady (nextTick s.env).1) (s.withEnv (nextTick s.env).2) := by
  show handler _ s = _
  simp only [handler, bind_M, current_M, dioAdmitted_iff.2 ⟨h, hdio⟩, if_true, now_did]

theorem exec_evDio0_sent (ht : s.ctl.txbusy = true) : ∃ e,
    let m := if rxContinuous s then Mode.receive else .standby
    let acts := [Action.xwrite s.p.xr.opmode (s.p.opmodeBase ||| modeCode m)]
    BusRun s.p (nextTick s.env).2 acts e ∧ exec .evDio0 s = .next
      { s.did e (acts ++ [.notify .writable]) with ctl := { s.ctl with txbusy := false, mode := m } } := by
  obtain ⟨e, hsent, hrun⟩ := packetSent_did (s.withEnv (nextTick s.env).2)
  exact ⟨e, hrun, by rw [exec_evDio0 h hdio, if_pos ht]; exact handler_ok hsent⟩

theorem exec_evDio0_arrived (ht : s.ctl.txbusy = false) (hbus : BusHealthy s) : ∃ n e,
    BusRun s.p (nextTick s.env).2 (lengthActs s n) e ∧ (fixedLength s = true → n = s.cfg.fixlen) ∧
      exec .evDio0 s = .next (arrived s (nextTick s.env).1 n e) := by
  obtain ⟨n, e, hready, hrun, hfixed⟩ :=
    payloadReady_did (s := s.withEnv (nextTick s.env).2) ((nextTick_env s.env).healthy hbus) (nextTick s.env).1
  exact ⟨n, e, hrun, hfixed, by
    rw [exec_evDio0 h hdio, if_neg (by simp [ht])]; exact handler_ok hready⟩

end

/-- Settles O44: the edge of a transmission in flight is PacketSent. -/
theorem evDio0Sent : Obligations.EvDio0Sent := by
  intro s hlife hdio htx receive acts
  obtain ⟨e, hrun, hexec⟩ := exec_evDio0_sent hlife hdio htx
  have hmode : (s.p.opmodeBase ||| modeCode (if rxContinuous s then .receive else .standby)) =
      s.p.opmodeBase ||| if receive then 5 else 1 := by
    show _ ||| modeCode (if receive then _ else _) = _
    cases receive <;> rfl
  simp only [hmode] at hrun hexec
  exact ⟨e, hrun, ((nextTick_env s.env).trans hrun.env).mono (by simp [storedBy]) |>.regs, hexec⟩

/-- Settles O43: the edge of an arrival is PayloadReady, with the length of either mode. -/
theorem evDio0Arrived : Obligations.EvDio0Arrived := by
  intro s hbus hlife hdio htx ts after
  obtain ⟨n, e, hrun, hn, hexec⟩ := exec_evDio0_arrived hlife hdio htx hbus
  have hmode : fixedLength s = true ↔ s.cfg.pktlenV = true ∧ s.cfg.fixed = true := by simp [fixedLength]
  constructor
  · intro hfixed
    have hf := hmode.2 hfixed
    rw [lengthActs, if_pos hf] at hrun
    obtain rfl : e = _ := hrun
    rw [hexec, arrived, lengthActs, if_pos hf, hn hf]
  · intro hfixed
    have hf : ¬fixedLength s = true := mt hmode.1 hfixed
    rw [lengthActs, if_neg hf] at hrun
    refine ⟨n, e, hrun, ((nextTick_env s.env).trans hrun.env).regs, ?_⟩
    rw [hexec, arrived, lengthActs, if_neg hf]

end Sys2Proof.Machine
end

section
/-! PROOFS. 43_radio_rx_tx.md R232 to R242: READ, WRITE and the telemetry reads. -/

namespace Sys2Proof.Machine

/-! ### READ -/

section
variable {s t : State} {hasDst : Bool} {cap : Byte} (h : s.ctl.life = .ready)
include h

/-- READ in READY answers what it took (R232). -/
theorem exec_read_taken {r : Option (List Byte)} (hread : (readPacket hasDst cap).run s = .ok (.ok r, t)) :
    exec (.read hasDst cap) s =
      .next (t.emit (.respond (match r with | some bytes => .ok (bufferBytes bytes) | none => .noResult []))) := by
  cases r <;> exact command_ok (by simp [admit_radio h, hread])

theorem exec_read_raised {x : Raised} (hread : (readPacket hasDst cap).run s = .ok (.error x, t)) :
    exec (.read hasDst cap) s = .next (t.emit (.respond (.exc x.code x.info))) :=
  command_raised (by simp [admit_radio h, hread])

end

/-- Settles O45: nothing pending, a packet that does not fit, and the packet taken. -/
theorem readResult : Obligations.ReadResult := by
  intro s hasDst cap hbus hlife
  refine ⟨fun hpend => ?_, fun hpend hover => ?_, fun hpend hfits => ?_⟩
  · exact exec_read_taken hlife (readPacket_idle hasDst cap hpend)
  · exact exec_read_raised hlife (readPacket_oversize hpend (oversize_eq_true.2 hover))
  · obtain ⟨bytes, e, hread, hrun, hlen⟩ := readPacket_did s hasDst cap hbus hpend
      (Bool.eq_false_iff.2 (mt oversize_eq_true.1 hfits))
    refine ⟨bytes, e, hlen, hrun, hrun.regs (storedBy_read s bytes), (exec_read_taken hlife hread).trans ?_⟩
    simp only [State.did, Io.ran_append]
    rfl

/-! ### WRITE -/

/-- The condition of the mode-ready poll (R186). -/
def modeReady (p : Params) (v : Byte) : Bool := v &&& p.modereadyMask != 0

section
variable {s : State} {rs : List BusAnswer} {e : Env}

theorem waitModeReady_sees (h : PollSees s.p s.p.xr.irqflags1 (modeReady s.p) 100 s.env rs e) :
    waitModeReady.run s = .ok (.ok (), s.did e (readsOf s.p.xr.irqflags1 rs)) := by
  have hpoll : timedPoll _ (fun v => v &&& s.p.modereadyMask != 0) Config.cmdTimeoutMs s = _ := timedPoll_sees h
  simp only [waitModeReady, bind_R, lift_R, current_M, hpoll, require_true]

theorem waitModeReady_misses (h : PollMisses s.p s.p.xr.irqflags1 (modeReady s.p) 100 s.env rs e) :
    waitModeReady.run s = .ok (.error ⟨.timeout, 0⟩, s.did e (readsOf s.p.xr.irqflags1 rs)) := by
  have hpoll : timedPoll _ (fun v => v &&& s.p.modereadyMask != 0) Config.cmdTimeoutMs s = _ := timedPoll_misses h
  simp only [waitModeReady, bind_R, lift_R, current_M, hpoll, require_false]

end

/-- The write of XR_OPMODE that SetMode makes (R182). -/
def modeActs (p : Params) (m : Mode) : List Action := [.xwrite p.xr.opmode (p.opmodeBase ||| modeCode m)]

theorem setMode_of_run {s : State} {m : Mode} {e : Env} (h : BusRun s.p s.env (modeActs s.p m) e) :
    setMode m s = .ok ((), (s.did e (modeActs s.p m)).setMode m) := by
  obtain rfl : e = _ := h
  rfl

/-- The frame in one transfer, and TRANSMIT (R235). -/
def sentActs (p : Params) (payload : List Byte) : List Action :=
  .burstWrite p.xr.fifo (bufferBytes payload) :: modeActs p .transmit

section
variable {s : State} {e0 e1 : Env} {rs : List BusAnswer} {payload : List Byte}
  (hmode : BusRun s.p s.env (modeActs s.p .fstx) e0)
include hmode

/-- The chip got ready: the frame is written, TXBUSY is set and TRANSMIT entered (R235). -/
theorem transmit_sees (hpoll : PollSees s.p s.p.xr.irqflags1 (modeReady s.p) 100 e0 rs e1) : ∃ e,
    BusRun s.p e1 (sentActs s.p payload) e ∧
    (transmit payload).run s = .ok (.ok (),
      { s.did e (modeActs s.p .fstx ++ readsOf s.p.xr.irqflags1 rs ++ sentActs s.p payload) with
        ctl := { s.ctl with txbusy := true, mode := .transmit } }) := by
  have hwait := waitModeReady_sees (s := (s.did e0 (modeActs s.p .fstx)).setMode .fstx) hpoll
  refine ⟨_, rfl, ?_⟩
  simp only [transmit, bind_R, lift_R, setMode_of_run hmode, hwait, writeFrame, bind_M, current_M, xburstWrite_did, update_M,
    setMode_M]
  simp only [State.did, Io.ran_append]
  rfl

/-- It did not: FSTX stays, and nothing is written to the FIFO (R236). -/
theorem transmit_misses (hpoll : PollMisses s.p s.p.xr.irqflags1 (modeReady s.p) 100 e0 rs e1) :
    (transmit payload).run s = .ok (.error ⟨.timeout, 0⟩,
      { s.did e1 (modeActs s.p .fstx ++ readsOf s.p.xr.irqflags1 rs) with ctl := { s.ctl with mode := .fstx } }) := by
  have hwait := waitModeReady_misses (s := (s.did e0 (modeActs s.p .fstx)).setMode .fstx) hpoll
  simp only [transmit, bind_R, lift_R, setMode_of_run hmode, hwait]
  simp only [State.did, Io.ran_append]
  rfl

end

/-- The size WRITE accepts, in arithmetic (R235). -/
theorem writeSizeOk_iff {maxPayload sz n : Nat} :
    writeSizeOk maxPayload sz n = true ↔ 0 < sz ∧ sz ≤ maxPayload ∧ sz ≤ n := by
  simp [writeSizeOk, and_assoc]

/-- The FIFO frame alone runs as a WRITE without a size (log 11). -/
theorem exec_write {i : Instr} {hasSize : Bool} {size : Byte} {buf : List Byte} (s : State)
    (h : i = .write hasSize size buf ∨ (i = .fifoframe buf ∧ hasSize = false)) :
    exec i s = command (writeCommand hasSize size buf) s := by
  rcases h with rfl | ⟨rfl, rfl⟩ <;> rfl

section
variable {s : State} (h : s.ctl.life = .ready) {hasSize : Bool} {size : Byte} {buf : List Byte}
include h

theorem write_busy (ht : s.ctl.txbusy = true) :
    command (writeCommand hasSize size buf) s = .next (s.emit (.respond (.exc .txBusy 0))) :=
  command_raised (by rw [writeCommand_run hasSize size buf h, if_pos ht])

variable (ht : s.ctl.txbusy = false)
include ht

theorem write_badSize (hsz : writeSizeOk s.p.maxPayload (writeSize hasSize size buf) buf.length = false) :
    command (writeCommand hasSize size buf) s = .next (s.emit (.respond (.exc .badArg 0xFF))) :=
  command_raised (e := ⟨.badArg, badArgInfo⟩) (by
    rw [writeCommand_run hasSize size buf h, if_neg (by simp [ht]), if_neg (by simp [hsz])])

variable (hsz : writeSizeOk s.p.maxPayload (writeSize hasSize size buf) buf.length = true)
include hsz

/-- An admitted size: the sequence decides the answer. -/
theorem write_admitted : (writeCommand hasSize size buf).run s =
    (do transmit (buf.take (writeSize hasSize size buf)); pure (.ok []) : R Response).run s := by
  rw [writeCommand_run _ _ _ h, if_neg (by simp [ht]), if_pos hsz]

variable {e0 e1 : Env} {rs : List BusAnswer} (hmode : BusRun s.p s.env (modeActs s.p .fstx) e0)
include hmode

theorem write_completes (hpoll : PollSees s.p s.p.xr.irqflags1 (modeReady s.p) 100 e0 rs e1) : ∃ e,
    BusRun s.p e1 (sentActs s.p (buf.take (writeSize hasSize size buf))) e ∧
    command (writeCommand hasSize size buf) s = .next
      { s with
        ctl := { s.ctl with txbusy := true, mode := .transmit }
        env := e
        io := s.io.ran (modeActs s.p .fstx ++ readsOf s.p.xr.irqflags1 rs ++
          sentActs s.p (buf.take (writeSize hasSize size buf)) ++ [.respond (.ok [])]) } := by
  obtain ⟨e, hrun, hsent⟩ := transmit_sees (payload := buf.take (writeSize hasSize size buf)) hmode hpoll
  refine ⟨e, hrun, (command_ok (r := .ok []) (by rw [write_admitted h ht hsz, bind_R, hsent]; rfl)).trans ?_⟩
  simp only [State.did, Io.ran_append]
  rfl

theorem write_timesOut (hpoll : PollMisses s.p s.p.xr.irqflags1 (modeReady s.p) 100 e0 rs e1) :
    command (writeCommand hasSize size buf) s = .next
      { s with
        ctl := { s.ctl with mode := .fstx }
        env := e1
        io := s.io.ran (modeActs s.p .fstx ++ readsOf s.p.xr.irqflags1 rs ++ [.respond (.exc .timeout 0)]) } := by
  have hmiss := transmit_misses (payload := buf.take (writeSize hasSize size buf)) hmode hpoll
  refine (command_raised (by rw [write_admitted h ht hsz, bind_R, hmiss])).trans ?_
  simp only [State.did, Io.ran_append]
  rfl

end

/-- The reads of a poll store nothing. -/
theorem nextPoll_answers_env {p : Params} {a : Addr} {ds : List PollRead} {e e' : Env} {rs : List BusAnswer}
    (h : pollAnswers p a ds (nextPoll e).2 = (rs, e')) : EnvStep [] e e' := by
  have henv := pollAnswers_env p a ds (nextPoll e).2
  rw [h] at henv
  exact (nextPoll_env e).trans henv

section
variable {p : Params} {a : Addr} {done : Byte → Bool} {budget : Nat} {e e' : Env} {rs : List BusAnswer}

theorem PollSees.env (h : PollSees p a done budget e rs e') : EnvStep [] e e' := by
  obtain ⟨pre, x, post, -, hreads, -⟩ := h
  exact nextPoll_answers_env hreads

theorem PollMisses.env (h : PollMisses p a done budget e rs e') : EnvStep [] e e' := by
  obtain ⟨pre, x, post, -, hreads, -⟩ := h
  exact nextPoll_answers_env hreads

end

/-- A write of XR_FIFO is one of no register (20_memory.md R76). -/
theorem writeFifo_env (p : Params) (bs : List Byte) : ∀ e, EnvStep [] e (writeMany p p.xr.fifo bs e) := by
  have hone (v : Byte) (e : Env) : EnvStep [] e (writeEffect p p.xr.fifo v e) := by
    unfold writeEffect
    split
    · exact .refl _ e
    · next x hx =>
      rw [if_pos rfl]
      refine ⟨id, fun b _ => by simp [envReg, hx], fun h y hy => ?_⟩
      cases hy
      exact h x hx
  induction bs with
  | nil => exact fun e => .refl _ e
  | cons v vs ih => exact fun e => (hone v e).trans (ih _)

theorem sentActs_env {p : Params} {e e' : Env} {payload : List Byte} (h : BusRun p e (sentActs p payload) e') :
    EnvStep [p.xr.opmode] e e' :=
  (writeFifo_env p _ e).trans (BusRun.env (xs := modeActs p .transmit) h)

/-- Settles O47: the poll sees the flag, and the sequence runs to its end. The FIFO takes bytes and is no register. -/
theorem writeCompletes : Obligations.WriteCompletes := by
  intro s hasSize size buf e0 e1 rs hlife htx sz hpos hmax hlen hmode hpoll i hi
  obtain ⟨e, hrun, hexec⟩ := write_completes hlife htx (writeSizeOk_iff.2 ⟨hpos, hmax, hlen⟩) hmode hpoll
  have hbytes : bufferBytes (buf.take sz) = BitVec.ofNat 8 sz :: buf.take sz := by
    rw [bufferBytes, List.length_take_of_le hlen]
  have hsent : sentActs s.p (buf.take sz) = .burstWrite s.p.xr.fifo (BitVec.ofNat 8 sz :: buf.take sz) ::
      [.xwrite s.p.xr.opmode (s.p.opmodeBase ||| 3)] := by rw [← hbytes]; rfl
  have henv := ((BusRun.env (xs := modeActs s.p .fstx) hmode).trans hpoll.env).trans (sentActs_env hrun)
  refine ⟨e, ?_, (henv.mono (by simp [modeActs, storedBy])).regs, ?_⟩
  · rw [← hsent]
    exact hrun
  · rw [exec_write s hi, ← hsent]
    exact hexec

/-- Settles O48: the two checks, and the poll that misses the flag. -/
theorem writeStops : Obligations.WriteStops := by
  intro s hasSize size buf i hlife hi sz
  rw [exec_write s hi]
  refine ⟨write_busy hlife, fun htx hbad => write_badSize hlife htx ?_, fun e0 e1 rs htx hpos hmax hlen hmode hpoll => ?_⟩
  · rw [← Bool.not_eq_true, writeSizeOk_iff]
    show ¬(0 < sz ∧ sz ≤ s.p.maxPayload ∧ sz ≤ buf.length)
    omega
  · have hregs := (BusRun.env (xs := modeActs s.p .fstx) hmode).trans hpoll.env
    exact ⟨hregs.regs, write_timesOut hlife htx (writeSizeOk_iff.2 ⟨hpos, hmax, hlen⟩) hmode hpoll⟩

/-! ### Telemetry -/

section
variable {s : State} (h : s.ctl.life = .ready) (f : State → List Byte)
include h

theorem telemetry_none (hv : s.rx.valid = false) :
    command (telemetry f) s = .next (s.emit (.respond (.noResult []))) :=
  command_ok (by simp [telemetry, admit_radio h, hv])

theorem telemetry_some (hv : s.rx.valid = true) : command (telemetry f) s = .next (s.emit (.respond (.ok (f s)))) :=
  command_ok (by simp [telemetry, admit_radio h, hv])

end

/-- Settles O50: the four reads are one operation, with the conversion of the value each of them answers. -/
theorem telemetryResults : Obligations.TelemetryResults := by
  intro s hlife
  refine ⟨fun hv i hi => ?_, fun hv => ?_⟩
  · simp only [List.mem_cons, List.not_mem_nil, or_false] at hi
    rcases hi with rfl | rfl | rfl | rfl <;> exact telemetry_none hlife _ hv
  · intro x
    rw [← rssiHalfDbm_eq, ← afcHz_eq, ← marginDb_eq]
    exact ⟨telemetry_some hlife _ hv, telemetry_some hlife _ hv, telemetry_some hlife _ hv, telemetry_some hlife _ hv⟩

end Sys2Proof.Machine
end

section
/-! PROOFS. 43_radio_rx_tx.md R220, 44_rssi_tracker.md R260, 20_memory.md R64: the actions of an event, counted. -/

namespace Sys2Proof.Machine

/-! ### The parts of EV_BG -/

/-- The state after a list of actions and new tracker registers: what the estimator changes. -/
def State.tracked (s : State) (e : Env) (xs : List Action) (k : Tracker) : State := { s.did e xs with trk := k }

section
variable (s : State) (e : Env) (xs : List Action) (k : Tracker)

theorem continuousExpected_tracked : continuousExpected (s.tracked e xs k) = continuousExpected s := rfl

/-- Tracker work after tracker work. -/
theorem tracked_tracked (e' : Env) (ys : List Action) (k' : Tracker) :
    (s.tracked e xs k).tracked e' ys k' = s.tracked e' (xs ++ ys) k' := by
  simp only [State.tracked, State.did, Io.ran_append]
end

/-- The estimate after a sample: smoothed where the sample is plausible (R262). -/
def sampled (bg : BitVec 12) (r : Byte) : BitVec 12 := if plausible r then smoothStep bg r else bg

/-- The sample, and the threshold written where the integer part changed (R262, R264). -/
def smoothActs (s : State) (r : Byte) : List Action :=
  .xread s.p.xr.rssivalue (.byte r) ::
    if smoothed (sampled s.trk.bgRssi r) ≠ smoothed s.trk.bgRssi
    then [.xwrite s.p.xr.rssithresh (thresholdFor (sampled s.trk.bgRssi r))] else []

theorem smooth_did {s : State} (h : BusHealthy s) : ∃ r e,
    smooth s = .ok ((), s.tracked e (smoothActs s r) { s.trk with bgRssi := sampled s.trk.bgRssi r }) ∧
    BusRun s.p s.env (smoothActs s r) e := by
  obtain ⟨r, e, hread, hrun, -⟩ := xread_did s.p.xr.rssivalue s h
  by_cases hchange : smoothed (sampled s.trk.bgRssi r) ≠ smoothed s.trk.bgRssi
  · have hp : plausible r = true := by
      by_contra hp
      exact hchange (by rw [sampled, if_neg hp])
    have hbg : sampled s.trk.bgRssi r = smoothStep s.trk.bgRssi r := if_pos hp
    rw [hbg] at hchange
    refine ⟨r, writeEffect s.p s.p.xr.rssithresh (thresholdFor (smoothStep s.trk.bgRssi r)) e, ?_, ?_⟩
    · simp only [smooth, smoothActs, hbg, bind_M, current_M, hread, hp, if_true, update_M, if_pos hchange, xwrite_did]
      simp only [State.tracked, State.did, Io.ran_cons, Io.ran_nil]
      rfl
    · rw [smoothActs, hbg, if_pos hchange]
      exact hrun.append (ys := [_]) rfl
  · refine ⟨r, e, ?_, by rw [smoothActs, if_neg hchange]; exact hrun⟩
    cases hp : plausible r with
    | true =>
      have hbg : sampled s.trk.bgRssi r = smoothStep s.trk.bgRssi r := if_pos hp
      rw [hbg] at hchange
      simp only [smooth, smoothActs, hbg, bind_M, current_M, hread, hp, if_true, update_M, if_neg hchange, pure_M]
      rfl
    | false =>
      have hbg : sampled s.trk.bgRssi r = s.trk.bgRssi := if_neg (by simp [hp])
      simp only [smooth, smoothActs, hbg, bind_M, current_M, hread, hp, Bool.false_eq_true, if_false, pure_M, ne_eq,
        not_true_eq_false]
      rfl

/-- The AFC sample where reception is expected, and the repair where it repeats the last one (R265). -/
def afcActs (s : State) (expected : Bool) (m l : Byte) : List Action :=
  if expected then
    [.xread s.p.xr.afcMsb (.byte m), .xread s.p.xr.afcLsb (.byte l)] ++
      if s.trk.lastAfcV = true ∧ u16 m l = s.trk.lastAfc
      then [.xwrite s.p.xr.rxconfig s.p.restartValue, .notify (.diag wAfcStuck (u16 m l))] else []
  else []

theorem afcCheck_did {s : State} (h : BusHealthy s) (expected : Bool) : ∃ m l e,
    afcCheck expected s = .ok ((), s.tracked e (afcActs s expected m l)
      { s.trk with lastAfc := if expected then u16 m l else s.trk.lastAfc, lastAfcV := expected }) ∧
    BusRun s.p s.env (afcActs s expected m l) e := by
  cases expected with
  | false => exact ⟨0, 0, s.env, rfl, rfl⟩
  | true =>
    obtain ⟨m, e1, hread1, hrun1, h1⟩ := xread_did s.p.xr.afcMsb s h
    obtain ⟨l, e2, hread2, hrun2, -⟩ := xread_did s.p.xr.afcLsb _ h1
    have hrun := hrun1.append hrun2
    by_cases hstuck : s.trk.lastAfcV = true ∧ u16 m l = s.trk.lastAfc
    · refine ⟨m, l, writeEffect s.p s.p.xr.rxconfig s.p.restartValue e2, ?_, ?_⟩
      · simp only [afcCheck, afcActs, bind_M, current_M, hread1, hread2, if_true, if_pos hstuck, restartRx_M, diag_M,
          update_M]
        simp only [State.tracked, State.did, Io.ran_append, Io.ran_cons, Io.ran_nil]
        rfl
      · rw [afcActs, if_pos rfl, if_pos hstuck]
        exact hrun.append (ys := [_, _]) rfl
    · refine ⟨m, l, e2, ?_, by rw [afcActs, if_pos rfl, if_neg hstuck]; exact hrun⟩
      simp only [afcCheck, afcActs, bind_M, current_M, hread1, hread2, if_true, if_neg hstuck, update_M]
      rfl

/-- The chip's mode where reception is expected, and the repair where it is not RECEIVE (R266). -/
def modeCheckActs (s : State) (expected : Bool) (v : Byte) : List Action :=
  if expected then
    .xread s.p.xr.opmode (.byte v) ::
      if v &&& 7 ≠ modeCode .receive
      then modeActs s.p .receive ++ [.notify (.diag wModeDrift ((v &&& 7).zeroExtend 16))] else []
  else []

theorem modeCheck_did {s : State} (h : BusHealthy s) (expected : Bool) : ∃ v e,
    modeCheck expected s = .ok ((),
      { s.did e (modeCheckActs s expected v) with
        ctl := { s.ctl with
          mode := if expected = true ∧ v &&& 7 ≠ modeCode .receive then .receive else s.ctl.mode } }) ∧
    BusRun s.p s.env (modeCheckActs s expected v) e := by
  cases expected with
  | false => exact ⟨0, s.env, rfl, rfl⟩
  | true =>
    obtain ⟨v, e, hread, hrun, -⟩ := xread_did s.p.xr.opmode s h
    simp only [modeCheck, modeCheckActs, bind_M, current_M, if_true, hread, true_and, ite_M]
    by_cases hdrift : v &&& 7 ≠ modeCode .receive
    · refine ⟨v, writeEffect s.p s.p.xr.opmode (s.p.opmodeBase ||| modeCode .receive) e, ?_, ?_⟩
      · simp only [if_pos hdrift, setMode_M, diag_M]
        rfl
      · rw [if_pos hdrift]
        exact hrun.append (ys := [_, _]) rfl
    · refine ⟨v, e, ?_, by rw [if_neg hdrift]; exact hrun⟩
      simp only [if_neg hdrift, pure_M]
      rfl

/-- EV_BG while the timer is armed: the sample, then the two checks (R260). -/
theorem exec_evBg_did {s : State} (h : BusHealthy s) (hlife : s.ctl.life = .ready) (harmed : s.tmr.bgArmed = true) :
    ∃ (r m l v : Byte) (e : Env),
      let acts := smoothActs s r ++ afcActs s (continuousExpected s) m l ++ modeCheckActs s (continuousExpected s) v
      BusRun s.p s.env acts e ∧ exec .evBg s = .next
        { s with
          ctl := { s.ctl with
            mode := if continuousExpected s = true ∧ v &&& 7 ≠ modeCode .receive then .receive else s.ctl.mode }
          trk :=
            { bgRssi := sampled s.trk.bgRssi r
              lastAfc := if continuousExpected s then u16 m l else s.trk.lastAfc
              lastAfcV := continuousExpected s }
          env := e
          io := s.io.ran acts } := by
  obtain ⟨r, e1, hsmooth, hrun1⟩ := smooth_did h
  have h1 := hrun1.env.healthy h
  obtain ⟨m, l, e2, hafc, hrun2⟩ := afcCheck_did
    (s := s.tracked e1 (smoothActs s r) { s.trk with bgRssi := sampled s.trk.bgRssi r }) h1 (continuousExpected s)
  rw [tracked_tracked] at hafc
  obtain ⟨v, e3, hmode, hrun3⟩ := modeCheck_did
    (s := s.tracked e2 (smoothActs s r ++ afcActs s (continuousExpected s) m l)
      { bgRssi := sampled s.trk.bgRssi r
        lastAfc := if continuousExpected s then u16 m l else s.trk.lastAfc
        lastAfcV := continuousExpected s }) (hrun2.env.healthy h1) (continuousExpected s)
  refine ⟨r, m, l, v, e3, (hrun1.append hrun2).append hrun3, handler_ok ?_⟩
  have hgo : (s.ctl.life == .ready && s.tmr.bgArmed) = true := by simp [hlife, harmed]
  simp only [bind_M, current_M, hgo, if_true, hsmooth, continuousExpected_tracked, hafc]
  refine hmode.trans ?_
  simp only [State.tracked, State.did, Io.ran_append]
  rfl

/-! ### Actions within a budget of transactions -/

/-- What a handler may do (60_exceptions.md R295, R297): it answers nobody and waits for nothing, makes at most `r` reads and
`w` writes of the bus, and where no other name is XR_FIFO at most `f` of them are reads of it and none writes it. -/
structure Spends (p : Params) (r w f : Nat) (acts : List Action) : Prop where
  unanswered : ∀ a ∈ acts, a.isResponse = false ∧ a.isWait = false
  reads : acts.countP Action.isBusRead ≤ r
  writes : acts.countP Action.isBusWrite ≤ w
  fifo : fifoApart p = true → acts.countP (Action.writesFifo p) = 0 ∧ acts.countP (Action.readsFifo p) ≤ f

section
variable {p : Params} {r w f r' w' f' : Nat} {xs ys : List Action}

theorem Spends.nil : Spends p 0 0 0 [] := ⟨by simp, Nat.le_refl _, Nat.le_refl _, fun _ => ⟨rfl, Nat.le_refl _⟩⟩

theorem Spends.append (h : Spends p r w f xs) (h' : Spends p r' w' f' ys) :
    Spends p (r + r') (w + w') (f + f') (xs ++ ys) where
  unanswered a ha := (List.mem_append.1 ha).elim (h.unanswered a) (h'.unanswered a)
  reads := by rw [List.countP_append]; exact Nat.add_le_add h.reads h'.reads
  writes := by rw [List.countP_append]; exact Nat.add_le_add h.writes h'.writes
  fifo hp := by
    obtain ⟨hw, hr⟩ := h.fifo hp
    obtain ⟨hw', hr'⟩ := h'.fifo hp
    rw [List.countP_append, List.countP_append, hw, hw']
    exact ⟨rfl, Nat.add_le_add hr hr'⟩

theorem Spends.mono (h : Spends p r w f xs) (hr : r ≤ r' := by decide) (hw : w ≤ w' := by decide)
    (hf : f ≤ f' := by decide) : Spends p r' w' f' xs where
  unanswered := h.unanswered
  reads := h.reads.trans hr
  writes := h.writes.trans hw
  fifo hp := ⟨(h.fifo hp).1, (h.fifo hp).2.trans hf⟩

/-- Actions there are under a condition only. -/
theorem Spends.ite {c : Prop} [Decidable c] (h : Spends p r w f xs) : Spends p r w f (if c then xs else []) := by
  split
  · exact h
  · exact Spends.nil.mono (Nat.zero_le _) (Nat.zero_le _) (Nat.zero_le _)

/-- One action, with its own cost. -/
theorem Spends.single {x : Action} (hx : x.isResponse = false ∧ x.isWait = false) (hr : x.isBusRead.toNat ≤ r)
    (hw : x.isBusWrite.toNat ≤ w)
    (hf : fifoApart p = true → x.writesFifo p = false ∧ (x.readsFifo p).toNat ≤ f) : Spends p r w f [x] := by
  have hone : ∀ g : Action → Bool, [x].countP g = (g x).toNat := fun g => by cases h : g x <;> simp [h]
  refine ⟨by simpa using hx, (hone _).trans_le hr, (hone _).trans_le hw, fun hp => ?_⟩
  obtain ⟨hwrite, hread⟩ := hf hp
  exact ⟨by rw [hone, hwrite]; rfl, (hone _).trans_le hread⟩

theorem Spends.xread {a : Addr} (h : a ∈ p.xr.all.tail) (v : BusAnswer) : Spends p 1 0 0 [.xread a v] :=
  .single ⟨rfl, rfl⟩ (Nat.le_refl _) (Nat.le_refl _) fun hp => by
    simp [Action.writesFifo, Action.readsFifo, Apart.name h hp]

theorem Spends.fifoRead (v : BusAnswer) : Spends p 1 0 1 [.xread p.xr.fifo v] :=
  .single ⟨rfl, rfl⟩ (Nat.le_refl _) (Nat.le_refl _) fun _ => by simp [Action.writesFifo, Action.readsFifo]

theorem Spends.xwrite {a : Addr} (h : a ∈ p.xr.all.tail) (v : Byte) : Spends p 0 1 0 [.xwrite a v] :=
  .single ⟨rfl, rfl⟩ (Nat.le_refl _) (Nat.le_refl _) fun hp => by
    simp [Action.writesFifo, Action.readsFifo, Apart.name h hp]

theorem Spends.notify (n : Notification) : Spends p 0 0 0 [.notify n] :=
  .single ⟨rfl, rfl⟩ (Nat.le_refl _) (Nat.le_refl _) fun _ => ⟨rfl, Nat.le_refl _⟩

theorem Spends.armOneShot (ms : Nat) (k : U16) : Spends p 0 0 0 [.armOneShot ms k] :=
  .single ⟨rfl, rfl⟩ (Nat.le_refl _) (Nat.le_refl _) fun _ => ⟨rfl, Nat.le_refl _⟩

theorem Spends.cancelled (s : State) : Spends p 0 0 0 (cancelled s) :=
  .ite (.single ⟨rfl, rfl⟩ (Nat.le_refl _) (Nat.le_refl _) fun _ => ⟨rfl, Nat.le_refl _⟩)

theorem Spends.captureActs (rssi thresh lna m l : Byte) : Spends p 5 0 0 (captureActs p rssi thresh lna m l) :=
  ((((Spends.xread (by simp [XrMap.all]) _).append (.xread (by simp [XrMap.all]) _)).append
    (.xread (by simp [XrMap.all]) _)).append (.xread (by simp [XrMap.all]) _)).append (.xread (by simp [XrMap.all]) _)

theorem Spends.safetyActs (v : Byte) : Spends p 1 1 0 (safetyActs p v) :=
  (Spends.xwrite (by simp [XrMap.all]) _).append (.xread (by simp [XrMap.all]) _)

theorem Spends.modeActs (m : Mode) : Spends p 0 1 0 (modeActs p m) := .xwrite (by simp [XrMap.all]) _

end

theorem Spends.lengthActs (s : State) (n : Byte) : Spends s.p 1 0 1 (lengthActs s n) := by
  unfold Machine.lengthActs
  split
  · exact Spends.nil.mono
  · exact .fifoRead _

theorem Spends.smoothActs (s : State) (r : Byte) : Spends s.p 1 1 0 (smoothActs s r) :=
  (Spends.xread (by simp [XrMap.all]) _).append (.ite (.xwrite (by simp [XrMap.all]) _))

theorem Spends.afcActs (s : State) (expected : Bool) (m l : Byte) : Spends s.p 2 1 0 (afcActs s expected m l) :=
  .ite ((((Spends.xread (by simp [XrMap.all]) _).append (.xread (by simp [XrMap.all]) _)).append
    (.ite ((Spends.xwrite (by simp [XrMap.all]) _).append (.notify _)))))

theorem Spends.modeCheckActs (s : State) (expected : Bool) (v : Byte) : Spends s.p 1 1 0 (modeCheckActs s expected v) :=
  .ite ((Spends.xread (by simp [XrMap.all]) _).append (.ite ((Spends.modeActs _).append (.notify _))))

/-! ### The events -/

/-- The event completes within a budget. -/
def Handled (r w f : Nat) (s : State) (o : Host.Outcome State Fault Refusal) : Prop :=
  ∃ t acts, o = .next t ∧ t.io.trace = s.io.trace ++ acts ∧ Spends s.p r w f acts

theorem Handled.ignored {r w f : Nat} {s : State} {o : Host.Outcome State Fault Refusal} (h : o = .next s) :
    Handled r w f s o :=
  ⟨s, [], h, (List.append_nil _).symm, Spends.nil.mono (Nat.zero_le _) (Nat.zero_le _) (Nat.zero_le _)⟩

section
variable {s : State} (h : BusHealthy s)
include h

theorem evPreamble_handled : Handled 5 0 0 s (exec .evPreamble s) := by
  cases hd : dioAdmitted s with
  | false => exact .ignored (exec_edge_unadmitted hd).1
  | true =>
    obtain ⟨hlife, hdio⟩ := dioAdmitted_iff.1 hd
    obtain ⟨rssi, thresh, lna, m, l, e, -, -, hexec⟩ := evPreambleResult s h hlife hdio
    exact ⟨_, _, hexec, Io.ran_trace .., ((Spends.captureActs rssi thresh lna m l).append (.cancelled s)).append
      (.armOneShot _ _)⟩

theorem evSafety_handled (k : U16) : Handled 1 1 0 s (exec (.evSafety k) s) := by
  cases hc : safetyCurrent k s with
  | false => exact .ignored (exec_evSafety_stale hc)
  | true =>
    obtain ⟨hlife, harmed, rfl⟩ := safetyCurrent_iff.1 hc
    obtain ⟨v, e, -, -, hexec⟩ := evSafetyFires s h hlife harmed
    exact ⟨_, _, hexec, Io.ran_trace .., (Spends.safetyActs v).append (.notify _)⟩

theorem evDio0_handled : Handled 1 1 1 s (exec .evDio0 s) := by
  cases hd : dioAdmitted s with
  | false => exact .ignored (exec_edge_unadmitted hd).2
  | true =>
    obtain ⟨hlife, hdio⟩ := dioAdmitted_iff.1 hd
    cases ht : s.ctl.txbusy with
    | true =>
      obtain ⟨e, -, hexec⟩ := exec_evDio0_sent hlife hdio ht
      exact ⟨_, _, hexec, Io.ran_trace .., ((Spends.modeActs _).append (.notify _)).mono⟩
    | false =>
      obtain ⟨n, e, -, -, hexec⟩ := exec_evDio0_arrived hlife hdio ht h
      exact ⟨_, _, hexec, Io.ran_trace .., (((Spends.cancelled s).append (.lengthActs s n)).append (.notify _)).mono⟩

theorem evBg_handled : Handled 4 3 0 s (exec .evBg s) := by
  by_cases hb : s.ctl.life = .ready ∧ s.tmr.bgArmed = true
  · obtain ⟨hlife, harmed⟩ := hb
    obtain ⟨r, m, l, v, e, -, hexec⟩ := exec_evBg_did h hlife harmed
    exact ⟨_, _, hexec, Io.ran_trace .., ((Spends.smoothActs s r).append (.afcActs s _ m l)).append (.modeCheckActs s _ v)⟩
  · rw [not_and_or, Bool.not_eq_true] at hb
    exact .ignored (hb.elim exec_evBg_ignored exec_evBg_unarmed)

end

/-- A transaction is a read or a write. -/
theorem countP_transactions (acts : List Action) : acts.countP (fun a => a.isBusRead || a.isBusWrite) ≤
    acts.countP Action.isBusRead + acts.countP Action.isBusWrite := by
  induction acts with
  | nil => rfl
  | cons a acts ih =>
    simp only [List.countP_cons]
    cases a.isBusRead <;> cases a.isBusWrite <;> simp <;> omega

/-- Every event is handled within a budget, and what the statement asks more of single events is in that. -/
theorem event_handled {s : State} (h : BusHealthy s) {i : Instr} (hi : i.format = .event) : ∃ r w f,
    Handled r w f s (exec i s) ∧ r ≤ 5 ∧ w ≤ 3 ∧ (i = .evSafety s.tmr.safetyHandle → r + w ≤ 2) ∧
      (i = .evDio0 → r ≤ 1 ∧ w ≤ 1) ∧ f ≤ if i = .evDio0 then 1 else 0 := by
  cases i with
  | evPreamble => exact ⟨_, _, _, evPreamble_handled h, by decide, by decide, nofun, nofun, by decide⟩
  | evDio0 => exact ⟨_, _, _, evDio0_handled h, by decide, by decide, nofun, fun _ => by decide, by decide⟩
  | evSafety k => exact ⟨_, _, _, evSafety_handled h k, by decide, by decide, fun _ => by decide, nofun, Nat.zero_le _⟩
  | evBg => exact ⟨_, _, _, evBg_handled h, by decide, by decide, nofun, nofun, by decide⟩
  | _ => cases hi

/-- Settles O57: each event is ignored or does the actions its own result lists, and those are counted. -/
theorem eventsBounded : Obligations.EventsBounded := by
  intro s i hi hbus
  obtain ⟨r, w, f, ⟨t, acts, hexec, htrace, hcost⟩, hr, hw, hsafety, hdio, hf⟩ := event_handled hbus hi
  refine ⟨t, acts, hexec, htrace, hcost.unanswered, hcost.reads.trans hr, hcost.writes.trans hw, fun heq => ?_, fun heq => ?_,
    fun hp => ⟨(hcost.fifo hp).1, (hcost.fifo hp).2.trans hf⟩⟩
  · exact (countP_transactions acts).trans ((Nat.add_le_add hcost.reads hcost.writes).trans (hsafety heq))
  · exact ⟨hcost.reads.trans (hdio heq).1, hcost.writes.trans (hdio heq).2⟩

end Sys2Proof.Machine
end

section
/-! PROOFS. 10_state.md R31, 44_rssi_tracker.md R263: the values the options and the estimator write are in their ranges. -/

namespace Sys2Proof.Machine

/-! ### Configuration registers -/

/-- Scaling by tens lifts a request to 100 000 000 where the turns suffice (R190). -/
theorem le_scaleByTens (k : Nat) : ∀ f : Nat, 100000000 ≤ f * 10 ^ k → 100000000 ≤ scaleByTens k f := by
  induction k with
  | zero => exact fun f h => by simpa [scaleByTens] using h
  | succ k ih =>
    intro f h
    rw [scaleByTens]
    split
    · exact ih _ (by rwa [Nat.mul_assoc, ← Nat.pow_succ'])
    · next hf => exact Nat.not_lt.1 hf

theorem freqRegs_range {f hz frf : Nat} (h : freqRegs f = some (hz, frf)) :
    100000000 ≤ hz ∧ hz ≤ 1023999969 ∧ 1638400 ≤ frf ∧ frf < 2 ^ 24 := by
  by_cases hf : f = 0
  · subst hf
    cases h
  · have hscale : 100000000 ≤ scaleByTens 8 f := le_scaleByTens 8 f (by omega)
    simp only [freqRegs, freqNormalise, if_neg hf] at h
    split at h
    · next hfits =>
      cases h
      unfold hzToSteps at *
      omega
    · cases h

theorem bitrateReg_range {br reg : Nat} (h : bitrateReg br = some reg) :
    489 ≤ br ∧ br ≤ 32000000 ∧ 1 ≤ reg ∧ reg ≤ 65440 := by
  by_cases hout : br < 489 ∨ 32000000 < br
  · cases (bitrateReg_eq_none hout).symm.trans h
  · obtain ⟨hlo, hhi⟩ : 489 ≤ br ∧ br ≤ 32000000 := by omega
    cases (bitrateReg_eq_some hlo hhi).symm.trans h
    refine ⟨hlo, hhi, (Nat.le_div_iff_mul_le (by omega)).2 (by omega), ?_⟩
    rw [← Nat.lt_add_one_iff, Nat.div_lt_iff_lt_mul (by omega)]
    omega

theorem fdevReg_range {fd reg : Nat} (h : fdevReg fd = some reg) : fd ≤ 999969 := by
  by_contra hout
  cases (fdevReg_eq_none (Nat.not_le.1 hout)).symm.trans h

theorem bwLookupFrom_index {hz : Nat} {t : List BwRow} : ∀ {i j : Nat} {row : BwRow},
    bwLookupFrom hz i t = some (j, row) → j < i + t.length := by
  induction t with
  | nil => exact fun h => nomatch h
  | cons r t ih =>
    intro i j row h
    rw [bwLookupFrom] at h
    split at h
    · cases h
      simp
    · have := ih h
      simp only [List.length_cons]
      omega

/-- A row of a constrained table has one of 21 indices (R44). -/
theorem bwLookup_index {p : Params} (hwf : p.wf = true) {hz i : Nat} {row : BwRow}
    (h : bwLookup p.bwTable hz = some (i, row)) : i ≤ 20 := by
  have hlen : p.bwTable.length = 21 := by
    simp only [Params.wf, bwTableOk, Bool.and_eq_true, beq_iff_eq] at hwf
    tauto
  have := bwLookupFrom_index h
  omega

section
variable {c : CfgRegs} (h : c.Legal)
include h

theorem CfgRegs.Legal.freq {f hz frf : Nat} (hreg : freqRegs f = some (hz, frf)) :
    CfgRegs.Legal { c with freq := BitVec.ofNat 32 hz, frf := BitVec.ofNat 24 frf, freqV := true } := by
  obtain ⟨-, hbitrate, hfdev, hrxbw, hafcbw, hsync⟩ := h
  obtain ⟨hlo, hhi, hfrf, hfits⟩ := freqRegs_range hreg
  refine ⟨fun _ => ?_, hbitrate, hfdev, hrxbw, hafcbw, hsync⟩
  simp only [BitVec.toNat_ofNat]
  omega

theorem CfgRegs.Legal.bitrate {br : U32} {reg : Nat} (hreg : bitrateReg br.toNat = some reg) :
    CfgRegs.Legal { c with bitrate := br, brreg := BitVec.ofNat 16 reg, bitrateV := true } := by
  obtain ⟨hfreq, -, hfdev, hrxbw, hafcbw, hsync⟩ := h
  obtain ⟨hlo, hhi, hreg1, hreg2⟩ := bitrateReg_range hreg
  refine ⟨hfreq, fun _ => ⟨hlo, hhi, ?_⟩, hfdev, hrxbw, hafcbw, hsync⟩
  simp only [BitVec.toNat_ofNat]
  omega

theorem CfgRegs.Legal.fdev {fd : U32} {reg : Nat} (hreg : fdevReg fd.toNat = some reg) :
    CfgRegs.Legal { c with fdev := fd, fdevreg := BitVec.ofNat 14 reg, fdevV := true } := by
  obtain ⟨hfreq, hbitrate, -, hrxbw, hafcbw, hsync⟩ := h
  exact ⟨hfreq, hbitrate, fun _ => fdevReg_range hreg, hrxbw, hafcbw, hsync⟩

theorem CfgRegs.Legal.rxbw {i : Nat} (hi : i ≤ 20) :
    CfgRegs.Legal { c with rxbw := BitVec.ofNat 5 i, rxbwV := true } := by
  obtain ⟨hfreq, hbitrate, hfdev, -, hafcbw, hsync⟩ := h
  refine ⟨hfreq, hbitrate, hfdev, fun _ => ?_, hafcbw, hsync⟩
  simp only [BitVec.toNat_ofNat]
  omega

theorem CfgRegs.Legal.afcbw {i : Nat} (hi : i ≤ 20) :
    CfgRegs.Legal { c with afcbw := BitVec.ofNat 5 i, afcbwV := true } := by
  obtain ⟨hfreq, hbitrate, hfdev, hrxbw, -, hsync⟩ := h
  refine ⟨hfreq, hbitrate, hfdev, hrxbw, fun _ => ?_, hsync⟩
  simp only [BitVec.toNat_ofNat]
  omega

theorem CfgRegs.Legal.sync {b : List Byte} (hb : syncCountOk b.length = true) :
    CfgRegs.Legal { c with synclen := BitVec.ofNat 2 b.length, sync := storeSync c.sync b, syncV := true } := by
  obtain ⟨hfreq, hbitrate, hfdev, hrxbw, hafcbw, -⟩ := h
  obtain ⟨hlo, hhi⟩ := syncCountOk_eq_true.1 hb
  refine ⟨hfreq, hbitrate, hfdev, hrxbw, hafcbw, fun _ => ?_⟩
  simp only [BitVec.toNat_ofNat]
  omega

end

/-- No register holds a value once the valid bits are cleared. -/
theorem CfgRegs.legal_invalidate (c : CfgRegs) : c.invalidate.Legal := by simp [CfgRegs.Legal, CfgRegs.invalidate]

/-! ### The estimate -/

/-- The range R263 gives for the estimate. -/
def EstimateOk (bg : BitVec 12) : Prop := 2240 ≤ bg.toNat ∧ bg.toNat ≤ 3215

/-- One smoothing step in arithmetic: nothing wraps (R262). -/
theorem smoothStep_toNat {bg : BitVec 12} (h : EstimateOk bg) (r : Byte) :
    (smoothStep bg r).toNat = bg.toNat - bg.toNat / 16 + r.toNat := by
  obtain ⟨hlo, hhi⟩ := h
  have hshift : (bg >>> 4).toNat = bg.toNat / 16 := by simp [Nat.shiftRight_eq_div_pow]
  have hr : (r.zeroExtend 12).toNat = r.toNat := by simp; omega
  rw [smoothStep, BitVec.toNat_add, BitVec.toNat_sub, hshift, hr]
  omega

theorem plausible_iff {r : Byte} : plausible r = true ↔ 140 ≤ r.toNat ∧ r.toNat ≤ 200 := by
  rw [plausible, Bool.and_eq_true, decide_eq_true_eq, decide_eq_true_eq]
  rfl

theorem EstimateOk.smoothStep {bg : BitVec 12} {r : Byte} (h : EstimateOk bg) (hr : plausible r = true) :
    EstimateOk (smoothStep bg r) := by
  obtain ⟨hrlo, hrhi⟩ := plausible_iff.1 hr
  have hstep := smoothStep_toNat h r
  obtain ⟨hlo, hhi⟩ := h
  unfold EstimateOk
  omega

/-- The start value of a constrained parameter set (R180 step 6). -/
theorem EstimateOk.start {p : Params} (h : p.wf = true) : EstimateOk (BitVec.ofNat 12 (16 * p.bgRssiInit.toNat)) := by
  simp only [Params.wf, Bool.and_eq_true, decide_eq_true_eq] at h
  obtain ⟨⟨⟨⟨-, hlo⟩, hhi⟩, -⟩, -⟩ := h
  unfold EstimateOk
  simp only [BitVec.toNat_ofNat]
  omega

end Sys2Proof.Machine
end

section
/-! PROOFS. 43_radio_rx_tx.md R245, 44_rssi_tracker.md R263, 10_state.md R29 to R31: every step keeps the invariants. -/

namespace Sys2Proof.Machine

/-! ### What a bus access leaves alone -/

/-- From `s` to `t` nothing changes that the invariants read, except configuration registers and a transceiver's memory,
which keep theirs. -/
structure Quiet (s t : State) : Prop where
  ctl : t.ctl = s.ctl
  tmr : t.tmr = s.tmr
  estimate : t.trk.bgRssi = s.trk.bgRssi
  params : t.params = s.params
  config : s.cfg.Legal → t.cfg.Legal
  memory : MemoryInv s → MemoryInv t

theorem Quiet.did {l : List Addr} {s : State} {e : Env} {xs : List Action} (h : EnvStep l s.env e) : Quiet s (s.did e xs) :=
  ⟨rfl, rfl, rfl, rfl, id, h.canonical⟩

theorem Quiet.withEnv {l : List Addr} {s : State} {e : Env} (h : EnvStep l s.env e) : Quiet s (s.withEnv e) :=
  ⟨rfl, rfl, rfl, rfl, id, h.canonical⟩

theorem Quiet.emit (s : State) (x : Action) : Quiet s (s.emit x) := ⟨rfl, rfl, rfl, rfl, id, id⟩

theorem Quiet.afterFetch (s : State) : Quiet s (afterFetch s) := ⟨rfl, rfl, rfl, rfl, id, id⟩

theorem Quiet.configured {s : State} {f : CfgRegs → CfgRegs} (h : s.cfg.Legal → (f s.cfg).Legal) :
    Quiet s { s with cfg := f s.cfg } := ⟨rfl, rfl, rfl, rfl, h, id⟩

/-! ### The invariants in READY and outside it -/

/-- What every step keeps, with the parameters. -/
structure Kept (q : Option Params) (s : State) : Prop where
  inv : Inv s
  params : s.params = q

/-- The invariants in READY. -/
structure Running (q : Option Params) (s : State) : Prop where
  life : s.ctl.life = .ready
  services : s.tmr.bgArmed = true ∧ s.tmr.dioEn = true
  mode : ModeInv s
  estimate : EstimateOk s.trk.bgRssi
  handle : HandleInv s
  config : s.cfg.Legal
  memory : MemoryInv s
  params : s.params = q

/-- The invariants outside READY, where nothing is pending, armed or enabled. -/
structure Stopped (q : Option Params) (s : State) : Prop where
  life : s.ctl.life ≠ .ready
  idle : s.ctl.txbusy = false ∧ s.ctl.rxPend = false ∧ s.tmr.safetyArmed = false ∧ s.tmr.bgArmed = false ∧
    s.tmr.dioEn = false
  mode : s.ctl.mode ≠ .fsrx ∧ s.ctl.mode ≠ .transmit
  estimate : s.ctl.life = .closed → EstimateOk s.trk.bgRssi
  config : s.cfg.Legal
  memory : MemoryInv s
  params : s.params = q

section
variable {q : Option Params} {s : State}

theorem Running.kept (h : Running q s) : Kept q s where
  inv := {
    lifecycle := ⟨fun hlife => absurd h.life hlife, fun _ => h.services⟩
    mode := h.mode
    tracker := fun _ => h.estimate
    handle := h.handle
    config := h.config
    memory := h.memory }
  params := h.params

theorem Stopped.kept (h : Stopped q s) : Kept q s := by
  obtain ⟨htx, -, harmed, -⟩ := h.idle
  exact {
    inv := {
      lifecycle := ⟨fun _ => h.idle, fun hlife => absurd hlife h.life⟩
      mode := ⟨h.mode.1, fun hmode => absurd hmode h.mode.2⟩
      tracker := fun hlife => h.estimate (hlife.resolve_left h.life)
      handle := fun hset => absurd (harmed.symm.trans hset) nofun
      config := h.config
      memory := h.memory }
    params := h.params }

theorem Kept.running (h : Kept q s) (hlife : s.ctl.life = .ready) : Running q s where
  life := hlife
  services := h.inv.lifecycle.2 hlife
  mode := h.inv.mode
  estimate := h.inv.tracker (.inl hlife)
  handle := h.inv.handle
  config := h.inv.config
  memory := h.inv.memory
  params := h.params

theorem Kept.stopped (h : Kept q s) (hlife : s.ctl.life ≠ .ready) : Stopped q s := by
  have hidle := h.inv.lifecycle.1 hlife
  obtain ⟨hfsrx, htransmit⟩ := h.inv.mode
  refine ⟨hlife, hidle, ⟨hfsrx, fun hmode => ?_⟩, fun hclosed => h.inv.tracker (.inr hclosed), h.inv.config, h.inv.memory,
    h.params⟩
  rw [hidle.1] at htransmit
  exact nomatch htransmit hmode

end

/-- Kept by everything that is quiet. -/
def Steady (P : State → Prop) : Prop := ∀ s t, P s → Quiet s t → P t

theorem steady_kept (q : Option Params) : Steady (Kept q) := fun s t h hq => by
  obtain ⟨hctl, htmr, hbg, hparams, hconfig, hmemory⟩ := hq
  obtain ⟨⟨hlifecycle, hmode, htracker, hhandle, hc, hm⟩, hp⟩ := h
  refine ⟨⟨?_, ?_, ?_, ?_, hconfig hc, hmemory hm⟩, hparams.trans hp⟩
  · rwa [LifecycleInv, hctl, htmr]
  · rwa [ModeInv, hctl]
  · rwa [TrackerInv, hctl, hbg]
  · rwa [HandleInv, htmr]

theorem steady_running (q : Option Params) : Steady (Running q) := fun s t h hq =>
  (steady_kept q s t h.kept hq).running (by rw [hq.ctl, h.life])

theorem steady_stopped (q : Option Params) : Steady (Stopped q) := fun s t h hq =>
  (steady_kept q s t h.kept hq).stopped (by rw [hq.ctl]; exact h.life)

/-! ### Operations between two conditions -/

/-- Where the operation completes from a state with `P`, it leaves one with `Q`. -/
def Leads {α : Type} (P Q : State → Prop) (m : M α) : Prop := ∀ s a t, P s → m s = .ok (a, t) → Q t

/-- The same of a part of a command, whether it raises or not. -/
def LeadsR {α : Type} (P Q : State → Prop) (m : R α) : Prop := Leads P Q m.run

section
variable {α β : Type} {P Q S : State → Prop}

theorem Leads.pure (a : α) : Leads P P (pure a : M α) := fun s b t h hrun => by
  cases hrun
  exact h

theorem Leads.bind {m : M α} {f : α → M β} (hm : Leads P Q m) (hf : ∀ a, Leads Q S (f a)) : Leads P S (m >>= f) :=
  fun s b t h hrun => by
    rw [bind_M] at hrun
    cases hfirst : m s with
    | error x => rw [hfirst] at hrun; cases hrun
    | ok y => rw [hfirst] at hrun; exact hf y.1 y.2 b t (hm s _ _ h hfirst) hrun

/-- What follows may depend on the state there is. -/
theorem Leads.current {f : State → M β} (hf : ∀ s, P s → Leads P Q (f s)) : Leads P Q (Machine.current >>= f) :=
  fun s b t h hrun => hf s h s b t h hrun

theorem Leads.update {g : State → State} (hg : ∀ s, P s → Q (g s)) : Leads P Q (update g) := fun s a t h hrun => by
  cases hrun
  exact hg s h

/-- An operation that completes in one way. -/
theorem Leads.of_run {m : M α} (hm : ∀ s, P s → ∃ a t, m s = .ok (a, t) ∧ Q t) : Leads P Q m := fun s b u h hrun => by
  obtain ⟨a, t, hrun', ht⟩ := hm s h
  cases hrun'.symm.trans hrun
  exact ht

theorem LeadsR.pure (a : α) : LeadsR P P (pure a : R α) := Leads.pure (Except.ok a)

theorem LeadsR.raise (e : Exc) (info : U16) : LeadsR P P (raise e info : R α) := Leads.pure (Except.error _)

theorem LeadsR.require (ok : Bool) (e : Exc) (info : U16) : LeadsR P P (require ok e info) := by
  cases ok
  · exact .raise e info
  · exact .pure ()

theorem LeadsR.andThen {m : R α} {f : α → R β} (hm : LeadsR P Q m) (hf : ∀ a, LeadsR Q S (f a))
    (hQ : ∀ s, Q s → S s := by exact fun _ h => h) : LeadsR P S (m >>= f) :=
  Leads.bind (f := fun x => ExceptT.bindCont f x) hm fun x => by
    cases x with
    | ok a => exact hf a
    | error e => exact fun s b t h hrun => by cases hrun; exact hQ s h

theorem Leads.lift {m : M α} (hm : Leads P Q m) : LeadsR P Q (liftM m : R α) := fun s b t h hrun => by
  rw [lift_R] at hrun
  cases hfirst : m s with
  | error x => rw [hfirst] at hrun; cases hrun
  | ok y => rw [hfirst] at hrun; cases hrun; exact hm s _ _ h hfirst

theorem LeadsR.current {f : State → R β} (hf : ∀ s, P s → LeadsR P Q (f s)) :
    LeadsR P Q ((liftM Machine.current : R State) >>= f) := fun s b t h hrun => by
  have hrun' : (f s).run s = .ok (b, t) := by simpa only [bind_R, lift_R, current_M] using hrun
  exact hf s h s b t h hrun'

theorem LeadsR.admission (c : CmdClass) : LeadsR P P (checkAdmission c) := .current fun _ _ => .require _ _ _

end

/-! ### The primitives -/

section
variable {P Q : State → Prop} (hP : Steady P)
include hP

theorem quiet_leads {α : Type} {m : M α} (hm : ∀ s a t, m s = .ok (a, t) → Quiet s t) : Leads P P m :=
  fun s a t h hrun => hP s t h (hm s a t hrun)

/-- An update of what the invariants do not read. -/
theorem update_leads {g : State → State}
    (hg : ∀ s, Quiet s (g s) := by exact fun _ => ⟨rfl, rfl, rfl, rfl, id, id⟩) : Leads P P (update g) :=
  .update fun s h => hP s _ h (hg s)

theorem emit_leads (x : Action) : Leads P P (emit x) := update_leads hP fun s => .emit s x

theorem xread_leads (a : Addr) : Leads P P (xread a) := quiet_leads hP fun s v t hrun => by
  obtain ⟨e, he, rfl⟩ := xread_ok hrun
  exact .did (xs := [.xread a (.byte v)]) he

theorem xburstRead_leads (a : Addr) (n : Nat) : Leads P P (xburstRead a n) := quiet_leads hP fun s bs t hrun => by
  obtain ⟨e, he, rfl⟩ := xburstRead_ok hrun
  exact .did (xs := [.burstRead a bs]) he

theorem xwrite_leads (a : Addr) (v : Byte) : Leads P P (xwrite a v) := update_leads hP fun _ =>
  .did (xs := [.xwrite a v]) (writeEffect_env ..)

theorem xburstWrite_leads (a : Addr) (bs : List Byte) : Leads P P (xburstWrite a bs) := update_leads hP fun _ =>
  .did (xs := [.burstWrite a bs]) (writeMany_env ..)

theorem xwriteAll_leads (ws : List (Addr × Byte)) : Leads P P (xwriteAll ws) := by
  induction ws with
  | nil => exact .pure ()
  | cons w ws ih => exact (xwrite_leads hP w.1 w.2).bind fun _ => ih

theorem xreadVersion_leads (a : Addr) : Leads P P (xreadVersion a) := quiet_leads hP fun s r t hrun => by
  cases (xreadVersion_did a s).symm.trans hrun
  exact .did (readAnswer_env ..)

theorem timedPoll_leads (a : Addr) (done : Byte → Bool) (budget : Nat) : Leads P P (timedPoll a done budget) :=
  quiet_leads hP fun s ok t hrun => by
    obtain ⟨_, rs, e, hpoll, he⟩ := timedPoll_did a done budget s
    cases hpoll.symm.trans hrun
    exact .did he

theorem now_leads : Leads P P now := quiet_leads hP fun s ts t hrun => by
  cases hrun
  exact .withEnv (nextTick_env _)

theorem codecOnly_leads {α : Type} {m : M α} (hm : CodecOnly m) : Leads P P m := quiet_leads hP fun s a t hrun => by
  obtain ⟨b, c, hrun'⟩ := hm s
  cases hrun'.symm.trans hrun
  exact ⟨rfl, rfl, rfl, rfl, id, id⟩

theorem restartRx_leads : Leads P P restartRx := .current fun _ _ => xwrite_leads hP _ _

/-- SetMode, where the mode is one that may follow (R182). -/
theorem setMode_leads {m : Mode} (hm : ∀ s, P s → Q (s.setMode m)) : Leads P Q (setMode m) :=
  .current fun _ _ => (xwrite_leads hP _ _).bind fun _ => .update hm

theorem waitModeReady_leads : LeadsR P P waitModeReady :=
  .current fun _ _ => (timedPoll_leads hP _ _ _).lift.andThen fun _ => .require _ _ _

theorem writeFrame_leads (payload : List Byte) : Leads P P (writeFrame payload) :=
  .current fun _ _ => xburstWrite_leads hP _ _

/-! ### Options -/

theorem updateCfg_leads {f : CfgRegs → CfgRegs} (hf : ∀ c : CfgRegs, c.Legal → (f c).Legal) : Leads P P (updateCfg f) :=
  update_leads hP fun _ => .configured (hf _)

theorem imageCal_leads : LeadsR P P imageCal :=
  .current fun _ _ => (xwrite_leads hP _ _).lift.andThen fun _ => (timedPoll_leads hP _ _ _).lift.andThen fun _ =>
    .require _ _ _

/-- The pattern of most options: writes, then configuration registers. -/
theorem writeThenConfigure_leads (ws : List (Addr × Byte)) {f : CfgRegs → CfgRegs}
    (hf : ∀ c : CfgRegs, c.Legal → (f c).Legal) : LeadsR P P (do xwriteAll ws; updateCfg f : R Unit) :=
  (xwriteAll_leads hP ws).lift.andThen fun _ => (updateCfg_leads hP hf).lift

variable (hwf : ∀ s, P s → s.p.wf = true)
include hwf

/-- Each option leaves legal values, whether it is applied, refused or stopped by its calibration (10_state.md R31). -/
theorem applyOption_leads (o : CfgOption) : LeadsR P P (applyOption o) := by
  cases o with
  | freq f =>
    show LeadsR P P (applyFreq f)
    unfold applyFreq
    split
    · exact .raise _ _
    · next hreg =>
      refine .current fun s _ => (xwriteAll_leads hP _).lift.andThen fun _ =>
        (updateCfg_leads hP fun c hc => hc.freq hreg).lift.andThen fun _ => ?_
      split
      · exact imageCal_leads hP
      · exact .pure ()
  | bitrate br =>
    show LeadsR P P (applyBitrate br)
    unfold applyBitrate
    split
    · exact .raise _ _
    · next hreg => exact .current fun _ _ => writeThenConfigure_leads hP _ fun c hc => hc.bitrate hreg
  | fdev fd =>
    show LeadsR P P (applyFdev fd)
    unfold applyFdev
    split
    · exact .raise _ _
    · next hreg => exact .current fun _ _ => writeThenConfigure_leads hP _ fun c hc => hc.fdev hreg
  | rxbw hz =>
    refine .current fun s h => ?_
    split
    · exact .raise _ _
    · next hrow =>
      exact (xwrite_leads hP _ _).lift.andThen fun _ =>
        (updateCfg_leads hP fun c hc => hc.rxbw (bwLookup_index (hwf s h) hrow)).lift
  | afcbw hz =>
    refine .current fun s h => ?_
    split
    · exact .raise _ _
    · next hrow =>
      exact (xwrite_leads hP _ _).lift.andThen fun _ =>
        (updateCfg_leads hP fun c hc => hc.afcbw (bwLookup_index (hwf s h) hrow)).lift
  | preamble v => exact .current fun _ _ => writeThenConfigure_leads hP _ fun _ => id
  | sync b =>
    show LeadsR P P (applySync b)
    unfold applySync
    split
    · next hb =>
      exact .current fun _ _ => (xwriteAll_leads hP _).lift.andThen fun _ => (xread_leads hP _).lift.andThen fun _ =>
        (xwrite_leads hP _ _).lift.andThen fun _ => (updateCfg_leads hP fun c hc => hc.sync hb).lift
    · exact .raise _ _
  | pktlen f l =>
    show LeadsR P P (applyPktlen f l)
    exact (updateCfg_leads hP fun _ => by exact id).lift
  | rxcont f =>
    show LeadsR P P (applyRxcont f)
    exact (updateCfg_leads hP fun _ => by exact id).lift

theorem applyOptions_leads (os : List CfgOption) : LeadsR P P (applyOptions os) := by
  induction os with
  | nil => exact .pure ()
  | cons o os ih => exact (applyOption_leads hP hwf o).andThen fun _ => ih

end

/-! ### Operations in READY -/

section
variable {q : Option Params}

/-- A mode that may be entered whatever else holds. -/
theorem Running.setMode {s : State} (h : Running q s) {m : Mode} (hfsrx : m ≠ .fsrx) (htx : m ≠ .transmit) :
    Running q (s.setMode m) :=
  ⟨h.life, h.services, ⟨hfsrx, fun hm => absurd hm htx⟩, h.estimate, h.handle, h.config, h.memory, h.params⟩

/-- A timer that is not pending asks nothing of its handle. -/
theorem Running.disarmed {s : State} (h : Running q s) :
    Running q { s with tmr := { s.tmr with safetyArmed := false } } :=
  ⟨h.life, h.services, h.mode, h.estimate, nofun, h.config, h.memory, h.params⟩

theorem Running.pending {s : State} (h : Running q s) (b : Bool) (n : Byte) (ts : U32) :
    Running q { s with ctl := { s.ctl with rxPend := b, rxLen := n, rxTs := ts } } :=
  ⟨h.life, h.services, h.mode, h.estimate, h.handle, h.config, h.memory, h.params⟩

theorem Running.sampled {s : State} (h : Running q s) {bg : BitVec 12} (hbg : EstimateOk bg) :
    Running q { s with trk := { s.trk with bgRssi := bg } } :=
  ⟨h.life, h.services, h.mode, hbg, h.handle, h.config, h.memory, h.params⟩

theorem setMode_running {m : Mode} (hfsrx : m ≠ .fsrx) (htx : m ≠ .transmit) :
    Leads (Running q) (Running q) (setMode m) := setMode_leads (steady_running q) fun _ h => h.setMode hfsrx htx

theorem receiveIfContinuous_running : Leads (Running q) (Running q) receiveIfContinuous := .current fun s _ => by
  split
  · exact setMode_running nofun nofun
  · exact .pure ()

theorem cancelSafety_running : Leads (Running q) (Running q) cancelSafety :=
  .of_run fun s h => ⟨_, _, cancelSafety_did s,
    steady_running q { s with tmr := { s.tmr with safetyArmed := false } } _ h.disarmed ⟨rfl, rfl, rfl, rfl, id, id⟩⟩

/-- The new timer holds the handle just drawn (10_state.md R29). -/
theorem rearmSafety_running : Leads (Running q) (Running q) rearmSafety :=
  .of_run fun s h => ⟨_, _, rearmSafety_did s,
    ⟨h.life, h.services, h.mode, h.estimate, fun _ => rfl, h.config, h.memory, h.params⟩⟩

/-- The transmission is over before the mode is left, and the mode left is not TRANSMIT (R229). -/
theorem packetSent_running : Leads (Running q) (Running q) packetSent := .of_run fun s h => by
  obtain ⟨e, hsent, hrun⟩ := packetSent_did s
  refine ⟨_, _, hsent, h.life, h.services, ?_, h.estimate, h.handle, h.config, hrun.env.canonical h.memory, h.params⟩
  show (if rxContinuous s then Mode.receive else .standby) ≠ .fsrx ∧ (_ = Mode.transmit → _)
  split <;> exact ⟨nofun, nofun⟩

theorem payloadReady_running (ts : U32) : Leads (Running q) (Running q) (payloadReady ts) := by
  have hP := steady_running q
  have hlength : Leads (Running q) (Running q) arrivedLength := .current fun s _ => by
    split
    · exact .pure _
    · exact xread_leads hP _
  exact cancelSafety_running.bind fun _ => hlength.bind fun n =>
    Leads.bind (.update fun _ h => h.pending true n ts) fun _ => emit_leads hP _

theorem capturePreamble_running : Leads (Running q) (Running q) capturePreamble := by
  have hread := xread_leads (steady_running q)
  exact .current fun s _ => (hread _).bind fun _ => (hread _).bind fun _ => (hread _).bind fun _ => (hread _).bind fun _ =>
    (hread _).bind fun _ => update_leads (steady_running q)

theorem smooth_running : Leads (Running q) (Running q) smooth := .current fun s h =>
  (xread_leads (steady_running q) _).bind fun r => by
    split
    · next hr =>
      refine Leads.bind (.update fun u hu => hu.sampled (h.estimate.smoothStep hr)) fun _ => ?_
      split
      · exact xwrite_leads (steady_running q) _ _
      · exact .pure ()
    · exact .pure ()

theorem afcCheck_running (expected : Bool) : Leads (Running q) (Running q) (afcCheck expected) := by
  have hP := steady_running q
  refine .current fun s _ => ?_
  split
  · refine (xread_leads hP _).bind fun m => (xread_leads hP _).bind fun l => ?_
    dsimp only
    split
    · exact (restartRx_leads hP).bind fun _ => (emit_leads hP _ : Leads _ _ (diag _ _)).bind fun _ =>
        update_leads hP
    · exact update_leads hP
  · exact update_leads hP

theorem modeCheck_running (expected : Bool) : Leads (Running q) (Running q) (modeCheck expected) := by
  have hP := steady_running q
  refine .current fun s _ => ?_
  split
  · refine (xread_leads hP _).bind fun v => ?_
    dsimp only
    split
    · exact (setMode_running (m := .receive) nofun nofun).bind fun _ => emit_leads hP _
    · exact .pure ()
  · exact .pure ()

theorem readPacket_running (hasDst : Bool) (cap : Byte) : LeadsR (Running q) (Running q) (readPacket hasDst cap) := by
  have hP := steady_running q
  have hpull : Leads (Running q) (Running q) pullPacket := .current fun s _ => by
    split
    · exact .pure _
    · exact xburstRead_leads hP _ _
  refine .current fun s _ => ?_
  split
  · exact .pure _
  · split
    · exact .raise _ _
    · exact hpull.lift.andThen fun bytes => (codecOnly_leads hP (.setBuf bytes)).lift.andThen fun _ =>
        LeadsR.andThen (Leads.lift (.update fun u h => h.pending false u.ctl.rxLen u.ctl.rxTs)) fun _ =>
          receiveIfContinuous_running.lift.andThen fun _ => .pure _

/-- A transmission in flight. -/
def Sending (q : Option Params) (s : State) : Prop := Running q s ∧ s.ctl.txbusy = true

theorem steady_sending (q : Option Params) : Steady (Sending q) := fun s t h hq =>
  ⟨steady_running q s t h.1 hq, by rw [hq.ctl, h.2]⟩

/-- TXBUSY is set before TRANSMIT is entered (R235). -/
theorem transmit_running (payload : List Byte) : LeadsR (Running q) (Running q) (transmit payload) := by
  have hP := steady_running q
  have hset : Leads (Running q) (Sending q) (update fun s => { s with ctl := { s.ctl with txbusy := true } }) :=
    .update fun s h =>
      ⟨⟨h.life, h.services, ⟨h.mode.1, fun _ => rfl⟩, h.estimate, h.handle, h.config, h.memory, h.params⟩, rfl⟩
  have hmode : Leads (Sending q) (Running q) (setMode .transmit) := setMode_leads (steady_sending q) fun s h =>
    ⟨h.1.life, h.1.services, ⟨nofun, fun _ => h.2⟩, h.1.estimate, h.1.handle, h.1.config, h.1.memory, h.1.params⟩
  exact (setMode_running (m := .fstx) nofun nofun).lift.andThen fun _ => (waitModeReady_leads hP).andThen fun _ =>
    (writeFrame_leads hP payload).lift.andThen fun _ => hset.lift.andThen (fun _ => hmode.lift) fun _ h => h.1

theorem writeCommand_running (hasSize : Bool) (size : Byte) (buf : List Byte) :
    LeadsR (Running q) (Running q) (writeCommand hasSize size buf) :=
  (LeadsR.admission _).andThen fun _ => .current fun _ _ => (LeadsR.require _ _ _).andThen fun _ =>
    (LeadsR.require _ _ _).andThen fun _ => (transmit_running _).andThen fun _ => .pure _

end

/-! ### Construction -/

section
variable {q : Option Params}

theorem Stopped.emptied {s : State} (h : Stopped q s) : Stopped q (constructEmpty s) := by
  obtain ⟨-, -, -, hbg, hdio⟩ := h.idle
  exact ⟨h.life, ⟨rfl, rfl, rfl, hbg, hdio⟩, h.mode, h.estimate, s.cfg.legal_invalidate, h.memory, h.params⟩

theorem Stopped.failed {s : State} (h : Stopped q s) : Stopped q (constructFailed s) :=
  ⟨nofun, ⟨rfl, rfl, rfl, rfl, rfl⟩, h.mode, nofun, s.cfg.legal_invalidate, h.memory, h.params⟩

theorem Stopped.standby {s : State} (h : Stopped q s) : Stopped q (s.setMode .standby) :=
  ⟨h.life, h.idle, ⟨nofun, nofun⟩, h.estimate, h.config, h.memory, h.params⟩

theorem Stopped.started {s : State} (h : Stopped q s) (hwf : s.p.wf = true) : Running q (started s) := by
  obtain ⟨-, -, harmed, -⟩ := h.idle
  exact ⟨rfl, ⟨rfl, rfl⟩, ⟨h.mode.1, fun hm => absurd hm h.mode.2⟩, .start hwf,
    fun hset => absurd (harmed.symm.trans hset) nofun, h.config, h.memory, h.params⟩

theorem resetPulse_stopped : Leads (Stopped q) (Stopped q) resetPulse := by
  have hP := steady_stopped q
  have pin : ∀ level, Leads (Stopped q) (Stopped q) (pinReset level) := fun level =>
    Leads.bind (update_leads hP) fun _ => emit_leads hP _
  have pause : ∀ ms, Leads (Stopped q) (Stopped q) (wait ms) := fun ms => emit_leads hP _
  exact (pin false).bind fun _ => (pause _).bind fun _ => (pin true).bind fun _ => (pause _).bind fun _ =>
    .update fun _ h => h.standby

theorem versionTries_stopped (k : Nat) : ∀ last, LeadsR (Stopped q) (Stopped q) (versionTries k last) := by
  have hP := steady_stopped q
  induction k with
  | zero => exact fun last => .raise _ _
  | succ k ih =>
    refine fun last => .current fun s _ => (xreadVersion_leads hP _).lift.andThen fun v => ?_
    split
    · exact .pure ()
    · exact (emit_leads hP _ : Leads _ _ (wait _)).lift.andThen fun _ => ih v

theorem scratchPattern_stopped (pat : Byte) (info : U16) : LeadsR (Stopped q) (Stopped q) (scratchPattern pat info) := by
  have hP := steady_stopped q
  exact .current fun _ _ => (xwrite_leads hP _ _).lift.andThen fun _ => (xread_leads hP _).lift.andThen fun _ =>
    .require _ _ _

theorem writeInitTable_stopped : Leads (Stopped q) (Stopped q) writeInitTable := .current fun s _ => by
  split
  · exact xwriteAll_leads (steady_stopped q) _
  · exact fun _ _ _ _ hrun => nomatch hrun

theorem orFail_stopped {m : R Unit} (hm : LeadsR (Stopped q) (Stopped q) m) :
    LeadsR (Stopped q) (Stopped q) (orFail m) := fun s r t h hrun => by
  have hrun' : (match m.run s with
    | .ok (.error e, u) => .ok (.error e, constructFailed u)
    | x => x) = Except.ok (r, t) := hrun
  split at hrun'
  · next e u hfirst =>
    cases hrun'
    exact (hm s _ u h hfirst).failed
  · exact hm s r t h hrun'

/-- What the parameters of the claim say of a state. -/
theorem wf_of_params (hwf : (q.getD Config.params).wf = true) {s : State} (h : s.params = q) : s.p.wf = true := by
  rw [State.p, h]
  exact hwf

variable (hwf : (q.getD Config.params).wf = true)
include hwf

theorem constructChip_stopped (os : List CfgOption) : LeadsR (Stopped q) (Stopped q) (constructChip os) :=
  resetPulse_stopped.lift.andThen fun _ => (versionTries_stopped _ _).andThen fun _ =>
    (LeadsR.andThen (.current fun _ _ => (scratchPattern_stopped _ _).andThen fun _ => scratchPattern_stopped _ _) fun _ =>
      writeInitTable_stopped.lift.andThen fun _ =>
        applyOptions_leads (steady_stopped q) (fun _ h => wf_of_params hwf h.params) os)

theorem startServices_running : Leads (Stopped q) (Running q) startServices := .of_run fun s h =>
  ⟨_, _, startServices_did s,
    steady_running q _ _ (h.started (wf_of_params hwf h.params)) (.did (.refl [] s.env))⟩

/-- INIT outside READY ends in READY or outside it, as the construction goes (R180, R181). -/
theorem initWith_kept (os : List CfgOption) : LeadsR (Stopped q) (Kept q) (initWith os) :=
  (LeadsR.admission _).andThen (hQ := fun _ h => h.kept) fun _ =>
    LeadsR.andThen (hQ := fun _ h => h.kept) (Leads.lift (.update fun _ h => h.emptied)) fun _ =>
      (orFail_stopped (constructChip_stopped hwf os)).andThen (hQ := fun _ h => h.kept) fun _ =>
        (startServices_running hwf).lift.andThen (hQ := fun _ h => h.kept) fun _ =>
          receiveIfContinuous_running.lift.andThen (hQ := fun _ h => h.kept) fun _ => fun s r t h hrun => by
            cases hrun
            exact h.kept

end

/-! ### Instructions -/

/-- Where the outcome is a next state, it is as `Q` says. -/
def Ends (Q : State → Prop) (o : Host.Outcome State Fault Refusal) : Prop := ∀ t, o = .next t → Q t

section
variable {P Q : State → Prop} {s : State}

theorem Ends.mono {S : State → Prop} {o : Host.Outcome State Fault Refusal} (h : Ends Q o) (hQ : ∀ s, Q s → S s) :
    Ends S o := fun t ht => hQ t (h t ht)

theorem Ends.next {t : State} (h : Q t) : Ends Q (.next t) := fun u hu => by
  cases hu
  exact h

theorem LeadsR.command {m : R Response} (hQ : Steady Q) (hm : LeadsR P Q m) (h : P s) : Ends Q (command m s) :=
  fun t ht => by
    obtain ⟨u, ⟨r, hrun, rfl⟩ | ⟨e, hrun, rfl⟩⟩ := command_next ht <;> exact hQ u _ (hm s _ u h hrun) (.emit u _)

theorem Leads.handler {m : M Unit} (hm : Leads P Q m) (h : P s) : Ends Q (handler m s) :=
  fun t ht => hm s _ t h (handler_next ht)

end

/-- CLOSE leaves READY in SLEEP with everything stopped (R205). -/
theorem execClose_stopped {q : Option Params} {s : State} (h : Running q s) : Ends (Stopped q) (exec .close s) := by
  obtain ⟨e, hrun, -, hexec⟩ := closeResult s h.life
  rw [hexec]
  exact .next ⟨nofun, ⟨rfl, rfl, rfl, rfl, rfl⟩, ⟨nofun, nofun⟩, fun _ => h.estimate, h.config,
    hrun.env.canonical h.memory, h.params⟩

section
variable {q : Option Params} {s : State}

/-- Commands that need only be admitted, and handlers, in READY. -/
theorem command_running {m : R Response} (hm : LeadsR (Running q) (Running q) m) (h : Running q s) :
    Ends (Kept q) (command m s) := (hm.command (steady_running q) h).mono fun _ => Running.kept

theorem handler_running {m : M Unit} (hm : Leads (Running q) (Running q) m) (h : Running q s) :
    Ends (Kept q) (handler m s) := (hm.handler h).mono fun _ => Running.kept

theorem configureWith_running (hwf : (q.getD Config.params).wf = true) (os : List CfgOption) :
    LeadsR (Running q) (Running q) (configureWith os) :=
  (LeadsR.admission _).andThen fun _ =>
    (applyOptions_leads (steady_running q) (fun _ h => wf_of_params hwf h.params) os).andThen fun _ => .pure _

theorem telemetry_running (f : State → List Byte) : LeadsR (Running q) (Running q) (telemetry f) :=
  (LeadsR.admission _).andThen fun _ => .current fun u _ => by
    split
    · exact .pure _
    · exact .pure _

/-- The events (R220, R225, R227; 44_rssi_tracker.md R260). -/
theorem event_running (h : Running q s) {i : Instr} (hi : i.format = .event) : Ends (Kept q) (exec i s) := by
  have hP := steady_running q
  cases i with
  | evPreamble =>
    refine handler_running (.current fun _ _ => ?_) h
    split
    · exact capturePreamble_running.bind fun _ => rearmSafety_running
    · exact .pure ()
  | evDio0 =>
    refine handler_running (.current fun u _ => ?_) h
    split
    · refine (now_leads hP).bind fun ts => ?_
      split
      · exact packetSent_running
      · exact payloadReady_running ts
    · exact .pure ()
  | evSafety k =>
    refine handler_running (.current fun _ _ => ?_) h
    split
    · exact Leads.bind (.update fun _ hu => hu.disarmed) fun _ => (restartRx_leads hP).bind fun _ =>
        (xread_leads hP _).bind fun _ => emit_leads hP _
    · exact .pure ()
  | evBg =>
    refine handler_running (.current fun _ _ => ?_) h
    split
    · exact smooth_running.bind fun _ => .current fun _ _ => (afcCheck_running _).bind fun _ => modeCheck_running _
    · exact .pure ()
  | _ => cases hi

/-- The messages change the event history alone, in every LIFE state. -/
theorem message_kept (h : Kept q s) {i : Instr} (hi : i.format = .notification ∨ i.format = .response) :
    Ends (Kept q) (exec i s) := by
  have hemit : ∀ x, Kept q (s.emit x) := fun x => steady_kept q s _ h (.emit s x)
  obtain ⟨hreadable, hwritable, hdiag, hok, hnone, hexc⟩ := messageRows s
  cases i with
  | nReadable n ts => rw [hreadable]; exact .next (hemit _)
  | nWritable => rw [hwritable]; exact .next (hemit _)
  | nDiag k v => rw [hdiag]; exact .next (hemit _)
  | rspOk r => rw [hok]; exact .next (hemit _)
  | rspNone r => rw [hnone]; exact .next (hemit _)
  | rspExc x info => rw [hexc]; exact .next (hemit _)
  | _ => rcases hi with hi | hi <;> cases hi

/-- Every instruction in READY. -/
theorem exec_running (hwf : (q.getD Config.params).wf = true) (h : Running q s) (i : Instr) :
    Ends (Kept q) (exec i s) := by
  have hP := steady_running q
  have hcodec {α : Type} {m : M α} (hm : CodecOnly m) : LeadsR (Running q) (Running q) (liftM m : R α) :=
    (codecOnly_leads hP hm).lift
  cases i with
  | init cfg =>
    have hrefused : exec (.init cfg) s = .next (s.emit _) :=
      (command_admission .construct _ s).trans (if_neg (by simp [admits, h.life]))
    rw [hrefused]
    exact .next (steady_kept q s _ h.kept (.emit s _))
  | configure | cfgFreq | cfgBitrate | cfgFdev | cfgRxbw | cfgAfcbw | cfgPreamble | cfgSync | cfgPktlen | cfgRxcont =>
    exact command_running (configureWith_running hwf _) h
  | cfgReserved => exact command_running ((LeadsR.admission _).andThen fun _ => .raise _ _) h
  | write | fifoframe => exact command_running (writeCommand_running _ _ _) h
  | read hasDst cap =>
    refine command_running ((LeadsR.admission _).andThen fun _ => (readPacket_running hasDst cap).andThen fun r => ?_) h
    cases r <;> exact .pure _
  | close => exact (execClose_stopped h).mono fun _ => Stopped.kept
  | recv hasDst cap chk group =>
    refine command_running ((LeadsR.admission _).andThen fun _ => (LeadsR.require _ _ _).andThen fun _ =>
      (readPacket_running hasDst cap).andThen fun r => ?_) h
    cases r with
    | none => exact .pure _
    | some bytes =>
      refine (hcodec (.decodeInto _)).andThen fun pk => ?_
      cases pk with
      | none => exact .pure _
      | some pk => exact .current fun _ _ => (hcodec (.setPacket _)).andThen fun _ => .pure _
  | rxrssi | rxlna | rxafc | rxmargin => exact command_running (telemetry_running _) h
  | status =>
    show Ends _ (execStatus s)
    exact command_running ((LeadsR.admission _).andThen fun _ => .current fun _ _ => .pure _) h
  | vdec1 buf =>
    refine command_running ((LeadsR.admission _).andThen fun _ => (hcodec (.setBuf buf)).andThen fun _ =>
      (hcodec (.setDecoder _ _ _ _)).andThen fun _ => ?_) h
    split <;> exact .pure _
  | vdecall buf =>
    show Ends _ (execVdecall buf s)
    exact command_running ((LeadsR.admission _).andThen fun _ => (hcodec (.setBuf buf)).andThen fun _ =>
      (hcodec (.setDecoder _ _ _ _)).andThen fun _ => .pure _) h
  | venc v =>
    show Ends _ (execVenc v s)
    exact command_running ((LeadsR.admission _).andThen fun _ => .pure _) h
  | pdec chk group buf =>
    refine command_running ((LeadsR.admission _).andThen fun _ => (LeadsR.require _ _ _).andThen fun _ =>
      (hcodec (.setBuf buf)).andThen fun _ => (hcodec (.decodeInto _)).andThen fun pk => ?_) h
    cases pk <;> exact .pure _
  | gensync group =>
    exact command_running ((LeadsR.admission _).andThen fun _ => (LeadsR.require _ _ _).andThen fun _ =>
      (hcodec (.setSync _)).andThen fun _ => .pure _) h
  | parchk group byte0 =>
    exact command_running ((LeadsR.admission _).andThen fun _ => (LeadsR.require _ _ _).andThen fun _ => .pure _) h
  | evPreamble | evDio0 | evSafety | evBg => exact event_running h rfl
  | nReadable | nWritable | nDiag => exact message_kept h.kept (.inl rfl)
  | rspOk | rspNone | rspExc => exact message_kept h.kept (.inr rfl)
  | varintGroup | varintLast => exact handler_running (codecOnly_leads hP (.takeVarintByte _)) h
  | pktV1Node | pktV1Gw | pktV2 => exact handler_running (codecOnly_leads hP (.takePacket _)) h
  | pktTrailer => exact handler_running (codecOnly_leads hP (CodecOnly.current.bind fun _ => .setPacket _)) h
  | syncword group => exact handler_running (codecOnly_leads hP (.setSync _)) h
  | parity => exact handler_running (codecOnly_leads hP (CodecOnly.current.bind fun _ => .setSync _)) h

/-- Outside READY only INIT and the messages do more than `Silent` says. -/
theorem exec_stopped (hwf : (q.getD Config.params).wf = true) (h : Stopped q s) (i : Instr) :
    Ends (Kept q) (exec i s) := by
  by_cases hmessage : i.format = .notification ∨ i.format = .response
  · exact message_kept h.kept hmessage
  · obtain ⟨hnote, hresp⟩ := not_or.1 hmessage
    by_cases hinit : ∀ c, i ≠ .init c
    · obtain ⟨c, acts, hexec, -⟩ := exec_silent h.life hinit hnote hresp
      rw [hexec]
      exact .next (steady_kept q s _ h.kept ⟨rfl, rfl, rfl, rfl, id, id⟩)
    · push Not at hinit
      obtain ⟨c, rfl⟩ := hinit
      exact (initWith_kept hwf (cfgOptions c)).command (steady_kept q) h

theorem exec_kept (hwf : (q.getD Config.params).wf = true) (h : Kept q s) (i : Instr) : Ends (Kept q) (exec i s) := by
  by_cases hlife : s.ctl.life = .ready
  · exact exec_running hwf (h.running hlife) i
  · exact exec_stopped hwf (h.stopped hlife) i

end

/-! ### Steps -/

/-- The block reset input leaves what R48 gives, and the environment as it was (70_reset_and_hazards.md R310). -/
theorem blockReset_kept {q : Option Params} {s : State} (h : Kept q s) : Kept q (blockReset s) where
  inv := { resetMeetsInvariants with memory := h.inv.memory }
  params := h.params

/-- Settles O58: a step idles, resets, answers a malformed command or runs an instruction, and each keeps the invariants. -/
theorem stepKeepsInvariants : Obligations.StepKeepsInvariants := by
  intro s t hwf hinv hstep
  have h : Kept s.params (afterFetch s) := steady_kept _ s _ ⟨hinv, rfl⟩ (.afterFetch s)
  suffices hkept : Kept s.params t from ⟨hkept.inv, hkept.params⟩
  unfold step at hstep
  cases hfetch : fetch s with
  | idle => rw [hfetch] at hstep; cases hstep; exact ⟨hinv, rfl⟩
  | reset => rw [hfetch] at hstep; cases hstep; exact blockReset_kept h
  | instr i => rw [hfetch] at hstep; exact exec_kept hwf h i t hstep
  | malformed frame =>
    simp only [hfetch, execMalformed_eq] at hstep
    cases hstep
    exact steady_kept _ _ _ h (.emit _ _)
  | undecodable f e => rw [hfetch] at hstep; cases hstep

end Sys2Proof.Machine
end

section
/-! PROOFS. 44_rssi_tracker.md R260 to R266: the background tick in arithmetic, and the range of its estimate. -/

namespace Sys2Proof.Machine

/-! ### The estimate and its threshold in arithmetic -/

/-- No estimate is so high that a sample wraps it (R262): 4095 - 255 + 255 still fits 12 bits. -/
theorem toNat_smoothStep (bg : BitVec 12) (r : Byte) :
    (smoothStep bg r).toNat = bg.toNat - bg.toNat / 16 + r.toNat := by
  have hshift : (bg >>> 4).toNat = bg.toNat / 16 := by simp [Nat.shiftRight_eq_div_pow]
  have hr : (r.zeroExtend 12).toNat = r.toNat := by simp; omega
  rw [smoothStep, BitVec.toNat_add, BitVec.toNat_sub, hshift, hr]
  omega

theorem toNat_sampled (bg : BitVec 12) (r : Byte) : (sampled bg r).toNat =
    if 140 ≤ r.toNat ∧ r.toNat ≤ 200 then bg.toNat - bg.toNat / 16 + r.toNat else bg.toNat := by
  by_cases hr : plausible r = true
  · rw [sampled, if_pos hr, if_pos (plausible_iff.1 hr), toNat_smoothStep]
  · rw [sampled, if_neg hr, if_neg (mt plausible_iff.2 hr)]

theorem toNat_smoothed (bg : BitVec 12) : (smoothed bg).toNat = bg.toNat / 16 := by
  have hshift : (bg >>> 4).toNat = bg.toNat / 16 := by simp [Nat.shiftRight_eq_div_pow]
  rw [smoothed, BitVec.truncate_eq_setWidth, BitVec.toNat_setWidth, hshift]
  omega

theorem smoothed_eq_iff {bg bg' : BitVec 12} : smoothed bg = smoothed bg' ↔ bg.toNat / 16 = bg'.toNat / 16 := by
  rw [← BitVec.toNat_inj, toNat_smoothed, toNat_smoothed]

/-- The margin is taken off without wrapping where the integer part reaches it (R264). -/
theorem toNat_thresholdFor {bg : BitVec 12} (h : 4 ≤ bg.toNat / 16) :
    (thresholdFor bg).toNat = bg.toNat / 16 - 4 := by
  have hmargin : (BitVec.ofNat 8 Config.threshMargin).toNat = 4 := rfl
  rw [thresholdFor, BitVec.toNat_sub, toNat_smoothed, hmargin]
  omega

/-- An accepted sample alone lifts the integer part above the margin. -/
theorem thresholdFor_smoothStep {bg : BitVec 12} {r : Byte} (h : plausible r = true) :
    thresholdFor (smoothStep bg r) = BitVec.ofNat 8 ((smoothStep bg r).toNat / 16 - 4) := by
  have hlo := (plausible_iff.1 h).1
  have hpart : 4 ≤ (smoothStep bg r).toNat / 16 := by rw [toNat_smoothStep]; omega
  rw [← toNat_thresholdFor hpart, BitVec.ofNat_toNat, BitVec.setWidth_eq]

/-- Settles O53: `EstimateOk` is kept, and its integer part is at least 140 and at most 200. -/
theorem smoothingRange : Obligations.SmoothingRange := by
  intro bg r hlo hhi
  have hthreshold := toNat_thresholdFor (bg := bg) (by omega)
  exact ⟨EstimateOk.smoothStep ⟨hlo, hhi⟩, by omega, by omega⟩

/-! ### The actions of a tick in arithmetic -/

/-- The sample and the rewritten threshold (R262, R264): only an accepted sample can change the integer part. -/
theorem smoothActs_eq (s : State) (r : Byte) : smoothActs s r = .xread s.p.xr.rssivalue (.byte r) ::
    if (sampled s.trk.bgRssi r).toNat / 16 ≠ s.trk.bgRssi.toNat / 16
    then [.xwrite s.p.xr.rssithresh (BitVec.ofNat 8 ((sampled s.trk.bgRssi r).toNat / 16 - 4))] else [] := by
  simp only [smoothActs, ne_eq, smoothed_eq_iff]
  by_cases hr : plausible r = true
  · rw [sampled, if_pos hr, thresholdFor_smoothStep hr]
  · rw [sampled, if_neg hr]
    simp only [not_true_eq_false, if_false]

/-- The mode field of XR_OPMODE (R266). -/
theorem toNat_modeField (v : Byte) : (v &&& 7).toNat = v.toNat % 8 := Nat.and_two_pow_sub_one_eq_mod v.toNat 3

theorem modeField_eq_receive_iff {v : Byte} : v &&& 7 = modeCode .receive ↔ v.toNat % 8 = 5 := by
  rw [← BitVec.toNat_inj, toNat_modeField, modeCode_toNat]

theorem modeCheckActs_eq (s : State) (v : Byte) : modeCheckActs s true v = .xread s.p.xr.opmode (.byte v) ::
    if v.toNat % 8 ≠ 5
    then [.xwrite s.p.xr.opmode (s.p.opmodeBase ||| 5), .notify (.diag 3 (BitVec.ofNat 16 (v.toNat % 8)))] else [] := by
  have hinfo : (v &&& 7).zeroExtend 16 = BitVec.ofNat 16 (v.toNat % 8) := by
    rw [← toNat_modeField, BitVec.ofNat_toNat]
  simp only [modeCheckActs, ne_eq, modeField_eq_receive_iff, hinfo]
  rfl

/-! ### EV_BG -/

/-- The three registers a tick may write: the threshold, the restart of the receiver and the mode. -/
theorem storedBy_tick (s : State) (expected : Bool) (r m l v : Byte) :
    ∀ a ∈ storedBy (smoothActs s r ++ afcActs s expected m l ++ modeCheckActs s expected v),
      a ∈ [s.p.xr.rssithresh, s.p.xr.rxconfig, s.p.xr.opmode] := by
  have hsmooth : ∀ a ∈ storedBy (smoothActs s r), a = s.p.xr.rssithresh := by
    unfold smoothActs; split <;> simp [storedBy]
  have hafc : ∀ a ∈ storedBy (afcActs s expected m l), a = s.p.xr.rxconfig := by
    unfold afcActs; split_ifs <;> simp [storedBy]
  have hmode : ∀ a ∈ storedBy (modeCheckActs s expected v), a = s.p.xr.opmode := by
    unfold modeCheckActs; split_ifs <;> simp [storedBy, modeActs]
  intro a ha
  simp only [storedBy_append, List.mem_append] at ha
  rcases ha with (ha | ha) | ha
  · simp [hsmooth a ha]
  · simp [hafc a ha]
  · simp [hmode a ha]

/-- Settles O52: the tick of `exec_evBg_did`, with its estimate, its actions and its mode in arithmetic. -/
theorem evBgResult : Obligations.EvBgResult := by
  intro s hbus hlife harmed
  obtain ⟨r, m, l, v, e, hrun, hexec⟩ := exec_evBg_did hbus hlife harmed
  refine ⟨r, m, l, v, e, ?_⟩
  intro old new sample expected a afc mode acts
  have hnew : new = (sampled s.trk.bgRssi r).toNat := (toNat_sampled ..).symm
  have hbg : BitVec.ofNat 12 new = sampled s.trk.bgRssi r := by rw [hnew, BitVec.ofNat_toNat, BitVec.setWidth_eq]
  have hsample : sample = smoothActs s r := by rw [smoothActs_eq, ← hnew]
  have hacts : acts = smoothActs s r ++ afcActs s expected m l ++ modeCheckActs s expected v := by
    show (if expected then sample ++ afc ++ mode else sample) = _
    rw [hsample]
    cases expected with
    | true => rw [modeCheckActs_eq]; rfl
    | false => exact (List.append_nil _).symm.trans (List.append_nil _).symm
  have hdrift : (expected && v.toNat % 8 != 5) = true ↔ expected = true ∧ v &&& 7 ≠ modeCode .receive := by
    rw [Bool.and_eq_true, bne_iff_ne, ne_eq, ne_eq, modeField_eq_receive_iff]
  rw [hacts, hbg]
  simp only [hdrift]
  exact ⟨hrun, hrun.regs (storedBy_tick s expected r m l v), hexec⟩

end Sys2Proof.Machine
end

section
/-! PROOFS. 60_exceptions.md R285, R287, R298: what admission refuses, and the steps that run no instruction. -/

namespace Sys2Proof.Machine

/-! ### Refused commands -/

/-- Every command is its admission check, by the class of its row, and a body (60_exceptions.md R285). -/
theorem exec_eq_admission {i : Instr} (hi : isCommand i = true) :
    ∃ body : R Response, ∀ s, exec i s = command (do checkAdmission (rowClass i); body) s := by
  cases i with
  | init | configure | write | read | close | recv | rxrssi | rxlna | rxafc | rxmargin | fifoframe | cfgFreq | cfgBitrate
  | cfgFdev | cfgRxbw | cfgAfcbw | cfgPreamble | cfgSync | cfgPktlen | cfgRxcont | cfgReserved | vdec1 | pdec | gensync
  | parchk => exact ⟨_, fun _ => rfl⟩
  -- These three complete on every path, so the body is read off the definition and not off its evaluation.
  | status => exact ⟨_, fun s => by unfold exec execStatus; rfl⟩
  | vdecall => exact ⟨_, fun s => by unfold exec execVdecall; rfl⟩
  | venc => exact ⟨_, fun s => by unfold exec execVenc; rfl⟩
  | _ => cases hi

/-- A command that is not admitted is answered E_NOT_READY with the LIFE code, and no state changes (60_exceptions.md R284,
R287). -/
theorem exec_refused {s : State} {i : Instr} (hi : isCommand i = true) (h : admittedIn i s.ctl.life = false) :
    exec i s = .next (s.emit (.respond (.exc .notReady (lifeInfo s.ctl.life)))) := by
  obtain ⟨body, hexec⟩ := exec_eq_admission hi
  have hclass : admits (rowClass i) s.ctl.life = false := by rw [← admittedIn_eq, h]
  rw [hexec, command_admission, hclass]
  rfl

/-- Settles O38: the admission check comes first, so a command it refuses never reaches its body. -/
theorem admissionRefused : Obligations.AdmissionRefused := by
  intro s i hi hrefused
  rw [exec_refused hi hrefused]
  exact congrArg (fun n => Host.Outcome.next (s.emit (.respond (.exc .notReady n)))) (lifeInfo_eq s.ctl.life)

/-! ### Steps without an instruction -/

theorem step_idle {s : State} (h : s.inbox = []) : step s = .next s := by
  have hfetch : fetch s = .idle := by rw [fetch, h]
  rw [step, hfetch]

theorem step_blockReset {s : State} {rest : List Item} (h : s.inbox = .blockReset :: rest) :
    step s = .next (blockReset { s with inbox := rest }) := by
  have hfetch : fetch s = .reset := by rw [fetch, h]
  rw [step, hfetch, afterFetch_eq h]

/-- The block reset input leaves the reset state around what is outside the block (70_reset_and_hazards.md R310). -/
theorem blockReset_eq (s : State) : blockReset s =
    { State.reset with
      env := s.env, inbox := s.inbox, params := s.params, io := { Io.reset with trace := s.io.trace } } := rfl

/-- Settles O5: the fetch finds nothing, or the block reset input. -/
theorem stepIdleOrReset : Obligations.StepIdleOrReset :=
  ⟨fun _ => step_idle, fun _ _ hbox => by rw [step_blockReset hbox, blockReset_eq], rfl, rfl⟩

end Sys2Proof.Machine
end
